-- ==== Sys2Proof/Word.lean ====
section
/-! DEFINITION. The words of the hardware: bytes on the two streams, 16-bit command and response words,
the 10-bit operand field, and the symbols of the alphabet. -/

namespace Sys2Proof

/-- One byte of the source, the sink or an accumulator (20_memory.md R72). -/
abbrev Byte := BitVec 8

/-- A command word or a response word, `CMD_BITS` = 16 (30_encoding.md R80, R88). -/
abbrev Word := BitVec 16

/-- The operand field `ARG`, 10 bits unsigned (R80, R84). -/
abbrev Arg := BitVec 10

/-- A symbol: an integer in 0..256 (00_scope.md R8). Fixed by the source, not a parameter. -/
abbrev Symbol := Fin 257

/-- `EOT` = 256, the end-of-transmission sentinel (R7). -/
abbrev Symbol.eot : Symbol := 256

/-- A raw byte read as a symbol, its value unchanged (42_codec.md R167). -/
def Symbol.ofByte (v : Byte) : Symbol := ⟨v.toNat, by have := v.isLt; omega⟩

end Sys2Proof
end

