-- ==== Sys2Proof/Config.lean ====
section
/-! DEFINITION. The implementation parameters of 00_scope.md R7. Every operation of the model that depends
on one takes the configuration record as an argument, so that R9's "a model must keep it a parameter" holds;
`Config.ahte` is this hardware. One value is left free, `Config.freeCut`: how far a command had got when hard reset cut it short. -/

namespace Sys2Proof

/-- The two parameters that are open (R9, R11). -/
structure Config where
  /-- `NODE_CAP`: capacity of the node arena and of the order table. -/
  nodeCap : Nat
  /-- `WEIGHT_BITS`: width of a node's weight. -/
  weightBits : Nat
  deriving DecidableEq, Repr

/-- `ORDER_MAX = NODE_CAP − 1` (R7). -/
def Config.orderMax (c : Config) : Nat := c.nodeCap - 1

/-- `MAX_DEPTH = (NODE_CAP − 1) / 2` (R10). -/
def Config.maxDepth (c : Config) : Nat := (c.nodeCap - 1) / 2

/-- The largest weight, `2^WEIGHT_BITS − 1` (R11). -/
def Config.weightMax (c : Config) : Nat := 2 ^ c.weightBits - 1

/-- R9: every rule is written for an arbitrary odd `NODE_CAP ≥ 3`; a weight has at least one bit. -/
abbrev Config.Valid (c : Config) : Prop := c.nodeCap % 2 = 1 ∧ 3 ≤ c.nodeCap ∧ 1 ≤ c.weightBits

/-- This hardware: `NODE_CAP` = 513 (R9, conflict C4), `WEIGHT_BITS` = 64 (R11). -/
def Config.ahte : Config := { nodeCap := 513, weightBits := 64 }

/-- How far a command had got when hard reset cut it short, which no source defines (70_reset_and_hazards.md R251): a free value, one
for each use of the counter `cuts` (notes/assumptions/5.md). -/
opaque Config.freeCut : Nat → Nat

end Sys2Proof
end

