-- ==== Sys2Proof/Syntax.lean ====
section
/-! DEFINITION. The command set: one constructor per row of the opcode table (30_encoding.md R82, R83).
An operand is the 10-bit `ARG` field as it stands (R84); its legal range is checked in WellFormed.lean and, as
R87 orders it, when the command is executed. -/

namespace Sys2Proof

/-- The nine commands. -/
inductive Instr where
  /-- `TRESET` (R102). -/
  | treset
  /-- `PATHOF n`, n a node index (R105). -/
  | pathof (n : Arg)
  /-- `UPDATE s`, s a symbol (R117). -/
  | update (s : Arg)
  /-- `WRBIT b`, b a bit (R142). -/
  | wrbit (b : Arg)
  /-- `WFLUSH` (R144). -/
  | wflush
  /-- `RDBIT` (R147). -/
  | rdbit
  /-- `ENCODE s`, s a symbol (R164). -/
  | encode (s : Arg)
  /-- `ENCSTREAM` (R166). -/
  | encstream
  /-- `DECSTREAM` (R172). -/
  | decstream
  deriving DecidableEq, Repr

end Sys2Proof
end

