-- ==== Sys2Proof/WellFormed.lean ====
section
/-! DEFINITION. The operand ranges that depend on the word alone (30_encoding.md R84). The machine itself tests them in
Machine/Operands.lean when the command is run, together with the one range that depends on the state, `PATHOF n` with
`n < N_LIVE`; a command that is not well formed is refused there with `OperandRange`. -/

namespace Sys2Proof

/-- R84: a symbol operand is at most 256, a bit operand at most 1. -/
def Instr.wellFormed : Instr → Bool
  | .treset => true
  | .pathof _ => true
  | .update s => decide (s.toNat ≤ 256)
  | .wrbit b => decide (b.toNat ≤ 1)
  | .wflush => true
  | .rdbit => true
  | .encode s => decide (s.toNat ≤ 256)
  | .encstream => true
  | .decstream => true

end Sys2Proof
end

