-- ==== Sys2Proof/Decode.lean ====
section
/-! DEFINITION. The decoder, total on all 2^16 words, and the encoder (30_encoding.md R80, R83 to R87). The decoder selects the
row and tests the reserved bits; R87's other tests stand where a word is run, in R87's order: the latched fault before
the decoder's (Machine/Port.lean `runWord`), the operand's range after them (R84: "After a row is selected the operand
check applies"; Machine/Ops.lean `guarded`, Machine/Operands.lean). -/

namespace Sys2Proof

/-- Why the decoder rejects a word, on the word alone (R85 to R87). -/
inductive Reject where
  /-- `OPC` is `0x0` or `0xA` to `0xF` (R86). -/
  | illegalOpcode
  /-- `RSV ≠ 00`, or `ARG ≠ 0` on a command without an operand (R85, R84). -/
  | reservedNonzero
  deriving DecidableEq, Repr

/-- `OPC = w[15:12]` (R80). -/
def opcField (w : Word) : BitVec 4 := w.extractLsb' 12 4

/-- `RSV = w[11:10]` (R80). -/
def rsvField (w : Word) : BitVec 2 := w.extractLsb' 10 2

/-- `ARG = w[9:0]` (R80). -/
def argField (w : Word) : Arg := w.extractLsb' 0 10

/-- The row an opcode selects, its operand `ARG` as it stands (R83); none for the illegal opcodes of R86. -/
def selectRow (opc : BitVec 4) (arg : Arg) : Option Instr :=
  match opc.toNat with
  | 0x1 => some .treset
  | 0x2 => some (.pathof arg)
  | 0x3 => some (.update arg)
  | 0x4 => some (.wrbit arg)
  | 0x5 => some .wflush
  | 0x6 => some .rdbit
  | 0x7 => some (.encode arg)
  | 0x8 => some .encstream
  | 0x9 => some .decstream
  | _ => none

/-- R83: the commands whose `ARG` must be 0. -/
def Instr.takesNoOperand : Instr → Bool
  | .treset => true
  | .pathof _ => false
  | .update _ => false
  | .wrbit _ => false
  | .wflush => true
  | .rdbit => true
  | .encode _ => false
  | .encstream => true
  | .decstream => true

/-- R87, the tests on opcode and reserved bits in the order given there: the first that fires decides. -/
def decode (w : Word) : Except Reject Instr :=
  match selectRow (opcField w) (argField w) with
  | none => .error .illegalOpcode
  | some i =>
    if rsvField w ≠ 0 then .error .reservedNonzero
    else if i.takesNoOperand && argField w ≠ 0 then .error .reservedNonzero
    else .ok i

/-- The opcode of a command (R83). -/
def Instr.opcode : Instr → BitVec 4
  | .treset => 0x1
  | .pathof _ => 0x2
  | .update _ => 0x3
  | .wrbit _ => 0x4
  | .wflush => 0x5
  | .rdbit => 0x6
  | .encode _ => 0x7
  | .encstream => 0x8
  | .decstream => 0x9

/-- The `ARG` field of a command; 0 where it has no operand (R83). -/
def Instr.argument : Instr → Arg
  | .treset => 0
  | .pathof n => n
  | .update s => s
  | .wrbit b => b
  | .wflush => 0
  | .rdbit => 0
  | .encode s => s
  | .encstream => 0
  | .decstream => 0

/-- The command word: `OPC`, `RSV` = 00, `ARG` (R80, R83). -/
def encode (i : Instr) : Word := i.opcode ++ (0 : BitVec 2) ++ i.argument

/-- What the decoder reads from a table word: bit 0 is the least significant bit of the one 16-bit command word,
and the bits above `nbits` are 0. None where the decoder rejects the word. -/
def decodeTableWord (nbits w : Nat) : Option Instr :=
  match decode (BitVec.ofNat 16 (w % 2 ^ nbits)) with
  | .ok i => some i
  | .error _ => none

end Sys2Proof
end

