-- ==== Sys2Proof/Machine/State.lean ====
section
/-! DEFINITION. The architectural state of 10_state.md R20, the environment's two streams (20_memory.md R61, R64), the
moves the host has still to make, and the state after hard reset (R49, 70_reset_and_hazards.md R250). -/

namespace Sys2Proof.Machine

open Sys2Proof

/-- One live entry of the node arena (R21, R22). `none` stands for `UNBOUND` in `symbol` and for `NONE` in the
three index fields (00_scope.md R13). A weight is a number; its bound is the fault of R118, never a wrap. -/
structure Node where
  weight : Nat
  symbol : Option Symbol
  order : Nat
  parent : Option Nat
  left : Option Nat
  right : Option Nat
  deriving DecidableEq, Repr

/-- The CodeTree group of R20. -/
structure CodeTree where
  /-- `N[0 .. N_LIVE − 1]`: the live entries only, in index order (R23: a non-live entry holds no value). -/
  nodes : List Node
  /-- `ROOT` (R29). -/
  root : Nat
  /-- `NYT` (R30). -/
  nyt : Nat
  /-- `SYM2LEAF[0 .. 256]` (R31). -/
  sym2leaf : Vector (Option Nat) 257
  /-- `ORD2NODE[0 .. ORDER_MAX]` (R32). -/
  ord2node : List (Option Nat)
  /-- `NEXT_ORDER`, −1 .. `ORDER_MAX` (R33). -/
  nextOrder : Int
  deriving DecidableEq, Repr

/-- `FAULT_CODE`, 2 bits: the four codes of R41. -/
inductive FaultCode where
  | none
  | nodeTableOverflow
  | badLiteral
  | weightOverflow
  deriving DecidableEq, Repr

/-- `STOP_REASON`, 2 bits: the four codes of R42. -/
inductive StopReason where
  | none
  | eot
  | eoiDescent
  | eoiLiteral
  deriving DecidableEq, Repr

/-- What the host may do between commands (60_exceptions.md R238; the directives of 30_encoding.md R91). -/
inductive HostMove where
  /-- Present a command word on CMD (R81). -/
  | command (w : Word)
  /-- Install a byte source, position 0 (R62, `.source`). -/
  | source (bytes : List Byte)
  /-- Start a new empty sink (R238, `.sink`). -/
  | sink
  /-- Assert `RST` (R250). -/
  | hardReset
  /-- Present a command word and assert `RST` while it runs (70_reset_and_hazards.md R251). -/
  | cutCommand (w : Word)
  deriving DecidableEq, Repr

/-- The whole machine: R20, the environment of R61 and R64, and the pending moves of the host. -/
structure State where
  tree : CodeTree
  /-- `W_ACC` (R35). -/
  wAcc : Byte
  /-- `W_CNT`, 0 .. 7 (R36). -/
  wCnt : Fin 8
  /-- `R_ACC` (R37). -/
  rAcc : Byte
  /-- `R_CNT`, 0 .. 8 (R38). -/
  rCnt : Fin 9
  /-- `BUSY` (R39). -/
  busy : Bool
  /-- `FAULT` (R40). -/
  fault : Bool
  /-- `FAULT_CODE` (R41). -/
  faultCode : FaultCode
  /-- `STOP_REASON` (R42). -/
  stopReason : StopReason
  /-- `RSP` (R43). -/
  rsp : Word
  /-- `PATH_LEN` (R44). -/
  pathLen : Nat
  /-- `PATH_BITS`, `MAX_DEPTH` bits, root-most first (R44). -/
  pathBits : List Bool
  /-- The bytes of the source, `src` (R61). -/
  source : List Byte
  /-- The number of bytes pulled, `pos` (R61). -/
  pos : Nat
  /-- The bytes put to the sink, `snk` (R64). -/
  sink : List Byte
  /-- The host's moves not yet made, oldest first: the model's own field (notes/assumptions/1.md). -/
  host : List HostMove
  /-- The number of commands cut short so far: the model's own field, which selects the free values of R251
  (notes/assumptions/5.md). -/
  cuts : Nat
  deriving DecidableEq, Repr

/-- Why the model has no next state: internal preconditions that 93_implementation_defined.md section 3 calls `stuck`.
Every one is SAFE: the model stops where the spec gives no meaning, in states no run from reset reaches. The faults
of the hardware itself (R221) are next states with `FAULT` latched, not these. -/
inductive Fault where
  /-- A rule reads a field of an arena entry that is not live (R23, U20). Raised by `nodeAt`. Safe. -/
  | deadNode
  /-- `side` of a node that is no child of its recorded parent (R17, R192 (c)). Raised by `sideOf`. Safe. -/
  | noSide
  /-- `swap` of a node without a parent (U42). Raised by `swap`. Safe. -/
  | swapOfRoot
  /-- `swap` of two nodes one of which is an ancestor of the other (U41). Raised by `swap`. Safe. -/
  | nestedSwap
  /-- A parent chain longer than `MAX_DEPTH` (U45). Raised by `ancestors` and `pathOf`. Safe. -/
  | pathTooLong
  /-- A walk longer than `MAX_DEPTH + 1` steps (U47, R119). Raised by `walk`. Safe. -/
  | walkTooLong
  /-- A descent step to `NONE` (U43). Raised by `DECSTREAM`. Safe. -/
  | missingChild
  /-- A leaf that is neither the NYT node nor bound to a symbol (R201). Raised by `DECSTREAM`. Safe. -/
  | unboundLeaf
  /-- `DECSTREAM` comes back to the root without consuming a bit (R173, R182). Raised by `DECSTREAM`. Safe. -/
  | decodeStalls
  deriving DecidableEq, Repr

/-- Why an instruction has no meaning. -/
inductive Refusal where
  /-- The instruction of that mnemonic has no meaning yet; raised by an arm of `exec` only. Safe. -/
  | notModelled (mnemonic : String)
  deriving DecidableEq, Repr

/-- The tree after a tree reset: the tree rows of R49. -/
def CodeTree.fresh (c : Config) : CodeTree :=
  { nodes := [{ weight := 0, symbol := none, order := c.orderMax, parent := none, left := none, right := none }]
    root := 0
    nyt := 0
    sym2leaf := Vector.replicate 257 none
    ord2node := (List.replicate c.nodeCap none).set c.orderMax (some 0)
    nextOrder := (c.orderMax : Int) - 1 }

/-- The state after hard reset on an engine of configuration `c`: R49. The streams and the host's moves are the
environment's and are empty here by choice (notes/assumptions/4.md). -/
def State.resetOf (c : Config) : State :=
  { tree := CodeTree.fresh c
    wAcc := 0
    wCnt := 0
    rAcc := 0
    rCnt := 0
    busy := false
    fault := false
    faultCode := .none
    stopReason := .none
    rsp := 0x0000
    pathLen := 0
    pathBits := List.replicate c.maxDepth false
    source := []
    pos := 0
    sink := []
    host := []
    cuts := 0 }

/-- The machine right after hard reset (R49). -/
def State.reset : State := State.resetOf Config.ahte

end Sys2Proof.Machine
end

