-- ==== Sys2Proof/Machine/Flags.lean ====
section
/-! DEFINITION. There are no condition codes (10_state.md R45). The flag-like results are the response word `RSP` and the
codes it carries: 30_encoding.md R88, R89; 10_state.md R41, R42. -/

namespace Sys2Proof.Machine

open Sys2Proof

/-- The status of a response (R88). -/
inductive Status where
  | ok
  | eoi
  | refused
  | fault
  deriving DecidableEq, Repr

/-- The status codes of R88. -/
def Status.code : Status → BitVec 4
  | .ok => 0x0
  | .eoi => 0x1
  | .refused => 0x2
  | .fault => 0x3

/-- Why a command is refused (60_exceptions.md R230). -/
inductive RefuseReason where
  | illegalOpcode
  | reservedNonzero
  | operandRange
  | faultLatched
  deriving DecidableEq, Repr

/-- The reason codes of R88. -/
def RefuseReason.code : RefuseReason → BitVec 10
  | .illegalOpcode => 1
  | .reservedNonzero => 2
  | .operandRange => 3
  | .faultLatched => 4

/-- What the decoder rejects is refused under the same name (R87). -/
def RefuseReason.ofReject : Reject → RefuseReason
  | .illegalOpcode => .illegalOpcode
  | .reservedNonzero => .reservedNonzero

/-- The codes of `FAULT_CODE` (R41). -/
def FaultCode.code : FaultCode → BitVec 10
  | .none => 0
  | .nodeTableOverflow => 1
  | .badLiteral => 2
  | .weightOverflow => 3

/-- The codes of `STOP_REASON` (R42). -/
def StopReason.code : StopReason → BitVec 10
  | .none => 0
  | .eot => 1
  | .eoiDescent => 2
  | .eoiLiteral => 3

/-- A response word: status in [15:12], zero in [11:10], value in [9:0] (R88). -/
def response (status : Status) (value : BitVec 10) : Word := status.code ++ (0 : BitVec 2) ++ value

/-- `RSP[15:12]`. -/
def rspStatus (r : Word) : BitVec 4 := r.extractLsb' 12 4

/-- `RSP[11:10]`. -/
def rspReserved (r : Word) : BitVec 2 := r.extractLsb' 10 2

/-- `RSP[9:0]`. -/
def rspValue (r : Word) : BitVec 10 := r.extractLsb' 0 10

end Sys2Proof.Machine
end

