-- ==== Sys2Proof/Machine/Tree.lean ====
section
/-! DEFINITION. The internal operations of the CodeTree, as functions on the tree alone: tree reset, allocation,
`pathOf`, split, leader, swap, order exchange, walk, `update` (40_codetree.md R101 to R116). An access the rules give
no meaning to is an error with a fault name (93_implementation_defined.md section 3). -/

namespace Sys2Proof.Machine

open Sys2Proof

/-- `N_LIVE`: the arena list holds exactly the live entries (R23). -/
def CodeTree.nLive (t : CodeTree) : Nat := t.nodes.length

/-- `N[i]`, for a live `i` (R17, R23). -/
def nodeAt (t : CodeTree) (i : Nat) : Except Fault Node :=
  match t.nodes[i]? with
  | some n => .ok n
  | none => .error .deadNode

/-- Write fields of `N[i]` (R17); used on live entries only. -/
def CodeTree.modify (t : CodeTree) (i : Nat) (f : Node → Node) : CodeTree :=
  { t with nodes := t.nodes.modify i f }

/-- `allocNode` (R108): the new entry's index and the tree with it. -/
def allocNode (weight : Nat) (symbol : Option Symbol) (parent : Option Nat) (t : CodeTree) : Nat × CodeTree :=
  let i := t.nLive
  let order := t.nextOrder.toNat
  (i,
    { t with
      nodes := t.nodes ++ [{ weight, symbol, order, parent, left := none, right := none }]
      ord2node := t.ord2node.set order (some i)
      nextOrder := t.nextOrder - 1 })

/-- `treeReset` (R101): both tables and the arena cleared, the order counter at its maximum, one node allocated
that is the root and the NYT node. -/
def treeReset (c : Config) : CodeTree :=
  let cleared : CodeTree :=
    { nodes := []
      root := 0
      nyt := 0
      sym2leaf := Vector.replicate 257 none
      ord2node := List.replicate c.nodeCap none
      nextOrder := c.orderMax }
  let (r, t) := allocNode 0 none none cleared
  { t with root := r, nyt := r }

/-- `side(i)` (R17): false for the left child (bit 0), true for the right child (bit 1) of its parent `p`. -/
def sideOf (t : CodeTree) (i p : Nat) : Except Fault Bool := do
  let n ← nodeAt t p
  if n.left = some i then .ok false
  else if n.right = some i then .ok true
  else .error .noSide

/-- The sides met on the way from `i` up to the root, lowest first: the loop of R103, at most `fuel` = `MAX_DEPTH`
steps (U45). -/
def sidesUp (t : CodeTree) : Nat → Nat → Except Fault (List Bool)
  | fuel, i => do
    let n ← nodeAt t i
    match n.parent with
    | none => .ok []
    | some p =>
      match fuel with
      | 0 => .error .pathTooLong
      | fuel + 1 => do
        let b ← sideOf t i p
        let rest ← sidesUp t fuel p
        .ok (b :: rest)

/-- `pathOf(n)` (R103): root-most bit first; left = 0, right = 1. -/
def pathOf (c : Config) (t : CodeTree) (n : Nat) : Except Fault (List Bool) := do
  let s ← sidesUp t c.maxDepth n
  .ok s.reverse

/-- The proper ancestors of `i`, lowest first. -/
def ancestors (t : CodeTree) : Nat → Nat → Except Fault (List Nat)
  | fuel, i => do
    let n ← nodeAt t i
    match n.parent with
    | none => .ok []
    | some p =>
      match fuel with
      | 0 => .error .pathTooLong
      | fuel + 1 => do
        let rest ← ancestors t fuel p
        .ok (p :: rest)

/-- The linear scan of R112 over the entries from index `i` on: `best` is the best candidate so far and `order` its
order. -/
def leaderScan (weight : Nat) : List Node → Nat → Nat → Nat → Nat
  | [], _, best, _ => best
  | n :: rest, i, best, order =>
    if n.weight = weight ∧ n.order > order then leaderScan weight rest (i + 1) i n.order
    else leaderScan weight rest (i + 1) best order

/-- `leader(i)` (R112): the live node of largest order among those of `N[i]`'s weight. -/
def leader (t : CodeTree) (i : Nat) : Except Fault Nat := do
  let n ← nodeAt t i
  .ok (leaderScan n.weight t.nodes 0 i n.order)

/-- `SYM2LEAF[symbol] <- i` where the node carries a symbol (R114). -/
def rebind (symbol : Option Symbol) (i : Nat) (t : CodeTree) : CodeTree :=
  match symbol with
  | none => t
  | some s => { t with sym2leaf := t.sym2leaf.set s.val (some i) s.isLt }

/-- Set one child pointer of a node: the left one for side 0, the right one for side 1. -/
def setChild (b : Bool) (i : Nat) (n : Node) : Node :=
  if b then { n with right := some i } else { n with left := some i }

/-- `N[i].parent <- p`. -/
def setParent (p : Nat) (n : Node) : Node := { n with parent := some p }

/-- `N[i].order <- o`. -/
def setOrder (o : Nat) (n : Node) : Node := { n with order := o }

/-- `N[i].weight <- N[i].weight + 1`. -/
def addWeight (n : Node) : Node := { n with weight := n.weight + 1 }

/-- `N[i].right <- l; N[i].left <- n` (R109). -/
def setChildren (left right : Nat) (n : Node) : Node := { n with left := some left, right := some right }

/-- `swap(p, q)` (R114): the two nodes trade positions with their subtrees; all four of the parents and sides are read
before any write. No meaning is given to a node without a parent (U42) nor to nested nodes (U41). -/
def swap (c : Config) (t : CodeTree) (p q : Nat) : Except Fault CodeTree := do
  let np ← nodeAt t p
  let nq ← nodeAt t q
  match np.parent, nq.parent with
  | some pp, some qp => do
    let above_p ← ancestors t c.maxDepth p
    let above_q ← ancestors t c.maxDepth q
    if q ∈ above_p ∨ p ∈ above_q ∨ p = q then .error .nestedSwap
    else do
      let ps ← sideOf t p pp
      let qs ← sideOf t q qp
      let t := rebind nq.symbol q (rebind np.symbol p t)
      let t := t.modify pp (setChild ps q)
      let t := t.modify qp (setChild qs p)
      let t := t.modify p (setParent qp)
      .ok (t.modify q (setParent pp))
  | _, _ => .error .swapOfRoot

/-- `exchangeOrders(p, q)` (R115). -/
def exchangeOrders (t : CodeTree) (p q : Nat) : Except Fault CodeTree := do
  let np ← nodeAt t p
  let nq ← nodeAt t q
  let t := t.modify p (setOrder nq.order)
  let t := t.modify q (setOrder np.order)
  .ok { t with ord2node := (t.ord2node.set nq.order (some p)).set np.order (some q) }

/-- The first half of a walk step (R107, R113): find the leader; exchange positions and orders with it unless it is
the node itself or its parent or its child. -/
def rebalance (c : Config) (t : CodeTree) (cur : Nat) : Except Fault CodeTree := do
  let q ← leader t cur
  let nc ← nodeAt t cur
  let nq ← nodeAt t q
  if q ≠ cur ∧ nc.parent ≠ some q ∧ nq.parent ≠ some cur then do
    let t ← swap c t cur q
    exchangeOrders t cur q
  else .ok t

/-- `N[cur].weight <- N[cur].weight + 1` (R116). -/
def bump (t : CodeTree) (cur : Nat) : CodeTree :=
  t.modify cur addWeight

/-- The walk (R111): rebalance, increment, advance to the parent as it is now, until the root has been incremented.
`fuel` = `MAX_DEPTH + 1` steps at most (R119, U47). -/
def walk (c : Config) : Nat → CodeTree → Nat → Except Fault CodeTree
  | 0, _, _ => .error .walkTooLong
  | fuel + 1, t, cur => do
    let t ← rebalance c t cur
    let t := bump t cur
    let n ← nodeAt t cur
    match n.parent with
    | none => .ok t
    | some p => walk c fuel t p

/-- How an internal operation ends early: it raises a fault of the hardware, or it has no meaning. -/
inductive Halt where
  /-- `raise Fault(code)` (R228). -/
  | raise (code : FaultCode)
  /-- No meaning: an internal precondition does not hold. -/
  | stuck (f : Fault)
  deriving DecidableEq, Repr

/-- An internal operation as a part of one that may raise a fault. -/
def orStuck {α : Type} : Except Fault α → Except Halt α
  | .ok a => .ok a
  | .error f => .error (.stuck f)

/-- `split(s)` (R109): the former NYT node `x` and the tree in which it has a leaf for `s` on its right and a new NYT
node on its left. Nothing has been written when the arena is full. -/
def split (t : CodeTree) (s : Symbol) : Except Halt (Nat × CodeTree) :=
  if t.nextOrder < 1 then .error (.raise .nodeTableOverflow)
  else do
    let x := t.nyt
    let _ ← orStuck (nodeAt t x)
    let (l, t) := allocNode 1 (some s) (some x) t
    let (n, t) := allocNode 0 none (some x) t
    let t := t.modify x (setChildren n l)
    .ok (x, { t with sym2leaf := t.sym2leaf.set s.val (some l) s.isLt, nyt := n })

/-- The start of the walk (R110): the split node for a new symbol, the symbol's leaf for a bound one. -/
def walkStart (t : CodeTree) (s : Symbol) : Except Halt (Nat × CodeTree) :=
  match t.sym2leaf[s.val] with
  | none => split t s
  | some leaf => .ok (leaf, t)

/-- `update(s)` (R107): the weight test, the start, the walk. Both fault tests come before the first write. -/
def update (c : Config) (t : CodeTree) (s : Symbol) : Except Halt CodeTree := do
  let r ← orStuck (nodeAt t t.root)
  if r.weight = c.weightMax then .error (.raise .weightOverflow)
  else do
    let (cur, t) ← walkStart t s
    orStuck (walk c (c.maxDepth + 1) t cur)

/-- `child(p, b)` (R17). -/
def childOf (t : CodeTree) (p : Nat) (b : Bool) : Except Fault Nat := do
  let n ← nodeAt t p
  match if b then n.right else n.left with
  | some i => .ok i
  | none => .error .missingChild

end Sys2Proof.Machine
end

