-- ==== Sys2Proof/Machine/Operands.lean ====
section
/-! DEFINITION. The operand forms of 30_encoding.md R84: `ARG` as a node index, a symbol, a bit, or no operand.
`none` means the operand is outside the range R84 gives it. -/

namespace Sys2Proof.Machine

open Sys2Proof

/-- The commands without an operand. -/
def noOperand : Option Unit := some ()

/-- `PATHOF n`: a live node, `n < N_LIVE`. -/
def nodeOperand (t : CodeTree) (a : Arg) : Option Nat :=
  if a.toNat < t.nLive then some a.toNat else none

/-- `UPDATE s`, `ENCODE s`: a symbol, `s ≤ 256`. -/
def symbolOperand (a : Arg) : Option Symbol :=
  if h : a.toNat < 257 then some ⟨a.toNat, h⟩ else none

/-- `WRBIT b`: a bit, `b ≤ 1`. -/
def bitOperand (a : Arg) : Option Bool :=
  if a = 0 then some false
  else if a = 1 then some true
  else none

end Sys2Proof.Machine
end

