-- ==== Sys2Proof/Machine/Ops.lean ====
section
/-! DEFINITION. The operations over the state that every command shares: the two byte streams (20_memory.md R62, R65), the
response, refusal, taking a fault and the return from it by hard reset (60_exceptions.md R228 to R231,
70_reset_and_hazards.md R250), and the tests before a command executes (30_encoding.md R87). -/

namespace Sys2Proof.Machine

open Sys2Proof

/-- `SrcNext()` (R62): the next byte and the state with `pos` advanced; none when the source is exhausted. -/
def srcNext (s : State) : Option (Byte × State) :=
  match s.source[s.pos]? with
  | some v => some (v, { s with pos := s.pos + 1 })
  | none => none

/-- `SinkPut(v)` (R65). -/
def sinkPut (v : Byte) (s : State) : State := { s with sink := s.sink ++ [v] }

/-- The tree replaced by what an operation made of it. -/
def setTree (t : CodeTree) (s : State) : State := { s with tree := t }

/-- The command completes: `RSP` written, `BUSY` cleared (R81, R88). -/
def respond (status : Status) (value : BitVec 10) (s : State) : State :=
  { s with rsp := response status value, busy := false }

/-- `refuse(reason)` (R230): `RSP` and nothing else, `BUSY <- 0`. -/
def refuse (reason : RefuseReason) (s : State) : State := respond .refused reason.code s

/-- `raise Fault(code)` (R228), the hardware's one exception entry: `FAULT`, `FAULT_CODE`, `RSP`, `BUSY <- 0`. No state is
saved and control goes nowhere; everything the command did before stays done. -/
def raiseFault (code : FaultCode) (s : State) : State :=
  respond .fault code.code { s with fault := true, faultCode := code }

/-- Hard reset (R250), the only return from a fault (R231). The streams and the host's pending moves are the
environment's and are not touched. -/
def hardReset (c : Config) (s : State) : State :=
  { s with
    tree := treeReset c
    wAcc := 0
    wCnt := 0
    rAcc := 0
    rCnt := 0
    fault := false
    faultCode := .none
    stopReason := .none
    rsp := 0x0000
    pathLen := 0
    pathBits := List.replicate c.maxDepth false
    busy := false }

/-- How an operation inside a command leaves the machine. -/
inductive Flow where
  /-- The command goes on in this state. -/
  | go (s : State)
  /-- The command has ended in this state, its response written: a `return`, or a fault raised (R228: "no later
  statement of it, or of any operation that called into it, executes"). -/
  | ended (s : State)
  /-- No meaning: an internal precondition does not hold. -/
  | stuck (f : Fault)
  deriving DecidableEq, Repr

/-- The statements `k` after the operation `f`, executed only if the command goes on. -/
def Flow.andThen (f : Flow) (k : State → Flow) : Flow :=
  match f with
  | .go s => k s
  | .ended s => .ended s
  | .stuck e => .stuck e

/-- A finished command as the outcome of a step. -/
def Flow.outcome (f : Flow) : Host.Outcome State Fault Refusal :=
  match f with
  | .go s => .next s
  | .ended s => .next s
  | .stuck e => .fault e

/-- The last statement of a command: `RSP <- (OK, value)`. -/
def complete (value : BitVec 10) (s : State) : Flow := .ended (respond .ok value s)

/-- The two tests of R87 that belong to the execution: a latched fault refuses every command, then an operand outside its
range (`none`) is refused; else the body runs on the operand. -/
def guarded {α : Type} (operand : Option α) (body : α → State → Flow) (s : State) :
    Host.Outcome State Fault Refusal :=
  if s.fault then .next (refuse .faultLatched s)
  else
    match operand with
    | none => .next (refuse .operandRange s)
    | some a => (body a s).outcome

end Sys2Proof.Machine
end

