-- ==== Sys2Proof/Machine/BitChannel.lean ====
section
/-! DEFINITION. The BitChannel family: `writeBit`, `flush`, `readBit` and the commands WRBIT, WFLUSH, RDBIT
(41_bitchannel.md R140 to R151). The two sides share no register (R140). -/

namespace Sys2Proof.Machine

open Sys2Proof

/-- A bit as a byte, 0 or 1. -/
def bitByte (b : Bool) : Byte := if b then 1 else 0

/-- `writeBit(b)` (R141): shift left, OR in the bit, count; the eighth bit emits the byte and clears both. -/
def writeBit (b : Bool) (s : State) : State :=
  let acc := (s.wAcc <<< 1) ||| bitByte b
  if h : s.wCnt.val + 1 < 8 then { s with wAcc := acc, wCnt := ⟨s.wCnt.val + 1, h⟩ }
  else { sinkPut acc s with wAcc := 0, wCnt := 0 }

/-- Bits written one after the other, the first of the list first. -/
def writeBits (bits : List Bool) (s : State) : State := bits.foldl (fun s b => writeBit b s) s

/-- `flush()` (R143): pending bits go out at the high end of one byte, zeros below them; nothing pending, nothing
happens. -/
def flush (s : State) : State :=
  if s.wCnt = 0 then s
  else { sinkPut (s.wAcc <<< (8 - s.wCnt.val)) s with wAcc := 0, wCnt := 0 }

/-- The write side cleared (R149). -/
def clearWrite (s : State) : State := { s with wAcc := 0, wCnt := 0 }

/-- The read side cleared (R149). -/
def clearRead (s : State) : State := { s with rAcc := 0, rCnt := 0 }

/-- The first half of `readBit` (R146): one byte is pulled if and only if no bit is held; none at end of input. -/
def refill (s : State) : Option State :=
  if s.rCnt = 0 then
    match srcNext s with
    | none => none
    | some (v, s) => some { s with rAcc := v, rCnt := 8 }
  else some s

/-- `readBit()` (R146): the most significant bit not yet returned, or `none` for `EOI`, which changes nothing. -/
def readBit (s : State) : Option (Bool × State) :=
  match refill s with
  | none => none
  | some s => some (s.rAcc.getLsbD (s.rCnt.val - 1), { s with rCnt := ⟨s.rCnt.val - 1, by omega⟩ })

/-- The statements of `WRBIT b` (R142). -/
def runWrbit (b : Bool) (s : State) : Flow := complete 0 (writeBit b s)

/-- `WRBIT b` (R142). -/
def execWrbit (b : Arg) (s : State) : Host.Outcome State Fault Refusal := guarded (bitOperand b) runWrbit s

/-- The statements of `WFLUSH` (R144). -/
def runWflush (_ : Unit) (s : State) : Flow := complete 0 (flush s)

/-- `WFLUSH` (R144). -/
def execWflush (s : State) : Host.Outcome State Fault Refusal := guarded noOperand runWflush s

/-- The statements of `RDBIT` (R147): the bit, or the status `EOI`. -/
def runRdbit (_ : Unit) (s : State) : Flow :=
  match readBit s with
  | none => .ended (respond .eoi 0 s)
  | some (b, s) => complete (if b then 1 else 0) s

/-- `RDBIT` (R147). -/
def execRdbit (s : State) : Host.Outcome State Fault Refusal := guarded noOperand runRdbit s

end Sys2Proof.Machine
end

