-- ==== Sys2Proof/Machine/CodeTree.lean ====
section
/-! DEFINITION. The CodeTree family: the commands TRESET, PATHOF, UPDATE (40_codetree.md R102, R105, R117). The `run…`
forms are for any configuration; the `exec…` forms are this hardware's. -/

namespace Sys2Proof.Machine

open Sys2Proof

/-- The statements of `TRESET` (R102). -/
def runTreset (c : Config) (_ : Unit) (s : State) : Flow := complete 0 (setTree (treeReset c) s)

/-- `TRESET` (R102). -/
def execTreset (s : State) : Host.Outcome State Fault Refusal := guarded noOperand (runTreset Config.ahte) s

/-- `PATH_BITS[k] <- s[k]` for `k < len(s)`, 0 above (R105). -/
def padPath (c : Config) (bits : List Bool) : List Bool :=
  bits ++ List.replicate (c.maxDepth - bits.length) false

/-- The statements of `PATHOF n` (R105): the tree is only read. -/
def runPathof (c : Config) (n : Nat) (s : State) : Flow :=
  match pathOf c s.tree n with
  | .error f => .stuck f
  | .ok bits =>
    complete (BitVec.ofNat 10 bits.length) { s with pathLen := bits.length, pathBits := padPath c bits }

/-- `PATHOF n` (R105). -/
def execPathof (n : Arg) (s : State) : Host.Outcome State Fault Refusal :=
  guarded (nodeOperand s.tree n) (runPathof Config.ahte) s

/-- `update(s)` as part of a command: the new tree, or a fault raised with everything before it kept (R107, R228). -/
def updateTree (c : Config) (sym : Symbol) (s : State) : Flow :=
  match update c s.tree sym with
  | .ok t => .go (setTree t s)
  | .error (.raise code) => .ended (raiseFault code s)
  | .error (.stuck f) => .stuck f

/-- The statements of `UPDATE s` (R117). -/
def runUpdate (c : Config) (sym : Symbol) (s : State) : Flow := (updateTree c sym s).andThen (complete 0)

/-- `UPDATE s` (R117). -/
def execUpdate (s : Arg) (st : State) : Host.Outcome State Fault Refusal :=
  guarded (symbolOperand s) (runUpdate Config.ahte) st

end Sys2Proof.Machine
end

