-- ==== Sys2Proof/Machine/Codec.lean ====
section
/-! DEFINITION. The Codec family: `encode` and the commands ENCODE, ENCSTREAM, DECSTREAM (42_codec.md R160 to R182). -/

namespace Sys2Proof.Machine

open Sys2Proof

/-- The 9-bit literal of a symbol, bit 8 first (R161, 20_memory.md R68). -/
def literalBits (sym : Symbol) : List Bool := [8, 7, 6, 5, 4, 3, 2, 1, 0].map sym.val.testBit

/-- The code bits of a symbol on the tree as it stands: the path of its leaf, or the NYT path and the literal (R161). -/
def codeBits (c : Config) (t : CodeTree) (sym : Symbol) : Except Fault (List Bool) :=
  match t.sym2leaf[sym.val] with
  | some leaf => pathOf c t leaf
  | none => do
    let path ← pathOf c t t.nyt
    .ok (path ++ literalBits sym)

/-- `encode(s)` (R161): the code computed on the tree before the update, all its bits written, then the update (R162). -/
def encodeSymbol (c : Config) (sym : Symbol) (s : State) : Flow :=
  match codeBits c s.tree sym with
  | .error f => .stuck f
  | .ok bits => updateTree c sym (writeBits bits s)

/-- The statements of `ENCODE s` (R164). -/
def runEncode (c : Config) (sym : Symbol) (s : State) : Flow := (encodeSymbol c sym s).andThen (complete 0)

/-- `ENCODE s` (R164). -/
def execEncode (s : Arg) (st : State) : Host.Outcome State Fault Refusal :=
  guarded (symbolOperand s) (runEncode Config.ahte) st

/-- How many bytes the source still holds. -/
def bytesLeft (s : State) : Nat := s.source.length - s.pos

/-- The byte loop of `ENCSTREAM` (R167), one byte a turn until the source is exhausted. `fuel` is the number of bytes left;
at 0 the source is exhausted. -/
def encodeBytes (c : Config) : Nat → State → Flow
  | 0, s => .go s
  | fuel + 1, s =>
    match srcNext s with
    | none => .go s
    | some (v, s) => (encodeSymbol c (Symbol.ofByte v) s).andThen (encodeBytes c fuel)

/-- The statements of `ENCSTREAM` (R166): tree reset, write side cleared, every source byte, EOT, flush. -/
def runEncstream (c : Config) (_ : Unit) (s : State) : Flow :=
  let s := clearWrite (setTree (treeReset c) s)
  ((encodeBytes c (bytesLeft s) s).andThen (encodeSymbol c Symbol.eot)).andThen fun s => complete 0 (flush s)

/-- `ENCSTREAM` (R166). -/
def execEncstream (s : State) : Host.Outcome State Fault Refusal := guarded noOperand (runEncstream Config.ahte) s

/-- The literal loop of R172 with `n` bits still to read and `lit` assembled: the literal, or `none` at end of input, with
the state either way (the bits read stay consumed, R179). -/
def readLiteral : Nat → Nat → State → Option Nat × State
  | 0, lit, s => (some lit, s)
  | n + 1, lit, s =>
    match readBit s with
    | none => (none, s)
    | some (b, s) => readLiteral n (2 * lit + (if b then 1 else 0)) s

/-- `STOP_REASON` written and answered: a normal end of `DECSTREAM` (R172, R89). -/
def stopDecoding (reason : StopReason) (s : State) : State :=
  respond .ok reason.code { s with stopReason := reason }

/-- How the leaf under the cursor resolves (R172, R175, R176). -/
inductive Resolved where
  /-- A symbol, and the state after its literal bits (if any) have been read. -/
  | symbol (sym : Symbol) (s : State)
  /-- The command has ended in this state. -/
  | ended (s : State)
  /-- No meaning: a leaf without a symbol that is not the NYT node. -/
  | stuck (f : Fault)
  deriving DecidableEq, Repr

/-- A leaf resolved: at the NYT node a 9-bit literal, with end of input tested before the range of the literal (R232);
at a symbol leaf its symbol. -/
def resolveLeaf (dcur : Nat) (n : Node) (s : State) : Resolved :=
  if dcur = s.tree.nyt then
    match readLiteral 9 0 s with
    | (none, s) => .ended (stopDecoding .eoiLiteral s)
    | (some lit, s) =>
      if h : lit < 257 then .symbol ⟨lit, h⟩ s
      else .ended (raiseFault .badLiteral s)
  else
    match n.symbol with
    | some sym => .symbol sym s
    | none => .stuck .unboundLeaf

/-- A symbol resolved: EOT stops the command without an update; any other symbol is put to the sink as a byte and then
the tree is updated (R177, R178). -/
def emitSymbol (c : Config) (sym : Symbol) (s : State) : Flow :=
  if sym = Symbol.eot then .ended (stopDecoding .eot s)
  else updateTree c sym (sinkPut (BitVec.ofNat 8 sym.val) s)

/-- The loop of `DECSTREAM` (R172) with the cursor at `dcur`; the leaf test comes before a bit is consumed (R173). -/
def decodeLoop (c : Config) : Nat → Nat → State → Flow
  | 0, _, _ => .stuck .decodeStalls
  | fuel + 1, dcur, s =>
    match nodeAt s.tree dcur with
    | .error f => .stuck f
    | .ok n =>
      if n.left = none then
        match resolveLeaf dcur n s with
        | .stuck f => .stuck f
        | .ended s => .ended s
        | .symbol sym s => (emitSymbol c sym s).andThen fun s => decodeLoop c fuel s.tree.root s
      else
        match readBit s with
        | none => .ended (stopDecoding .eoiDescent s)
        | some (b, s) =>
          match childOf s.tree dcur b with
          | .error f => .stuck f
          | .ok d => decodeLoop c fuel d s

/-- How many bits the read side can still deliver. -/
def bitsLeft (s : State) : Nat := s.rCnt.val + 8 * bytesLeft s

/-- The turns `decodeLoop` may need: one for each bit and one for each leaf reached, of which each but the first two has
consumed a bit (R173, R182). -/
def decodeFuel (s : State) : Nat := 2 * bitsLeft s + 2

/-- The statements of `DECSTREAM` (R172). -/
def runDecstream (c : Config) (_ : Unit) (s : State) : Flow :=
  let s := clearRead (setTree (treeReset c) s)
  let s := { s with stopReason := .none }
  decodeLoop c (decodeFuel s) s.tree.root s

/-- `DECSTREAM` (R172). -/
def execDecstream (s : State) : Host.Outcome State Fault Refusal := guarded noOperand (runDecstream Config.ahte) s

end Sys2Proof.Machine
end

