-- ==== Sys2Proof/Machine/Dispatch.lean ====
section
/-! DEFINITION. One arm per constructor of Instr: the meaning of every command. -/

namespace Sys2Proof.Machine

def exec (i : Instr) (s : State) : Host.Outcome State Fault Refusal :=
  match i with
  | .treset => Sys2Proof.Machine.execTreset s
  | .pathof n => Sys2Proof.Machine.execPathof n s
  | .update a => Sys2Proof.Machine.execUpdate a s
  | .wrbit b => Sys2Proof.Machine.execWrbit b s
  | .wflush => Sys2Proof.Machine.execWflush s
  | .rdbit => Sys2Proof.Machine.execRdbit s
  | .encode a => Sys2Proof.Machine.execEncode a s
  | .encstream => Sys2Proof.Machine.execEncstream s
  | .decstream => Sys2Proof.Machine.execDecstream s

end Sys2Proof.Machine
end

