-- ==== Sys2Proof/Machine/Port.lean ====
section
/-! DEFINITION. The host's side of the machine: what one move of the host does (00_scope.md R15, 30_encoding.md R81,
60_exceptions.md R238). -/

namespace Sys2Proof.Machine

open Sys2Proof

/-- A command word is accepted: `BUSY` set (R81). -/
def acceptWord (s : State) : State := { s with busy := true }

/-- A word accepted by the engine (R87): a word that decodes is executed, and `exec` refuses it while a fault is latched or
when its operand is out of range; one that does not decode is refused, with `FaultLatched` before every other reason. -/
def runWord (w : Word) (s : State) : Host.Outcome State Fault Refusal :=
  match decode w with
  | .ok i => exec i s
  | .error r => .next (refuse (if s.fault then .faultLatched else RefuseReason.ofReject r) s)

/-- A new source, position 0 (R62, R91). -/
def installSource (bytes : List Byte) (s : State) : State := { s with source := bytes, pos := 0 }

/-- A new empty sink (R91, R238). -/
def newSink (s : State) : State := { s with sink := [] }

/-- The oldest move is taken off the list of the host's moves. -/
def popMove (rest : List HostMove) (s : State) : State := { s with host := rest }

/-- Hard reset while a command runs (R251): the registers are those of R250; what the command had pulled and put stays so, and
how much of what it would have pulled and put that is, is free. `s` is the state at the command's start, `t` the state it
would have ended in. -/
def cutShort (s t : State) : State :=
  { hardReset Config.ahte s with
    pos := s.pos + Config.freeCut (2 * s.cuts) % (t.pos - s.pos + 1)
    sink := s.sink ++ (t.sink.drop s.sink.length).take (Config.freeCut (2 * s.cuts + 1))
    cuts := s.cuts + 1 }

/-- A command word, and hard reset while it runs. -/
def runCut (w : Word) (s : State) : Host.Outcome State Fault Refusal :=
  match runWord w (acceptWord s) with
  | .next t => .next (cutShort s t)
  | .fault f => .fault f
  | .refused r => .refused r

/-- One step: the host's oldest move. With no move pending the engine is idle (R237). A word presented while `BUSY = 1` is not
accepted and has no effect; the model's host holds it (R81), and a host that keeps its source and sink while a command
runs (R238) holds those moves too. Hard reset is possible at any time (R238). -/
def serveMove (s : State) : Host.Outcome State Fault Refusal :=
  match s.host with
  | [] => .next s
  | .hardReset :: rest => .next (hardReset Config.ahte (popMove rest s))
  | .command w :: rest => if s.busy then .next s else runWord w (acceptWord (popMove rest s))
  | .source bytes :: rest => if s.busy then .next s else .next (installSource bytes (popMove rest s))
  | .sink :: rest => if s.busy then .next s else .next (newSink (popMove rest s))
  | .cutCommand w :: rest => if s.busy then .next s else runCut w (popMove rest s)

/-- The word the host presents next, put before its other moves; a word is presented when `BUSY = 0`. -/
def presentWord (w : Word) (s : State) : State := { s with host := .command w :: s.host, busy := false }

end Sys2Proof.Machine
end

