-- ==== Sys2Proof/Machine/Step.lean ====
section
/-! DEFINITION. One step of the machine, and the placing of the command word that the next step runs. -/

namespace Sys2Proof.Machine

open Sys2Proof

/-- One step: the oldest move of the host (00_scope.md R6, 30_encoding.md R81). -/
def step (s : State) : Host.Outcome State Fault Refusal := serveMove s

/-- `s` with the command word `w` presented next, so that the next step accepts and runs exactly it. -/
def State.withFetchWord (s : State) (nbits w : Nat) : State := presentWord (BitVec.ofNat 16 (w % 2 ^ nbits)) s

end Sys2Proof.Machine
end

