-- ==== Sys2Proof/Safety.lean ====
section
/-! DEFINITION. The terms claims are stated in: the invariants of 44_invariants_and_properties.md and of the registers
between commands (10_state.md), and what a safe step is. Nothing here is part of the machine. -/

namespace Sys2Proof.Machine

open Sys2Proof

/-- `N[i]` as a total function, for statements only; every statement that uses it says that `i` is live. -/
def CodeTree.N (t : CodeTree) (i : Nat) : Node :=
  t.nodes.getD i { weight := 0, symbol := none, order := 0, parent := none, left := none, right := none }

/-- The shape of the tree and of the tables, which also holds between two steps of one walk. -/
structure TreeShape (c : Config) (t : CodeTree) : Prop where
  /-- R29, R194: `ROOT = 0`. -/
  root_zero : t.root = 0
  /-- R23: `N_LIVE` is odd. -/
  odd : t.nLive % 2 = 1
  /-- R21: the arena has `NODE_CAP` entries. -/
  cap : t.nLive ≤ c.nodeCap
  /-- R23, R33: `N_LIVE = ORDER_MAX − NEXT_ORDER`. -/
  next : t.nextOrder = (c.orderMax : Int) - t.nLive
  /-- R30, R191: `NYT = 2k` with `N_LIVE = 2k + 1`. -/
  nyt_last : t.nyt + 1 = t.nLive
  /-- R32: one entry of `ORD2NODE` for every order. -/
  ord2node_length : t.ord2node.length = c.nodeCap
  /-- R194: the root holds the largest order. -/
  root_order : (t.N 0).order = c.orderMax
  /-- R192 (a): exactly the root has no parent. -/
  parent_none : ∀ i, i < t.nLive → ((t.N i).parent = none ↔ i = 0)
  /-- R24: two children or none. -/
  two_or_none : ∀ i, i < t.nLive → ((t.N i).left = none ↔ (t.N i).right = none)
  /-- R192 (b). -/
  left_child : ∀ i, i < t.nLive → ∀ l, (t.N i).left = some l → l < t.nLive ∧ (t.N l).parent = some i
  /-- R192 (b). -/
  right_child : ∀ i, i < t.nLive → ∀ r, (t.N i).right = some r → r < t.nLive ∧ (t.N r).parent = some i
  /-- R192 (c). -/
  child_of_parent : ∀ i, i < t.nLive → ∀ p, (t.N i).parent = some p →
    p < t.nLive ∧ ((t.N p).left = some i ∨ (t.N p).right = some i)
  /-- R197: siblings hold consecutive orders, the right child the larger. -/
  siblings : ∀ i, i < t.nLive → ∀ l r, (t.N i).left = some l → (t.N i).right = some r →
    (t.N r).order = (t.N l).order + 1
  /-- R197: a left child's order has the parity of `ORDER_MAX`. -/
  left_parity : ∀ i, i < t.nLive → ∀ l, (t.N i).left = some l → (t.N l).order % 2 = c.orderMax % 2
  /-- R197: a parent's order exceeds its children's. -/
  parent_order : ∀ i, i < t.nLive → ∀ r, (t.N i).right = some r → (t.N r).order < (t.N i).order
  /-- R193: the orders in use are `NEXT_ORDER + 1 .. ORDER_MAX`. -/
  order_range : ∀ i, i < t.nLive → t.nextOrder < (t.N i).order ∧ (t.N i).order ≤ c.orderMax
  /-- R193: orders are pairwise distinct. -/
  order_distinct : ∀ i j, i < t.nLive → j < t.nLive → (t.N i).order = (t.N j).order → i = j
  /-- R193: every order above `NEXT_ORDER` is in use. -/
  order_used : ∀ o : Nat, t.nextOrder < o → o ≤ c.orderMax → ∃ i, i < t.nLive ∧ (t.N i).order = o
  /-- R32, R193: `ORD2NODE[o] = i` exactly when the live node `i` holds the order `o`. -/
  ord2node_iff : ∀ (o i : Nat), t.ord2node[o]? = some (some i) ↔ i < t.nLive ∧ (t.N i).order = o
  /-- R32, R193: `ORD2NODE[o] = NONE` for `o ≤ NEXT_ORDER`. -/
  ord2node_free : ∀ o : Nat, (o : Int) ≤ t.nextOrder → t.ord2node[o]? = some none
  /-- R201: the NYT node is a leaf. -/
  nyt_leaf : (t.N t.nyt).left = none
  /-- R201: it carries the unbound marker. -/
  nyt_unbound : (t.N t.nyt).symbol = none
  /-- R201: it holds the smallest order, `NEXT_ORDER + 1`. -/
  nyt_order : ((t.N t.nyt).order : Int) = t.nextOrder + 1
  /-- R202: the NYT node is a left child whose parent holds the next order but one. -/
  bottom : ∀ p, (t.N t.nyt).parent = some p →
    (t.N p).left = some t.nyt ∧ (t.N p).order = (t.N t.nyt).order + 2
  /-- R201: a leaf other than the NYT node is bound to a symbol. -/
  leaf_bound : ∀ i, i < t.nLive → (t.N i).left = none → i ≠ t.nyt → (t.N i).symbol ≠ none
  /-- R26: an internal node carries the unbound marker. -/
  internal_unbound : ∀ i, i < t.nLive → (t.N i).left ≠ none → (t.N i).symbol = none
  /-- R31: `SYM2LEAF[s] = i` exactly when `i` is a live leaf bound to `s`. -/
  sym2leaf_iff : ∀ (s : Symbol) (i : Nat), t.sym2leaf[s.val] = some i ↔
    i < t.nLive ∧ (t.N i).left = none ∧ (t.N i).symbol = some s

/-- The shape with the weights the rules promise at the end of a walk, whatever their range: R195, R198. -/
structure WeightedTree (c : Config) (t : CodeTree) : Prop extends TreeShape c t where
  /-- R195: the NYT node has weight 0. -/
  nyt_weight : (t.N t.nyt).weight = 0
  /-- R195: it is the only live node of weight 0. -/
  zero_weight : ∀ i, i < t.nLive → (t.N i).weight = 0 → i = t.nyt
  /-- R195: an internal node's weight is the sum of its children's. -/
  weight_sum : ∀ i, i < t.nLive → ∀ l r, (t.N i).left = some l → (t.N i).right = some r →
    (t.N i).weight = (t.N l).weight + (t.N r).weight
  /-- R198, the sibling property: a larger order never has a smaller weight. -/
  sibling_property : ∀ i j, i < t.nLive → j < t.nLive → (t.N j).order < (t.N i).order →
    (t.N j).weight ≤ (t.N i).weight

/-- The invariants of the tree between commands: R191 to R195, R197, R198, R201, R202, with R22 to R26, R31 to R33. -/
structure TreeInv (c : Config) (t : CodeTree) : Prop extends WeightedTree c t where
  /-- R22, R118: a weight fits in `WEIGHT_BITS` bits. -/
  weight_range : ∀ i, i < t.nLive → (t.N i).weight ≤ c.weightMax

/-- The BitChannel between commands: R35 (the upper `8 − W_CNT` bits of `W_ACC` are zero), R38 (`R_CNT` is 0 .. 7). -/
structure BitsInv (s : State) : Prop where
  wAcc_low : s.wAcc.toNat < 2 ^ s.wCnt.val
  rCnt_le : s.rCnt.val ≤ 7

/-- The status group between commands: R39, R40, R41, R43, R44, R88. -/
structure StatusInv (c : Config) (s : State) : Prop where
  /-- R39: the engine is idle between commands. -/
  idle : s.busy = false
  /-- R40, R41: `FAULT` is set exactly when `FAULT_CODE` is not 0. -/
  fault_code : s.fault = true ↔ s.faultCode ≠ .none
  /-- R88: `RSP[11:10]` = 00. -/
  rsp_reserved : rspReserved s.rsp = 0
  /-- R88: status codes 0x4 to 0xF are never produced. -/
  rsp_status : (rspStatus s.rsp).toNat ≤ 3
  /-- R44: `PATH_BITS` has `MAX_DEPTH` bits. -/
  path_width : s.pathBits.length = c.maxDepth
  /-- R44: `PATH_LEN` is 0 .. `MAX_DEPTH`. -/
  path_len : s.pathLen ≤ c.maxDepth
  /-- R44: `PATH_BITS[k] = 0` for `k ≥ PATH_LEN`. -/
  path_zero : ∀ k, s.pathLen ≤ k → k < c.maxDepth → s.pathBits[k]? = some false

/-- The source: R61 (`0 ≤ pos ≤ len(src)`). -/
abbrev SourceInv (s : State) : Prop := s.pos ≤ s.source.length

/-- Everything the rules promise between commands. -/
structure MachineInv (c : Config) (s : State) : Prop where
  tree : TreeInv c s.tree
  bits : BitsInv s
  status : StatusInv c s
  source : SourceInv s

/-- A safe step has a next state: it meets none of the `stuck` cases of 93_implementation_defined.md and needs no refusal. -/
def SafeStep (s : State) : Prop := ∃ t, step s = .next t

/-- `s` has a leaf (R31). -/
abbrev CodeTree.Bound (t : CodeTree) (s : Symbol) : Prop := t.sym2leaf[s.val] ≠ none

/-- `update` has room: the symbol is bound or two arena entries are free, and the root's weight is not at its maximum (R107,
R109, R221). -/
abbrev CodeTree.HasRoom (c : Config) (t : CodeTree) (s : Symbol) : Prop :=
  (t.N t.root).weight ≠ c.weightMax ∧ (t.Bound s ∨ 1 ≤ t.nextOrder)

/-- `k`: the number of symbols that have a leaf (R191). -/
def CodeTree.boundCount (t : CodeTree) : Nat := (List.finRange 257).countP fun s => t.sym2leaf[s.val].isSome

/-- Following a path down with `child` from the node `i` (R104 (c)); none where a step meets `NONE`. -/
def descend (t : CodeTree) (i : Nat) : List Bool → Option Nat
  | [] => some i
  | b :: rest =>
    match if b then (t.N i).right else (t.N i).left with
    | none => none
    | some j => descend t j rest

/-- R199 (a) to (f) and its consequence, of the node `cur` of a walk step and its leader `q`. -/
structure LeaderIsSafe (t : CodeTree) (cur q : Nat) : Prop where
  live : q < t.nLive
  /-- (a) -/
  order_le : (t.N cur).order ≤ (t.N q).order
  /-- (a) -/
  order_eq : (t.N q).order = (t.N cur).order → q = cur
  /-- (b) The leader is never below the node. -/
  not_below : ∀ bits, bits ≠ [] → descend t cur bits ≠ some q
  /-- (b) The third conjunct of R113's guard. -/
  not_child : (t.N q).parent ≠ some cur
  /-- (c) A leader above the node is its parent. -/
  above_is_parent : ∀ bits, bits ≠ [] → descend t q bits = some cur → (t.N cur).parent = some q
  /-- (d) When the leader is the parent `p`; the children of `p` are the node and its sibling `s`. -/
  parent_leads : ∀ p s, (t.N cur).parent = some p → s ≠ cur → ((t.N p).left = some s ∨ (t.N p).right = some s) →
    (q = p ↔ (t.N s).weight = 0 ∧
      ∀ i, i < t.nLive → (t.N i).weight = (t.N cur).weight → (t.N i).order ≤ (t.N p).order)
  /-- (e) -/
  root_leads_itself : cur = t.root → q = cur
  /-- (f) -/
  led_by_root : q = t.root → cur ≠ t.root → (t.N cur).parent = some t.root
  /-- Whenever `swap` is called its two operands are different, both have parents, and neither is above the other. -/
  swap_defined : q ≠ cur → (t.N cur).parent ≠ some q →
    (t.N cur).parent ≠ none ∧ (t.N q).parent ≠ none ∧
    (∀ bits, descend t cur bits ≠ some q) ∧ (∀ bits, descend t q bits ≠ some cur)

/-- `OnWalk c sym t t' cur`: a step of the walk of `update(sym)` on the tree `t` begins at the node `cur` of the tree `t'` (R110,
R111). -/
inductive OnWalk (c : Config) (sym : Symbol) (t : CodeTree) : CodeTree → Nat → Prop where
  | start {t1 : CodeTree} {cur : Nat} (h : walkStart t sym = .ok (cur, t1)) : OnWalk c sym t t1 cur
  | next {t1 t2 : CodeTree} {cur p : Nat} (h : OnWalk c sym t t1 cur) (hreb : rebalance c t1 cur = .ok t2)
      (hp : (t2.N cur).parent = some p) : OnWalk c sym t (bump t2 cur) p

/-- The bits of a byte, most significant first (20_memory.md R67). -/
def byteBits (v : Byte) : List Bool := [7, 6, 5, 4, 3, 2, 1, 0].map v.getLsbD

/-- The low `n` bits of a byte, most significant first. -/
def lowBits (v : Byte) : Nat → List Bool
  | 0 => []
  | n + 1 => v.getLsbD n :: lowBits v n

/-- Every bit given to the write side since the sink was new: those emitted and those still held (R35, R145). -/
def bitsOut (s : State) : List Bool := s.sink.flatMap byteBits ++ lowBits s.wAcc s.wCnt.val

/-- Every bit the read side can still deliver: those held, then those of the bytes not yet pulled (R37, R148). -/
def bitsIn (s : State) : List Bool :=
  lowBits s.rAcc s.rCnt.val ++ (s.source.drop s.pos).flatMap byteBits

/-- `bits` is a unit for the symbol `sym` on the tree `t` (20_memory.md R69): the path of the symbol's leaf, or the NYT path and
a literal; a decoder accepts an escape of a bound symbol too (42_codec.md R180 (d)). -/
def IsUnit (c : Config) (t : CodeTree) (sym : Symbol) (bits : List Bool) : Prop :=
  (∃ leaf, t.sym2leaf[sym.val] = some leaf ∧ pathOf c t leaf = .ok bits) ∨
  ∃ path, pathOf c t t.nyt = .ok path ∧ bits = path ++ literalBits sym

/-- `bits` is a sequence of units for the symbols `syms`, the first on the tree `t`, each other on the tree updated with the
symbols before it; `t'` is the tree after the last update (42_codec.md R171, R178). -/
def Reads (c : Config) : CodeTree → List Symbol → List Bool → CodeTree → Prop
  | t, [], bits, t' => bits = [] ∧ t' = t
  | t, sym :: syms, bits, t' => ∃ unit more t1, IsUnit c t sym unit ∧ update c t sym = .ok t1 ∧
      Reads c t1 syms more t' ∧ bits = unit ++ more

/-- The same with the one unit the encoder takes for each symbol (42_codec.md R161, R162). -/
def Writes (c : Config) : CodeTree → List Symbol → List Bool → CodeTree → Prop
  | t, [], bits, t' => bits = [] ∧ t' = t
  | t, sym :: syms, bits, t' => ∃ unit more t1, codeBits c t sym = .ok unit ∧ update c t sym = .ok t1 ∧
      Writes c t1 syms more t' ∧ bits = unit ++ more

/-- The number of different byte values in a byte sequence (R205). -/
def distinctBytes (bytes : List Byte) : Nat := bytes.dedup.length

end Sys2Proof.Machine
end

