-- ==== Sys2Proof/Certificates/Slice0/Obligations.lean ====
section
/-! DEFINITION. The statements for the provers. `State.reset.tree` is the one-node tree of 10_state.md R49; `Config.ahte` is this
hardware; a frame is said as a record update of the state before: what it does not name is unchanged. -/

open Sys2Proof Sys2Proof.Machine

/-! ### Words -/

/-- R80, R83: the decoder gives back every command from its word, every operand included. -/
def Obligations.DecodeInvertsEncode : Prop := ∀ i : Instr, decode (encode i) = .ok i

/-- R80, R83, R85: a word that decodes is the word of what it decodes to, so that no bit of it is ignored. -/
def Obligations.EncodeInvertsDecode : Prop := ∀ (w : Word) (i : Instr), decode w = .ok i → encode i = w

/-- R92, row by row: the command words decode to their commands; the illegal words, presented to an engine without a fault, are
refused with the `RSP` of the table and nothing else changed (R230). That a word is presented with `withFetchWord` is the
model's choice (notes/assumptions/1.md). -/
def Obligations.WorkedEncodings : Prop :=
  decode 0b0001000000000000#16 = .ok .treset ∧
  decode 0b0010000000000100#16 = .ok (.pathof 4) ∧
  decode 0b0011000001000001#16 = .ok (.update 65) ∧
  decode 0b0011000100000000#16 = .ok (.update 256) ∧
  decode 0b0100000000000001#16 = .ok (.wrbit 1) ∧
  decode 0b0101000000000000#16 = .ok .wflush ∧
  decode 0b0110000000000000#16 = .ok .rdbit ∧
  decode 0b0111000001000010#16 = .ok (.encode 66) ∧
  decode 0b0111000100000000#16 = .ok (.encode 256) ∧
  decode 0b1000000000000000#16 = .ok .encstream ∧
  decode 0b1001000000000000#16 = .ok .decstream ∧
  ∀ s : State, s.fault = false →
    step (s.withFetchWord 16 0x0000) = .next { s with rsp := 0x2001, busy := false } ∧
    step (s.withFetchWord 16 0x3101) = .next { s with rsp := 0x2003, busy := false } ∧
    step (s.withFetchWord 16 0x1400) = .next { s with rsp := 0x2002, busy := false } ∧
    step (s.withFetchWord 16 0x5001) = .next { s with rsp := 0x2002, busy := false } ∧
    step (s.withFetchWord 16 0x4002) = .next { s with rsp := 0x2003, busy := false }

/-- R87: the tests of a word presented to an idle engine, in their order, on the numbers `opc`, `rsv`, `arg` of the word; the
first that fires refuses with `RSP` alone written, and if none fires the command of that opcode and operand is executed. -/
def Obligations.WordsAreTestedInOrder : Prop :=
  ∀ (s : State) (w : Word) (rest : List HostMove), s.host = .command w :: rest → s.busy = false →
    let opc := w.toNat / 4096
    let rsv := w.toNat / 1024 % 4
    let arg := w.toNat % 1024
    let refusedWith := fun reason : Nat =>
      step s = .next { s with host := rest, rsp := BitVec.ofNat 16 (0x2000 + reason), busy := false }
    if s.fault = true then refusedWith 4
    else if opc = 0 ∨ 10 ≤ opc then refusedWith 1
    else if rsv ≠ 0 then refusedWith 2
    else if (opc = 1 ∨ opc = 5 ∨ opc = 6 ∨ opc = 8 ∨ opc = 9) ∧ arg ≠ 0 then refusedWith 2
    else if opc = 2 ∧ s.tree.nLive ≤ arg then refusedWith 3
    else if (opc = 3 ∨ opc = 7) ∧ 256 < arg then refusedWith 3
    else if opc = 4 ∧ 1 < arg then refusedWith 3
    else ∃ i : Instr, i.opcode.toNat = opc ∧ i.argument.toNat = arg ∧
      step s = exec i { s with host := rest, busy := true }

/-- R81: a step with a word pending that decodes is the execution of that command, `BUSY` set, the word taken off the host's
list. -/
def Obligations.StepRunsTheDecodedWord : Prop :=
  ∀ (s : State) (w : Word) (rest : List HostMove) (i : Instr), s.host = .command w :: rest → s.busy = false →
    decode w = .ok i → step s = exec i { s with host := rest, busy := true }

/-- The model's own interface (notes/assumptions/1.md): a word placed with `withFetchWord` is run by the very next step. -/
def Obligations.PlacedWordRunsNext : Prop :=
  ∀ (s : State) (w : Nat) (i : Instr), decodeTableWord 16 w = some i →
    step (s.withFetchWord 16 w) = exec i { s with busy := true }

/-- R62, R91, R237, R238: the host's other moves on an idle engine: no move changes nothing, a source is installed at position 0,
a sink starts empty; nothing else changes. That they are steps is the model's choice (notes/assumptions/1.md, 6.md, 18.md). -/
def Obligations.HostMovesOnStreams : Prop :=
  (∀ s : State, s.host = [] → step s = .next s) ∧
  (∀ (s : State) (bytes : List Byte) (rest : List HostMove), s.host = .source bytes :: rest → s.busy = false →
    step s = .next { s with source := bytes, pos := 0, host := rest }) ∧
  (∀ (s : State) (rest : List HostMove), s.host = .sink :: rest → s.busy = false →
    step s = .next { s with sink := [], host := rest })

/-! ### Refusals, faults, reset -/

/-- R84: an operand outside its range refuses the command, with `RSP` alone written (R230). -/
def Obligations.OperandsOutOfRangeAreRefused : Prop :=
  ∀ (s : State) (a : Arg), s.fault = false →
    (s.tree.nLive ≤ a.toNat → exec (.pathof a) s = .next { s with rsp := 0x2003, busy := false }) ∧
    (256 < a.toNat → exec (.update a) s = .next { s with rsp := 0x2003, busy := false }) ∧
    (256 < a.toNat → exec (.encode a) s = .next { s with rsp := 0x2003, busy := false }) ∧
    (1 < a.toNat → exec (.wrbit a) s = .next { s with rsp := 0x2003, busy := false })

/-- R231: while `FAULT = 1` every word, legal or not, is refused with `FaultLatched`, the registers keep their values, and no step
clears `FAULT` but hard reset, which clears it and `FAULT_CODE` with everything else. The model's choice, not R231's: the host's
other moves stay pending after hard reset (notes/assumptions/17.md); a hard reset during a word is a step of its own, and hard
reset between words keeps `cuts` (notes/assumptions/5.md). -/
def Obligations.OnlyHardResetLeavesAFault : Prop :=
  ∀ s : State, s.fault = true →
    (∀ i : Instr, exec i s = .next { s with rsp := 0x2004, busy := false }) ∧
    (∀ (w : Word) (rest : List HostMove), s.host = .command w :: rest → s.busy = false →
      step s = .next { s with host := rest, rsp := 0x2004, busy := false }) ∧
    (∀ s', step s = .next s' → s'.fault = false →
      ∃ rest, s.host = .hardReset :: rest ∨ ∃ w, s.host = .cutCommand w :: rest) ∧
    (∀ rest, s.host = .hardReset :: rest →
      step s = .next { State.reset with source := s.source, pos := s.pos, sink := s.sink, host := rest, cuts := s.cuts }) ∧
    State.reset.fault = false ∧ State.reset.faultCode = .none

/-- R250, R49: hard reset puts every register at its reset value, at any time, and touches neither the source nor the sink. The
model's choice, not R250's: the host's other moves stay pending (notes/assumptions/17.md) and `cuts` is kept
(notes/assumptions/5.md). -/
def Obligations.HardResetResult : Prop :=
  ∀ (s : State) (rest : List HostMove), s.host = .hardReset :: rest →
    step s = .next { State.reset with source := s.source, pos := s.pos, sink := s.sink, host := rest, cuts := s.cuts }

/-- R251: hard reset while a command runs, whatever the word: every register is at its reset value; the position lies between that
before the command and that the command would have reached, and the sink has a beginning of what it would have put. The model's
choice, not R251's: that such a reset is a step of its own, how far the command had got being a free value and `cuts` advancing
(notes/assumptions/5.md), and that the host's other moves stay pending (notes/assumptions/17.md). -/
def Obligations.CutCommandResult : Prop :=
  ∀ (s t : State) (w : Word) (rest : List HostMove), s.host = .cutCommand w :: rest → s.busy = false →
    step { s with host := .command w :: rest } = .next t →
    ∃ (p : Nat) (bytes : List Byte), s.pos ≤ p ∧ p ≤ t.pos ∧ s.sink ++ bytes <+: t.sink ∧
      step s = .next { State.reset with source := s.source, pos := p, sink := s.sink ++ bytes, host := rest,
                                        cuts := s.cuts + 1 }

/-- R49, the column of hard reset, register by register. -/
def Obligations.ResetValues : Prop :=
  State.reset.tree.nodes =
    [{ weight := 0, symbol := none, order := 512, parent := none, left := none, right := none }] ∧
  State.reset.tree.root = 0 ∧ State.reset.tree.nyt = 0 ∧
  (∀ sym : Symbol, State.reset.tree.sym2leaf[sym.val] = none) ∧
  State.reset.tree.ord2node.length = 513 ∧
  State.reset.tree.ord2node[512]? = some (some 0) ∧
  (∀ o, o < 512 → State.reset.tree.ord2node[o]? = some none) ∧
  State.reset.tree.nextOrder = 511 ∧
  State.reset.wAcc = 0 ∧ State.reset.wCnt = 0 ∧ State.reset.rAcc = 0 ∧ State.reset.rCnt = 0 ∧
  State.reset.busy = false ∧ State.reset.fault = false ∧ State.reset.faultCode = .none ∧
  State.reset.stopReason = .none ∧ State.reset.rsp = 0x0000 ∧
  State.reset.pathLen = 0 ∧ State.reset.pathBits = List.replicate 256 false

/-- R221, R228, 42_codec.md R180 (f): what a step that sets `FAULT` was: a command of the ones the table names for the code, the code
recorded in `FAULT_CODE` and answered in `RSP`, the engine idle again. -/
def Obligations.WhoRaisesWhichFault : Prop :=
  ∀ s s' : State, s.fault = false → step s = .next s' → s'.fault = true →
    ∃ (w : Word) (rest : List HostMove) (i : Instr), s.host = .command w :: rest ∧ decode w = .ok i ∧
      s'.host = rest ∧ s'.busy = false ∧
      ((s'.faultCode = .nodeTableOverflow ∧ s'.rsp = 0x3001 ∧
          ((∃ a, i = .update a) ∨ (∃ a, i = .encode a) ∨ i = .encstream)) ∨
       (s'.faultCode = .badLiteral ∧ s'.rsp = 0x3002 ∧ i = .decstream) ∨
       (s'.faultCode = .weightOverflow ∧ s'.rsp = 0x3003 ∧
          ((∃ a, i = .update a) ∨ (∃ a, i = .encode a) ∨ i = .encstream ∨ i = .decstream)))

/-- R107, R222, R225, R229, R232: where `UPDATE` faults; the weight is tested first; everything but the status is as it was. -/
def Obligations.UpdateFaults : Prop :=
  ∀ (s : State) (a : Arg) (sym : Symbol), s.fault = false → TreeInv Config.ahte s.tree → a.toNat = sym.val →
    ((s.tree.N s.tree.root).weight = 2 ^ 64 - 1 →
      exec (.update a) s =
        .next { s with fault := true, faultCode := .weightOverflow, rsp := 0x3003, busy := false }) ∧
    ((s.tree.N s.tree.root).weight ≠ 2 ^ 64 - 1 → s.tree.sym2leaf[sym.val] = none → s.tree.nextOrder < 1 →
      exec (.update a) s =
        .next { s with fault := true, faultCode := .nodeTableOverflow, rsp := 0x3001, busy := false })

/-- R164, R229: where `ENCODE` faults the code bits of its symbol stay written and the tree stays as it was. -/
def Obligations.EncodeFaultsAfterItsBits : Prop :=
  ∀ (s : State) (a : Arg) (sym : Symbol), s.fault = false → TreeInv Config.ahte s.tree → a.toNat = sym.val →
    ((s.tree.N s.tree.root).weight = 2 ^ 64 - 1 ∨ (s.tree.sym2leaf[sym.val] = none ∧ s.tree.nextOrder < 1)) →
    ∃ unit s', codeBits Config.ahte s.tree sym = .ok unit ∧ exec (.encode a) s = .next s' ∧
      bitsOut s' = bitsOut s ++ unit ∧
      s'.faultCode = (if (s.tree.N s.tree.root).weight = 2 ^ 64 - 1 then .weightOverflow else .nodeTableOverflow) ∧
      s' = { s with wAcc := s'.wAcc, wCnt := s'.wCnt, sink := s'.sink, fault := true, faultCode := s'.faultCode,
                    rsp := response .fault s'.faultCode.code, busy := false }

/-! ### CodeTree -/

/-- R101, R102: `TRESET` gives the one-node tree and changes nothing else. -/
def Obligations.TresetResult : Prop :=
  ∀ s : State, s.fault = false →
    exec .treset s = .next { s with tree := State.reset.tree, rsp := 0x0000, busy := false }

/-- R103, R105: `PATHOF n` of a live node leaves the way from the root down to it, zeros above, and its length as the response;
nothing else changes. -/
def Obligations.PathofResult : Prop :=
  ∀ (s : State) (n : Arg), s.fault = false → TreeInv Config.ahte s.tree → n.toNat < s.tree.nLive →
    ∃ bits : List Bool, bits.length ≤ 256 ∧ descend s.tree s.tree.root bits = some n.toNat ∧
      exec (.pathof n) s =
        .next { s with pathLen := bits.length
                       pathBits := bits ++ List.replicate (256 - bits.length) false
                       rsp := BitVec.ofNat 16 bits.length
                       busy := false }

/-- R104: (a) the root's path is empty; (b) the root is an encode's target exactly on the one-node tree, where a symbol's code is
its literal alone, and a symbol's leaf is never the root; (c) a path leads to its node; (d) the paths of two different leaves
are never a prefix of one another. -/
def Obligations.PathsFormAPrefixCode : Prop :=
  ∀ (c : Config) (t : CodeTree), c.Valid → TreeInv c t →
    pathOf c t t.root = .ok [] ∧
    (t.nyt = t.root ↔ ∀ sym : Symbol, t.sym2leaf[sym.val] = none) ∧
    (t.nyt = t.root → ∀ sym : Symbol, codeBits c t sym = .ok (literalBits sym)) ∧
    (∀ (sym : Symbol) (leaf : Nat), t.sym2leaf[sym.val] = some leaf → leaf ≠ t.root) ∧
    (∀ n, n < t.nLive → ∃ bits, pathOf c t n = .ok bits ∧ descend t t.root bits = some n) ∧
    (∀ (m n : Nat) (p q : List Bool), m < t.nLive → n < t.nLive → m ≠ n → (t.N m).left = none → (t.N n).left = none →
      pathOf c t m = .ok p → pathOf c t n = .ok q → ¬ p <+: q)

/-- R112: the leader is the unique live node of the class with the largest order; the scan of `ORD2NODE` from `ORDER_MAX` downward
meets it first. -/
def Obligations.LeaderIsTheLargestOrderOfItsClass : Prop :=
  ∀ (c : Config) (t : CodeTree) (i : Nat), TreeShape c t → i < t.nLive →
    ∃ q, leader t i = .ok q ∧ q < t.nLive ∧ (t.N q).weight = (t.N i).weight ∧
      (∀ j, j < t.nLive → (t.N j).weight = (t.N i).weight → (t.N j).order ≤ (t.N q).order) ∧
      (∀ q', q' < t.nLive → (t.N q').weight = (t.N i).weight →
        (∀ j, j < t.nLive → (t.N j).weight = (t.N i).weight → (t.N j).order ≤ (t.N q').order) → q' = q) ∧
      t.ord2node[(t.N q).order]? = some (some q) ∧
      (∀ o j, (t.N q).order < o → t.ord2node[o]? = some (some j) → (t.N j).weight ≠ (t.N i).weight)

/-- R109: the split of the NYT node for a symbol without a leaf, entry by entry; the fault exactly when all of `NODE_CAP = 513`
entries are in use, which is when 256 symbols have leaves. -/
def Obligations.SplitResult : Prop :=
  ∀ (t : CodeTree) (sym : Symbol), TreeShape Config.ahte t → t.sym2leaf[sym.val] = none →
    (t.nextOrder < 1 → split t sym = .error (.raise .nodeTableOverflow)) ∧
    (t.nextOrder < 1 ↔ t.boundCount = 256) ∧
    (1 ≤ t.nextOrder → ∃ t', split t sym = .ok (t.nyt, t') ∧
      t'.nLive = t.nLive + 2 ∧ t'.root = t.root ∧ t'.nyt = t.nLive + 1 ∧ t'.nextOrder = t.nextOrder - 2 ∧
      t'.N t.nLive = { weight := 1, symbol := some sym, order := t.nextOrder.toNat, parent := some t.nyt,
                       left := none, right := none } ∧
      t'.N (t.nLive + 1) = { weight := 0, symbol := none, order := (t.nextOrder - 1).toNat, parent := some t.nyt,
                             left := none, right := none } ∧
      t'.N t.nyt = { t.N t.nyt with left := some (t.nLive + 1), right := some t.nLive } ∧
      (∀ i, i < t.nLive → i ≠ t.nyt → t'.N i = t.N i) ∧
      t'.sym2leaf[sym.val] = some t.nLive ∧
      (∀ sym' : Symbol, sym' ≠ sym → t'.sym2leaf[sym'.val] = t.sym2leaf[sym'.val]) ∧
      (∀ o : Nat, t'.ord2node[o]? =
        if (o : Int) = t.nextOrder then some (some t.nLive)
        else if (o : Int) = t.nextOrder - 1 then some (some (t.nLive + 1)) else t.ord2node[o]?))

/-- R114, R115, R197: `swap` and the order exchange of two live nodes neither of which is above the other: the two trade parent,
side and order; weights, symbols and the nodes below them stay with them; every position keeps its order; nothing else
changes. -/
def Obligations.SwapAndExchangeTradePositions : Prop :=
  ∀ (c : Config) (t : CodeTree) (p q pp qp : Nat), c.Valid → TreeShape c t → p < t.nLive → q < t.nLive →
    (t.N p).parent = some pp → (t.N q).parent = some qp →
    (∀ bits, descend t p bits ≠ some q) → (∀ bits, descend t q bits ≠ some p) →
    ∃ t1 t2, swap c t p q = .ok t1 ∧ exchangeOrders t1 p q = .ok t2 ∧
      t2.nLive = t.nLive ∧ t2.root = t.root ∧ t2.nyt = t.nyt ∧ t2.nextOrder = t.nextOrder ∧ t2.sym2leaf = t.sym2leaf ∧
      (∀ i, i < t.nLive → (t2.N i).weight = (t.N i).weight ∧ (t2.N i).symbol = (t.N i).symbol) ∧
      (t2.N p).parent = some qp ∧ (t2.N q).parent = some pp ∧
      (t2.N p).order = (t.N q).order ∧ (t2.N q).order = (t.N p).order ∧
      (∀ i, i < t.nLive → i ≠ p → i ≠ q → (t2.N i).parent = (t.N i).parent ∧ (t2.N i).order = (t.N i).order) ∧
      (∀ i, i < t.nLive →
        (t2.N i).left = (if (t.N i).left = some p then some q else if (t.N i).left = some q then some p
          else (t.N i).left) ∧
        (t2.N i).right = (if (t.N i).right = some p then some q else if (t.N i).right = some q then some p
          else (t.N i).right)) ∧
      (∀ o : Nat, t2.ord2node[o]? =
        if o = (t.N p).order then some (some q) else if o = (t.N q).order then some (some p) else t.ord2node[o]?)

/-- R113: the swap and the exchange happen exactly when all three conjuncts of the guard hold. -/
def Obligations.SwapGuard : Prop :=
  ∀ (c : Config) (t : CodeTree) (cur q : Nat), cur < t.nLive → q < t.nLive → leader t cur = .ok q →
    (q ≠ cur ∧ (t.N cur).parent ≠ some q ∧ (t.N q).parent ≠ some cur →
      rebalance c t cur = (swap c t cur q >>= fun t1 => exchangeOrders t1 cur q)) ∧
    (q = cur ∨ (t.N cur).parent = some q ∨ (t.N q).parent = some cur → rebalance c t cur = .ok t)

/-- R199: (a) to (f) and the consequence for `swap`, of every live node of a tree that meets the invariants, and the walk step there
is defined; (g) at the first step after a split the walk is at the former NYT node, which shares its class with the new NYT
node alone and leads it. LeadersOnTheWalk says the same of every later step. -/
def Obligations.LeadersAreNeverDegenerate : Prop :=
  ∀ (c : Config) (t : CodeTree), c.Valid → TreeInv c t →
    (∀ cur, cur < t.nLive → ∃ q, leader t cur = .ok q ∧ LeaderIsSafe t cur q ∧ ∃ t1, rebalance c t cur = .ok t1) ∧
    (∀ (sym : Symbol) (x : Nat) (t1 : CodeTree), t.sym2leaf[sym.val] = none → split t sym = .ok (x, t1) →
      x = t.nyt ∧ x ≠ t1.nyt ∧ x < t1.nLive ∧ (t1.N x).weight = 0 ∧
      (∀ i, i < t1.nLive → ((t1.N i).weight = (t1.N x).weight ↔ i = x ∨ i = t1.nyt)) ∧
      leader t1 x = .ok x ∧ LeaderIsSafe t1 x x ∧ rebalance c t1 x = .ok t1)

/-- R107, R110, R111, R117: `UPDATE` of a symbol with a leaf: no node is allocated, exactly the nodes on the leaf's path in the new
tree gain 1, the tree meets the invariants again, and nothing outside the tree but the response changes. -/
def Obligations.UpdateOfABoundSymbol : Prop :=
  ∀ (s : State) (a : Arg) (sym : Symbol) (leaf : Nat), s.fault = false → TreeInv Config.ahte s.tree →
    a.toNat = sym.val → s.tree.sym2leaf[sym.val] = some leaf → (s.tree.N s.tree.root).weight ≠ 2 ^ 64 - 1 →
    ∃ t, exec (.update a) s = .next { s with tree := t, rsp := 0x0000, busy := false } ∧ TreeInv Config.ahte t ∧
      t.root = s.tree.root ∧ t.nLive = s.tree.nLive ∧ t.nyt = s.tree.nyt ∧ t.nextOrder = s.tree.nextOrder ∧
      t.sym2leaf = s.tree.sym2leaf ∧
      (∀ i, i < s.tree.nLive → (t.N i).symbol = (s.tree.N i).symbol) ∧
      (∀ i, i < s.tree.nLive → (∃ bits, descend t i bits = some leaf) → (t.N i).weight = (s.tree.N i).weight + 1) ∧
      (∀ i, i < s.tree.nLive → (¬ ∃ bits, descend t i bits = some leaf) → (t.N i).weight = (s.tree.N i).weight)

/-- R107, R109, R110, R111, R117: `UPDATE` of a symbol without a leaf: the two next entries become its leaf, of weight 1, and the new
NYT node; exactly the nodes on the former NYT node's path in the new tree gain 1; nothing outside the tree but the response
changes. -/
def Obligations.UpdateOfANewSymbol : Prop :=
  ∀ (s : State) (a : Arg) (sym : Symbol), s.fault = false → TreeInv Config.ahte s.tree →
    a.toNat = sym.val → s.tree.sym2leaf[sym.val] = none → 1 ≤ s.tree.nextOrder →
    (s.tree.N s.tree.root).weight ≠ 2 ^ 64 - 1 →
    ∃ t, exec (.update a) s = .next { s with tree := t, rsp := 0x0000, busy := false } ∧ TreeInv Config.ahte t ∧
      t.root = s.tree.root ∧ t.nLive = s.tree.nLive + 2 ∧ t.nyt = s.tree.nLive + 1 ∧
      t.nextOrder = s.tree.nextOrder - 2 ∧
      t.sym2leaf[sym.val] = some s.tree.nLive ∧ (t.N s.tree.nLive).symbol = some sym ∧ (t.N s.tree.nLive).weight = 1 ∧
      (∀ sym' : Symbol, sym' ≠ sym → t.sym2leaf[sym'.val] = s.tree.sym2leaf[sym'.val]) ∧
      (∀ i, i < s.tree.nLive → (t.N i).symbol = (s.tree.N i).symbol) ∧
      (∀ i, i < s.tree.nLive → (∃ bits, descend t i bits = some s.tree.nyt) →
        (t.N i).weight = (s.tree.N i).weight + 1) ∧
      (∀ i, i < s.tree.nLive → (¬ ∃ bits, descend t i bits = some s.tree.nyt) →
        (t.N i).weight = (s.tree.N i).weight)

/-- R191: the node count of a tree in which `k` symbols have leaves. -/
def Obligations.NodeCountFollowsTheBoundSymbols : Prop :=
  ∀ t : CodeTree, TreeInv Config.ahte t →
    t.nLive = 2 * t.boundCount + 1 ∧ t.nextOrder = 512 - 2 * t.boundCount - 1 ∧ t.nyt = 2 * t.boundCount ∧
    t.boundCount ≤ 256 ∧
    ((List.range t.nLive).filter fun i => (t.N i).left = none).length = t.boundCount + 1 ∧
    ((List.range t.nLive).filter fun i => (t.N i).left ≠ none).length = t.boundCount

/-- R190, R193 to R198, R201, R202: every tree that a sequence of updates makes of the reset tree meets the invariants; the root's
weight is the number of updates, a symbol's leaf's the number of updates of that symbol, and exactly the symbols updated
have leaves. -/
def Obligations.TreesThatUpdatesMake : Prop :=
  ∀ (c : Config) (syms : List Symbol) (t : CodeTree), c.Valid →
    syms.foldlM (fun t sym => update c t sym) (CodeTree.fresh c) = .ok t →
    TreeInv c t ∧ (t.N t.root).weight = syms.length ∧
    (∀ (sym : Symbol) (leaf : Nat), t.sym2leaf[sym.val] = some leaf → (t.N leaf).weight = syms.count sym) ∧
    (∀ sym : Symbol, t.sym2leaf[sym.val] ≠ none ↔ sym ∈ syms)

/-- R203: two engines that differ only in `NODE_CAP` write the same bits for the same symbols and hold the same trees, every order
shifted by the difference of the two `ORDER_MAX`. -/
def Obligations.AbsoluteOrdersAreNotObservable : Prop :=
  ∀ (c c' : Config) (d : Nat) (syms : List Symbol) (bits bits' : List Bool) (t t' : CodeTree), c.Valid → c'.Valid →
    c'.weightBits = c.weightBits → c'.orderMax = c.orderMax + d →
    Writes c (CodeTree.fresh c) syms bits t → Writes c' (CodeTree.fresh c') syms bits' t' →
    bits' = bits ∧ t'.nodes = t.nodes.map (fun n => { n with order := n.order + d }) ∧ t'.root = t.root ∧
    t'.nyt = t.nyt ∧ t'.sym2leaf = t.sym2leaf ∧ t'.nextOrder = t.nextOrder + d ∧
    (∀ o : Nat, o ≤ c.orderMax → t'.ord2node[o + d]? = t.ord2node[o]?)

/-! ### BitChannel -/

/-- R62, R64, R65: a pull takes the byte at the position and advances it, or answers that the source is exhausted and changes nothing; a
put appends one byte and never fails. -/
def Obligations.PullsAndPuts : Prop :=
  ∀ (s : State) (v : Byte),
    (∀ w : Byte, s.source[s.pos]? = some w → srcNext s = some (w, { s with pos := s.pos + 1 })) ∧
    (s.source.length ≤ s.pos → srcNext s = none) ∧
    sinkPut v s = { s with sink := s.sink ++ [v] }

/-- R141, R142: `WRBIT b` in its two forms, before and at the eighth bit. -/
def Obligations.WrbitResult : Prop :=
  ∀ (s : State) (b : Arg), s.fault = false → b.toNat ≤ 1 →
    (∀ k : Fin 8, k.val = s.wCnt.val + 1 →
      exec (.wrbit b) s =
        .next { s with wAcc := (s.wAcc <<< 1) ||| b.setWidth 8, wCnt := k, rsp := 0x0000, busy := false }) ∧
    (s.wCnt.val = 7 →
      exec (.wrbit b) s =
        .next { s with sink := s.sink ++ [(s.wAcc <<< 1) ||| b.setWidth 8], wAcc := 0, wCnt := 0,
                       rsp := 0x0000, busy := false })

/-- R143, R144: `WFLUSH` with nothing pending, and with bits pending. -/
def Obligations.WflushResult : Prop :=
  ∀ s : State, s.fault = false →
    (s.wCnt.val = 0 → exec .wflush s = .next { s with rsp := 0x0000, busy := false }) ∧
    (0 < s.wCnt.val → exec .wflush s =
      .next { s with sink := s.sink ++ [s.wAcc <<< (8 - s.wCnt.val)], wAcc := 0, wCnt := 0,
                     rsp := 0x0000, busy := false })

/-- R145: the bytes put by bits written from an empty write side and one flush: the bits, then zeros, eight to a byte, first bit
highest. -/
def Obligations.WriteSideBytes : Prop :=
  ∀ (s : State) (bits : List Bool), s.wCnt = 0 →
    ∃ bytes : List Byte, (flush (writeBits bits s)).sink = s.sink ++ bytes ∧ bytes.length = (bits.length + 7) / 8 ∧
      bytes.flatMap byteBits = bits ++ List.replicate ((8 - bits.length % 8) % 8) false

/-- R146, R147: `RDBIT` with bits held, with a byte to pull, and at the end of the input. -/
def Obligations.RdbitResult : Prop :=
  ∀ s : State, s.fault = false →
    (∀ k : Fin 9, k.val + 1 = s.rCnt.val →
      exec .rdbit s =
        .next { s with rCnt := k, rsp := if s.rAcc.getLsbD k.val then 0x0001 else 0x0000, busy := false }) ∧
    (∀ v : Byte, s.rCnt.val = 0 → s.source[s.pos]? = some v →
      exec .rdbit s =
        .next { s with pos := s.pos + 1, rAcc := v, rCnt := 7,
                       rsp := if v.getLsbD 7 then 0x0001 else 0x0000, busy := false }) ∧
    (s.rCnt.val = 0 → s.source.length ≤ s.pos → exec .rdbit s = .next { s with rsp := 0x1000, busy := false })

/-- R148: `RDBIT` answers the bits of the input one after the other, each byte most significant bit first, and `EOI` after the last;
from an empty read side they are the bits of the remaining source bytes. -/
def Obligations.ReadSideBits : Prop :=
  ∀ s : State, s.fault = false →
    (s.rCnt.val = 0 → bitsIn s = (s.source.drop s.pos).flatMap byteBits) ∧
    (bitsIn s = [] → exec .rdbit s = .next { s with rsp := 0x1000, busy := false }) ∧
    (∀ (b : Bool) (rest : List Bool), bitsIn s = b :: rest →
      ∃ s', exec .rdbit s = .next s' ∧ bitsIn s' = rest ∧ s'.rsp = (if b then 0x0001 else 0x0000) ∧
        s' = { s with rAcc := s'.rAcc, rCnt := s'.rCnt, pos := s'.pos, rsp := s'.rsp, busy := false })

/-! ### Codec -/

/-- R161, R162, R164: `ENCODE` where it completes: the code of the symbol on the tree as it stands is written, then the tree is
updated; nothing else changes. -/
def Obligations.EncodeResult : Prop :=
  ∀ (s : State) (a : Arg) (sym : Symbol), s.fault = false → TreeInv Config.ahte s.tree → a.toNat = sym.val →
    s.tree.HasRoom Config.ahte sym →
    ∃ unit t s', update Config.ahte s.tree sym = .ok t ∧ exec (.encode a) s = .next s' ∧
      (∀ leaf, s.tree.sym2leaf[sym.val] = some leaf → descend s.tree s.tree.root unit = some leaf) ∧
      (s.tree.sym2leaf[sym.val] = none → ∃ path, descend s.tree s.tree.root path = some s.tree.nyt ∧
        unit = path ++ [8, 7, 6, 5, 4, 3, 2, 1, 0].map sym.val.testBit) ∧
      bitsOut s' = bitsOut s ++ unit ∧
      s' = { s with tree := t, wAcc := s'.wAcc, wCnt := s'.wCnt, sink := s'.sink, rsp := 0x0000, busy := false }

/-- R165: how many bits one `encode` writes. -/
def Obligations.CostOfAUnit : Prop :=
  ∀ (c : Config) (t : CodeTree) (sym : Symbol), c.Valid → TreeInv c t →
    ∃ unit, codeBits c t sym = .ok unit ∧
      (∀ leaf, t.sym2leaf[sym.val] = some leaf →
        pathOf c t leaf = .ok unit ∧ 1 ≤ unit.length ∧ unit.length ≤ c.maxDepth) ∧
      (t.sym2leaf[sym.val] = none →
        (∃ path, pathOf c t t.nyt = .ok path ∧ unit = path ++ literalBits sym ∧ unit.length = path.length + 9) ∧
        9 ≤ unit.length ∧ unit.length ≤ c.maxDepth + 9 ∧ (unit.length = 9 ↔ t.nLive = 1))

/-- R166 to R169: `ENCSTREAM` where it completes: from the reset tree, one unit for every byte left in the source and one for EOT, the
last byte padded with zeros; the source is consumed, the write side empty; nothing else changes. -/
def Obligations.EncstreamResult : Prop :=
  ∀ s : State, s.fault = false → distinctBytes (s.source.drop s.pos) ≤ 255 →
    (s.source.drop s.pos).length < 2 ^ 64 - 1 →
    ∃ (bits : List Bool) (t : CodeTree) (bytes : List Byte),
      Writes Config.ahte State.reset.tree ((s.source.drop s.pos).map Symbol.ofByte ++ [Symbol.eot]) bits t ∧
      bytes.flatMap byteBits = bits ++ List.replicate ((8 - bits.length % 8) % 8) false ∧
      exec .encstream s =
        .next { s with tree := t, wAcc := 0, wCnt := 0, pos := s.pos + (s.source.drop s.pos).length
                       sink := s.sink ++ bytes, rsp := 0x0000, busy := false }

/-- R205, R169: `ENCSTREAM` completes exactly for sources with at most 255 distinct byte values, shorter than `2^64 − 1`. -/
def Obligations.WhereEncstreamCompletes : Prop :=
  ∀ s : State, s.fault = false →
    ((∃ s', exec .encstream s = .next s' ∧ s'.rsp = 0x0000) ↔
      distinctBytes (s.source.drop s.pos) ≤ 255 ∧ (s.source.drop s.pos).length < 2 ^ 64 - 1)

/-- R169, R229, R260: over a source with all 256 byte values `ENCSTREAM` faults at EOT's update: every bit of the stream has been
written, none flushed, the whole source pulled, the tree as after the last byte. -/
def Obligations.FullAlphabetFaultsAtEot : Prop :=
  ∀ s : State, s.fault = false → distinctBytes (s.source.drop s.pos) = 256 →
    (s.source.drop s.pos).length < 2 ^ 64 - 1 →
    ∃ (bits unit : List Bool) (t : CodeTree) (s' : State),
      Writes Config.ahte State.reset.tree ((s.source.drop s.pos).map Symbol.ofByte) bits t ∧
      codeBits Config.ahte t Symbol.eot = .ok unit ∧ exec .encstream s = .next s' ∧
      bitsOut s' = s.sink.flatMap byteBits ++ bits ++ unit ∧
      s' = { s with tree := t, wAcc := s'.wAcc, wCnt := s'.wCnt, sink := s'.sink
                    pos := s.pos + (s.source.drop s.pos).length
                    fault := true, faultCode := .nodeTableOverflow, rsp := 0x3001, busy := false }

/-- R170 (a), R180 (a): both stream commands on an exhausted source. -/
def Obligations.EmptySource : Prop :=
  ∀ s : State, s.fault = false → s.source.length ≤ s.pos →
    (∃ t, exec .encstream s =
      .next { s with tree := t, wAcc := 0, wCnt := 0, sink := s.sink ++ [0x80, 0x00], rsp := 0x0000, busy := false }) ∧
    exec .decstream s =
      .next { s with tree := State.reset.tree, rAcc := 0, rCnt := 0, stopReason := .eoiLiteral, rsp := 0x0003,
                     busy := false }

/-- R171 to R178, R180 (c): `DECSTREAM` where it completes at EOT: the input begins with units for symbols other than EOT and a unit for
EOT; the symbols are put as bytes, the tree is the one after their updates, the bits after the EOT unit are still to be read;
nothing else changes. -/
def Obligations.DecstreamStopsAtEot : Prop :=
  ∀ (s : State) (syms : List Symbol) (bits unit more : List Bool) (t : CodeTree), s.fault = false →
    Symbol.eot ∉ syms → Reads Config.ahte State.reset.tree syms bits t → IsUnit Config.ahte t Symbol.eot unit →
    (s.source.drop s.pos).flatMap byteBits = bits ++ unit ++ more →
    ∃ s', exec .decstream s = .next s' ∧ bitsIn s' = more ∧
      s' = { s with tree := t, rAcc := s'.rAcc, rCnt := s'.rCnt, pos := s'.pos
                    sink := s.sink ++ syms.map (fun sym => BitVec.ofNat 8 sym.val)
                    stopReason := .eot, rsp := 0x0001, busy := false }

/-- R179: `DECSTREAM` where the input ends within a descent or within a literal. -/
def Obligations.DecstreamStopsAtTheEndOfInput : Prop :=
  ∀ (s : State) (syms : List Symbol) (bits rest : List Bool) (t : CodeTree), s.fault = false →
    Symbol.eot ∉ syms → Reads Config.ahte State.reset.tree syms bits t →
    (s.source.drop s.pos).flatMap byteBits = bits ++ rest →
    ((∃ j, descend t t.root rest = some j ∧ (t.N j).left ≠ none) →
      ∃ s', exec .decstream s = .next s' ∧ bitsIn s' = [] ∧
        s' = { s with tree := t, rAcc := s'.rAcc, rCnt := s'.rCnt, pos := s'.pos
                      sink := s.sink ++ syms.map (fun sym => BitVec.ofNat 8 sym.val)
                      stopReason := .eoiDescent, rsp := 0x0002, busy := false }) ∧
    ((∃ path part, descend t t.root path = some t.nyt ∧ rest = path ++ part ∧ part.length < 9) →
      ∃ s', exec .decstream s = .next s' ∧ bitsIn s' = [] ∧
        s' = { s with tree := t, rAcc := s'.rAcc, rCnt := s'.rCnt, pos := s'.pos
                      sink := s.sink ++ syms.map (fun sym => BitVec.ofNat 8 sym.val)
                      stopReason := .eoiLiteral, rsp := 0x0003, busy := false })

/-- R176, R223, R224: nine literal bits that spell no symbol: nothing is emitted for them, the tree is as it was, the nine bits are
consumed, `STOP_REASON` is `NONE`. -/
def Obligations.DecstreamFaultsOnABadLiteral : Prop :=
  ∀ (s : State) (syms : List Symbol) (bits path lit more : List Bool) (t : CodeTree), s.fault = false →
    Symbol.eot ∉ syms → Reads Config.ahte State.reset.tree syms bits t →
    descend t t.root path = some t.nyt → lit.length = 9 → (∀ sym : Symbol, lit ≠ literalBits sym) →
    (s.source.drop s.pos).flatMap byteBits = bits ++ path ++ lit ++ more →
    ∃ s', exec .decstream s = .next s' ∧ bitsIn s' = more ∧
      s' = { s with tree := t, rAcc := s'.rAcc, rCnt := s'.rCnt, pos := s'.pos
                    sink := s.sink ++ syms.map (fun sym => BitVec.ofNat 8 sym.val)
                    stopReason := .none, fault := true, faultCode := .badLiteral, rsp := 0x3002, busy := false }

/-- R172 to R180, R229: whatever the source, `DECSTREAM` answers: it decodes some units and then stops at EOT, at the end of the input in
a descent or a literal, or with one of the two faults; it never raises `NodeTableOverflow` and changes nothing but what is
named. -/
def Obligations.DecstreamOnAnyInput : Prop :=
  ∀ s : State, s.fault = false →
    ∃ (syms : List Symbol) (bits rest : List Bool) (t : CodeTree) (s' : State),
      Symbol.eot ∉ syms ∧ Reads Config.ahte State.reset.tree syms bits t ∧
      (s.source.drop s.pos).flatMap byteBits = bits ++ rest ∧ exec .decstream s = .next s' ∧
      s' = { s with tree := t, rAcc := s'.rAcc, rCnt := s'.rCnt, pos := s'.pos, sink := s'.sink,
                    stopReason := s'.stopReason, fault := s'.fault, faultCode := s'.faultCode, rsp := s'.rsp,
                    busy := false } ∧
      ((∃ unit more, IsUnit Config.ahte t Symbol.eot unit ∧ rest = unit ++ more ∧ bitsIn s' = more ∧
          s'.sink = s.sink ++ syms.map (fun sym => BitVec.ofNat 8 sym.val) ∧
          s'.stopReason = .eot ∧ s'.rsp = 0x0001 ∧ s'.fault = false ∧ s'.faultCode = s.faultCode) ∨
       (∃ j, descend t t.root rest = some j ∧ (t.N j).left ≠ none ∧ bitsIn s' = [] ∧
          s'.sink = s.sink ++ syms.map (fun sym => BitVec.ofNat 8 sym.val) ∧
          s'.stopReason = .eoiDescent ∧ s'.rsp = 0x0002 ∧ s'.fault = false ∧ s'.faultCode = s.faultCode) ∨
       (∃ path part, descend t t.root path = some t.nyt ∧ rest = path ++ part ∧ part.length < 9 ∧ bitsIn s' = [] ∧
          s'.sink = s.sink ++ syms.map (fun sym => BitVec.ofNat 8 sym.val) ∧
          s'.stopReason = .eoiLiteral ∧ s'.rsp = 0x0003 ∧ s'.fault = false ∧ s'.faultCode = s.faultCode) ∨
       (∃ path lit more, descend t t.root path = some t.nyt ∧ rest = path ++ lit ++ more ∧ lit.length = 9 ∧
          (∀ sym : Symbol, lit ≠ literalBits sym) ∧ bitsIn s' = more ∧
          s'.sink = s.sink ++ syms.map (fun sym => BitVec.ofNat 8 sym.val) ∧
          s'.stopReason = .none ∧ s'.rsp = 0x3002 ∧ s'.fault = true ∧ s'.faultCode = .badLiteral) ∨
       (∃ sym unit more, sym ≠ Symbol.eot ∧ IsUnit Config.ahte t sym unit ∧ rest = unit ++ more ∧
          (t.N t.root).weight = 2 ^ 64 - 1 ∧ bitsIn s' = more ∧
          s'.sink = s.sink ++ (syms ++ [sym]).map (fun sym => BitVec.ofNat 8 sym.val) ∧
          s'.stopReason = .none ∧ s'.rsp = 0x3003 ∧ s'.fault = true ∧ s'.faultCode = .weightOverflow))

/-- R205, R70, R178, R180 (c): what `ENCSTREAM` puts where it completes, `DECSTREAM` on any engine turns back into the bytes encoded, with
any bytes following; it stops at EOT, pulls none of the bytes that follow, and its tree is the encoder's before EOT's update. -/
def Obligations.RoundTrip : Prop :=
  ∀ s s' u : State, ∀ bytes extra : List Byte, s.fault = false → exec .encstream s = .next s' → s'.rsp = 0x0000 →
    s'.sink = s.sink ++ bytes → u.fault = false → u.source = bytes ++ extra → u.pos = 0 →
    ∃ u', exec .decstream u = .next u' ∧ update Config.ahte u'.tree Symbol.eot = .ok s'.tree ∧
      u' = { u with tree := u'.tree, rAcc := u'.rAcc, rCnt := u'.rCnt, pos := bytes.length
                    sink := u.sink ++ s.source.drop s.pos, stopReason := .eot, rsp := 0x0001, busy := false }

/-- R205, conflict C4: with `NODE_CAP ≥ 515` the round trip holds for every source shorter than the largest weight, all 256 byte
values included. -/
def Obligations.RoundTripInALargeArena : Prop :=
  ∀ (c : Config) (s u : State) (extra : List Byte), c.Valid → 515 ≤ c.nodeCap →
    (s.source.drop s.pos).length < c.weightMax →
    ∃ (bytes : List Byte) (s' : State), runEncstream c () s = .ended s' ∧ s'.rsp = 0x0000 ∧
      s'.sink = s.sink ++ bytes ∧
      (u.source = bytes ++ extra → u.pos = 0 →
        ∃ u', runDecstream c () u = .ended u' ∧ u'.sink = u.sink ++ s.source.drop s.pos ∧ u'.stopReason = .eot ∧
          u'.rsp = 0x0001)

/-- R204, R170 (c), R170 (e), R120: the stream commands depend on the remaining source alone: two engines in any two states put the same
bytes, answer the same and end with the same tree and the same bits pending. -/
def Obligations.StreamCommandsForgetThePast : Prop :=
  ∀ s1 s2 t1 t2 : State, s1.fault = false → s2.fault = false → s1.source.drop s1.pos = s2.source.drop s2.pos →
    ((exec .encstream s1 = .next t1 → exec .encstream s2 = .next t2 →
      t1.tree = t2.tree ∧ t1.rsp = t2.rsp ∧ t1.fault = t2.fault ∧ t1.wAcc = t2.wAcc ∧ t1.wCnt = t2.wCnt ∧
      ∃ bytes, t1.sink = s1.sink ++ bytes ∧ t2.sink = s2.sink ++ bytes) ∧
     (exec .decstream s1 = .next t1 → exec .decstream s2 = .next t2 →
      t1.tree = t2.tree ∧ t1.rsp = t2.rsp ∧ t1.fault = t2.fault ∧ t1.stopReason = t2.stopReason ∧
      t1.rAcc = t2.rAcc ∧ t1.rCnt = t2.rCnt ∧
      ∃ bytes, t1.sink = s1.sink ++ bytes ∧ t2.sink = s2.sink ++ bytes))

/-- R206: a single repeated symbol: one literal, then one bit `1` a repeat; the tree has three nodes and no repeat swaps; EOT makes
it five. -/
def Obligations.SingleRepeatedSymbol : Prop :=
  ∀ (v : Byte) (n : Nat), n + 2 ≤ 2 ^ 64 - 1 →
    ∃ t t' unit, Writes Config.ahte State.reset.tree (List.replicate (n + 1) (Symbol.ofByte v))
        (literalBits (Symbol.ofByte v) ++ List.replicate n true) t ∧
      t.nLive = 3 ∧ t.sym2leaf[(Symbol.ofByte v).val] = some 1 ∧ rebalance Config.ahte t 1 = .ok t ∧
      Writes Config.ahte t [Symbol.eot] unit t' ∧ t'.nLive = 5

/-! ### Every command, every step -/

/-- R34, R47, R66, R140, R149, R252: what each command leaves unchanged whenever it gives a next state, from any state. -/
def Obligations.FrameOfEveryCommand : Prop :=
  ∀ (i : Instr) (s s' : State), exec i s = .next s' →
    s'.host = s.host ∧ s'.source = s.source ∧ s'.cuts = s.cuts ∧ s'.busy = false ∧ s.pos ≤ s'.pos ∧ s.sink <+: s'.sink ∧
    ((∀ n, i ≠ .pathof n) → s'.pathLen = s.pathLen ∧ s'.pathBits = s.pathBits) ∧
    (i ≠ .decstream → s'.stopReason = s.stopReason) ∧
    (i ≠ .decstream → i ≠ .rdbit → s'.rAcc = s.rAcc ∧ s'.rCnt = s.rCnt) ∧
    (i ≠ .decstream → i ≠ .rdbit → i ≠ .encstream → s'.pos = s.pos) ∧
    (i = .treset ∨ (∃ n, i = .pathof n) ∨ (∃ a, i = .update a) ∨ i = .rdbit ∨ i = .decstream →
      s'.wAcc = s.wAcc ∧ s'.wCnt = s.wCnt) ∧
    (i = .treset ∨ (∃ n, i = .pathof n) ∨ (∃ a, i = .update a) ∨ i = .rdbit → s'.sink = s.sink) ∧
    ((∃ n, i = .pathof n) ∨ (∃ b, i = .wrbit b) ∨ i = .wflush ∨ i = .rdbit → s'.tree = s.tree) ∧
    (i = .treset ∨ (∃ n, i = .pathof n) ∨ (∃ b, i = .wrbit b) ∨ i = .wflush ∨ i = .rdbit →
      s'.fault = s.fault ∧ s'.faultCode = s.faultCode)

/-- R88, R89: the value of a response by command, and that `EOI` is `RDBIT`'s alone. -/
def Obligations.ResponseValues : Prop :=
  ∀ (i : Instr) (s s' : State), s.fault = false → exec i s = .next s' →
    (rspStatus s'.rsp = 0x1 → i = .rdbit ∧ s'.rsp = 0x1000) ∧
    (rspStatus s'.rsp = 0x0 →
      (i = .treset ∨ (∃ a, i = .update a) ∨ (∃ b, i = .wrbit b) ∨ i = .wflush ∨ (∃ a, i = .encode a) ∨ i = .encstream →
        s'.rsp = 0x0000) ∧
      (∀ n, i = .pathof n → s'.rsp.toNat = s'.pathLen ∧ s'.pathLen ≤ 256) ∧
      (i = .rdbit → s'.rsp = if s'.rAcc.getLsbD s'.rCnt.val then 0x0001 else 0x0000) ∧
      (i = .decstream → s'.stopReason ≠ .none ∧ s'.rsp.toNat = s'.stopReason.code.toNat))

/-- R190, with R22, R25, R35, R38 to R41, R44, R61, R88, R118: every step from a state that meets the invariants leads to one that does;
among them, every weight of the tree is at most `2^64 − 1`. -/
def Obligations.StepsKeepTheInvariants : Prop :=
  ∀ s s' : State, MachineInv Config.ahte s → step s = .next s' → MachineInv Config.ahte s'

/-- R190, 93_implementation_defined.md section 3: from a state that meets the invariants a step always answers a next state: none of
the `stuck` cases is met. -/
def Obligations.StepsAreNeverStuck : Prop := ∀ s : State, MachineInv Config.ahte s → SafeStep s

/-- R190, R250: the reset state meets the invariants. -/
def Obligations.ResetMeetsTheInvariants : Prop := MachineInv Config.ahte State.reset

/-- R199, R110, R111: at every step of the walk of `update`, the first and every later one, (a) to (f) hold of the node and its leader;
neither of them is the NYT node; the exchange, if there is one, is defined and keeps the tree's shape (R192). -/
def Obligations.LeadersOnTheWalk : Prop :=
  ∀ (c : Config) (t t' : CodeTree) (sym : Symbol) (cur : Nat), c.Valid → TreeInv c t → OnWalk c sym t t' cur →
    cur < t'.nLive ∧ cur ≠ t'.nyt ∧
    ∃ q, leader t' cur = .ok q ∧ q ≠ t'.nyt ∧ LeaderIsSafe t' cur q ∧
      ∃ t2, rebalance c t' cur = .ok t2 ∧ TreeShape c t2
end

