-- ==== Sys2Proof/Laws/Arena.lean ====
section
/-! SUPPORT. The small lemmas of the arena: reading and writing an entry, the error monad, `side`, the leader scan, and the
two ways up a parent chain. Later files cite these and unfold none of the definitions. -/

namespace Sys2Proof.Machine

open Sys2Proof

/-! ### The error monad -/

@[simp] theorem ok_bind {ε α β : Type} (a : α) (f : α → Except ε β) : (Except.ok a >>= f) = f a := rfl

@[simp] theorem error_bind {ε α β : Type} (e : ε) (f : α → Except ε β) :
    ((Except.error e : Except ε α) >>= f) = Except.error e := rfl

@[simp] theorem orStuck_ok {α : Type} (a : α) : orStuck (Except.ok a) = Except.ok a := rfl

@[simp] theorem orStuck_error {α : Type} (f : Fault) :
    orStuck (Except.error f : Except Fault α) = Except.error (.stuck f) := rfl

/-- An operation in a sequence succeeds only if its first part does. -/
theorem bind_eq_ok {ε α β : Type} {x : Except ε α} {f : α → Except ε β} {b : β} :
    (x >>= f) = .ok b ↔ ∃ a, x = .ok a ∧ f a = .ok b := by
  cases x <;> simp

/-! ### Reading and writing an entry -/

theorem nodeAt_of_live {t : CodeTree} {i : Nat} (h : i < t.nLive) : nodeAt t i = .ok (t.N i) := by
  unfold CodeTree.nLive at h
  simp [nodeAt, CodeTree.N, List.getElem?_eq_getElem h, List.getD_eq_getElem?_getD]

theorem nodeAt_eq_ok {t : CodeTree} {i : Nat} {n : Node} : nodeAt t i = .ok n ↔ i < t.nLive ∧ n = t.N i := by
  constructor
  · intro h
    by_cases hi : i < t.nLive
    · rw [nodeAt_of_live hi] at h
      exact ⟨hi, (Except.ok.inj h).symm⟩
    · unfold CodeTree.nLive at hi
      simp [nodeAt, List.getElem?_eq_none (Nat.le_of_not_lt hi)] at h
  · rintro ⟨hi, rfl⟩
    exact nodeAt_of_live hi

@[simp] theorem modify_nLive (t : CodeTree) (i : Nat) (f : Node → Node) : (t.modify i f).nLive = t.nLive := by
  simp [CodeTree.modify, CodeTree.nLive]

theorem modify_N (t : CodeTree) (i : Nat) (f : Node → Node) (j : Nat) (hi : i < t.nLive) :
    (t.modify i f).N j = if j = i then f (t.N j) else t.N j := by
  unfold CodeTree.nLive at hi
  by_cases hj : j = i
  · subst hj
    simp [CodeTree.modify, CodeTree.N, List.getD_eq_getElem?_getD, hi]
  · have hij : ¬ i = j := fun h => hj h.symm
    simp [CodeTree.modify, CodeTree.N, List.getD_eq_getElem?_getD, hj, hij]

@[simp] theorem modify_root (t : CodeTree) (i : Nat) (f : Node → Node) : (t.modify i f).root = t.root := rfl
@[simp] theorem modify_nyt (t : CodeTree) (i : Nat) (f : Node → Node) : (t.modify i f).nyt = t.nyt := rfl
@[simp] theorem modify_sym2leaf (t : CodeTree) (i : Nat) (f : Node → Node) :
    (t.modify i f).sym2leaf = t.sym2leaf := rfl
@[simp] theorem modify_ord2node (t : CodeTree) (i : Nat) (f : Node → Node) :
    (t.modify i f).ord2node = t.ord2node := rfl
@[simp] theorem modify_nextOrder (t : CodeTree) (i : Nat) (f : Node → Node) :
    (t.modify i f).nextOrder = t.nextOrder := rfl

@[simp] theorem rebind_nodes (sym : Option Symbol) (i : Nat) (t : CodeTree) : (rebind sym i t).nodes = t.nodes := by
  cases sym <;> rfl
@[simp] theorem rebind_N (sym : Option Symbol) (i : Nat) (t : CodeTree) (j : Nat) :
    (rebind sym i t).N j = t.N j := by cases sym <;> rfl
@[simp] theorem rebind_nLive (sym : Option Symbol) (i : Nat) (t : CodeTree) : (rebind sym i t).nLive = t.nLive := by
  cases sym <;> rfl
@[simp] theorem rebind_root (sym : Option Symbol) (i : Nat) (t : CodeTree) : (rebind sym i t).root = t.root := by
  cases sym <;> rfl
@[simp] theorem rebind_nyt (sym : Option Symbol) (i : Nat) (t : CodeTree) : (rebind sym i t).nyt = t.nyt := by
  cases sym <;> rfl
@[simp] theorem rebind_ord2node (sym : Option Symbol) (i : Nat) (t : CodeTree) :
    (rebind sym i t).ord2node = t.ord2node := by cases sym <;> rfl
@[simp] theorem rebind_nextOrder (sym : Option Symbol) (i : Nat) (t : CodeTree) :
    (rebind sym i t).nextOrder = t.nextOrder := by cases sym <;> rfl

/-- The symbol-table writes of R114 store what is already there. -/
theorem rebind_of_bound {t : CodeTree} {i : Nat} {sym : Option Symbol}
    (h : ∀ s, sym = some s → t.sym2leaf[s.val] = some i) : rebind sym i t = t := by
  cases sym with
  | none => rfl
  | some s =>
    have hs := h s rfl
    have : t.sym2leaf.set s.val (some i) s.isLt = t.sym2leaf := by
      rw [← hs]; simp
    simp [rebind, this]

/-- An appended entry is read at its index. -/
theorem N_append (t : CodeTree) (n : Node) (j : Nat) :
    ({ t with nodes := t.nodes ++ [n] } : CodeTree).N j = if j = t.nLive then n else t.N j := by
  unfold CodeTree.nLive CodeTree.N
  by_cases h : j = t.nodes.length
  · subst h; simp [List.getD_eq_getElem?_getD]
  · by_cases h' : j < t.nodes.length
    · simp [List.getD_eq_getElem?_getD, List.getElem?_append_left h', h]
    · have : t.nodes.length + 1 ≤ j := by omega
      simp [List.getD_eq_getElem?_getD, h, List.getElem?_eq_none (Nat.le_of_not_lt h'),
        List.getElem?_eq_none (l := t.nodes ++ [n]) (by simpa using this)]

theorem allocNode_index (w : Nat) (sym : Option Symbol) (par : Option Nat) (t : CodeTree) :
    (allocNode w sym par t).1 = t.nLive := rfl

theorem allocNode_nLive (w : Nat) (sym : Option Symbol) (par : Option Nat) (t : CodeTree) :
    (allocNode w sym par t).2.nLive = t.nLive + 1 := by simp [allocNode, CodeTree.nLive]

theorem allocNode_N (w : Nat) (sym : Option Symbol) (par : Option Nat) (t : CodeTree) (j : Nat) :
    (allocNode w sym par t).2.N j =
      if j = t.nLive then
        { weight := w, symbol := sym, order := t.nextOrder.toNat, parent := par, left := none, right := none }
      else t.N j :=
  N_append t _ j

/-! ### The field writes -/

@[simp] theorem setParent_weight (p : Nat) (n : Node) : (setParent p n).weight = n.weight := rfl
@[simp] theorem setParent_symbol (p : Nat) (n : Node) : (setParent p n).symbol = n.symbol := rfl
@[simp] theorem setParent_order (p : Nat) (n : Node) : (setParent p n).order = n.order := rfl
@[simp] theorem setParent_parent (p : Nat) (n : Node) : (setParent p n).parent = some p := rfl
@[simp] theorem setParent_left (p : Nat) (n : Node) : (setParent p n).left = n.left := rfl
@[simp] theorem setParent_right (p : Nat) (n : Node) : (setParent p n).right = n.right := rfl
@[simp] theorem setOrder_weight (o : Nat) (n : Node) : (setOrder o n).weight = n.weight := rfl
@[simp] theorem setOrder_symbol (o : Nat) (n : Node) : (setOrder o n).symbol = n.symbol := rfl
@[simp] theorem setOrder_order (o : Nat) (n : Node) : (setOrder o n).order = o := rfl
@[simp] theorem setOrder_parent (o : Nat) (n : Node) : (setOrder o n).parent = n.parent := rfl
@[simp] theorem setOrder_left (o : Nat) (n : Node) : (setOrder o n).left = n.left := rfl
@[simp] theorem setOrder_right (o : Nat) (n : Node) : (setOrder o n).right = n.right := rfl
@[simp] theorem addWeight_weight (n : Node) : (addWeight n).weight = n.weight + 1 := rfl
@[simp] theorem addWeight_symbol (n : Node) : (addWeight n).symbol = n.symbol := rfl
@[simp] theorem addWeight_order (n : Node) : (addWeight n).order = n.order := rfl
@[simp] theorem addWeight_parent (n : Node) : (addWeight n).parent = n.parent := rfl
@[simp] theorem addWeight_left (n : Node) : (addWeight n).left = n.left := rfl
@[simp] theorem addWeight_right (n : Node) : (addWeight n).right = n.right := rfl
@[simp] theorem setChildren_weight (l r : Nat) (n : Node) : (setChildren l r n).weight = n.weight := rfl
@[simp] theorem setChildren_symbol (l r : Nat) (n : Node) : (setChildren l r n).symbol = n.symbol := rfl
@[simp] theorem setChildren_order (l r : Nat) (n : Node) : (setChildren l r n).order = n.order := rfl
@[simp] theorem setChildren_parent (l r : Nat) (n : Node) : (setChildren l r n).parent = n.parent := rfl
@[simp] theorem setChildren_left (l r : Nat) (n : Node) : (setChildren l r n).left = some l := rfl
@[simp] theorem setChildren_right (l r : Nat) (n : Node) : (setChildren l r n).right = some r := rfl

theorem setChild_left (b : Bool) (i : Nat) (n : Node) :
    (setChild b i n).left = if b then n.left else some i := by cases b <;> rfl
theorem setChild_right (b : Bool) (i : Nat) (n : Node) :
    (setChild b i n).right = if b then some i else n.right := by cases b <;> rfl
@[simp] theorem setChild_weight (b : Bool) (i : Nat) (n : Node) : (setChild b i n).weight = n.weight := by
  cases b <;> rfl
@[simp] theorem setChild_symbol (b : Bool) (i : Nat) (n : Node) : (setChild b i n).symbol = n.symbol := by
  cases b <;> rfl
@[simp] theorem setChild_order (b : Bool) (i : Nat) (n : Node) : (setChild b i n).order = n.order := by
  cases b <;> rfl
@[simp] theorem setChild_parent (b : Bool) (i : Nat) (n : Node) : (setChild b i n).parent = n.parent := by
  cases b <;> rfl

/-! ### Sides -/

theorem sideOf_left {t : CodeTree} {i p : Nat} (hp : p < t.nLive) (h : (t.N p).left = some i) :
    sideOf t i p = .ok false := by
  simp [sideOf, nodeAt_of_live hp, h]

theorem sideOf_right {t : CodeTree} {i p : Nat} (hp : p < t.nLive) (hl : (t.N p).left ≠ some i)
    (h : (t.N p).right = some i) : sideOf t i p = .ok true := by
  simp [sideOf, nodeAt_of_live hp, h, hl]

/-! ### The leader -/

/-- R112: the scan keeps its first candidate or finds a later entry of the class with a larger order, and no entry of the
class exceeds what it answers. -/
theorem leaderScan_spec (w : Nat) (l : List Node) (k best o : Nat) :
    (leaderScan w l k best o = best ∧ ∀ n ∈ l, n.weight = w → n.order ≤ o) ∨
    (∃ j n, l[j]? = some n ∧ leaderScan w l k best o = k + j ∧ n.weight = w ∧ o < n.order ∧
      ∀ m ∈ l, m.weight = w → m.order ≤ n.order) := by
  induction l generalizing k best o with
  | nil => left; simp [leaderScan]
  | cons n rest ih =>
    unfold leaderScan
    by_cases h : n.weight = w ∧ n.order > o
    · rw [if_pos h]
      right
      rcases ih (k + 1) k n.order with ⟨hr, hmax⟩ | ⟨j, m, hj, hr, hw, ho, hmax⟩
      · refine ⟨0, n, by simp, by simpa using hr, h.1, h.2, ?_⟩
        intro m hm hmw
        rcases List.mem_cons.1 hm with rfl | hm
        · exact Nat.le_refl _
        · exact hmax m hm hmw
      · refine ⟨j + 1, m, by simpa using hj, by rw [hr]; omega, hw, by omega, ?_⟩
        intro m' hm' hmw
        rcases List.mem_cons.1 hm' with rfl | hm'
        · exact Nat.le_of_lt ho
        · exact hmax m' hm' hmw
    · rw [if_neg h]
      rcases ih (k + 1) best o with ⟨hr, hmax⟩ | ⟨j, m, hj, hr, hw, ho, hmax⟩
      · left
        refine ⟨hr, ?_⟩
        intro m hm hmw
        rcases List.mem_cons.1 hm with rfl | hm
        · omega
        · exact hmax m hm hmw
      · right
        refine ⟨j + 1, m, by simpa using hj, by rw [hr]; omega, hw, ho, ?_⟩
        intro m' hm' hmw
        rcases List.mem_cons.1 hm' with rfl | hm'
        · omega
        · exact hmax m' hm' hmw

theorem N_of_getElem? {t : CodeTree} {j : Nat} {n : Node} (h : t.nodes[j]? = some n) : t.N j = n := by
  simp [CodeTree.N, List.getD_eq_getElem?_getD, h]

theorem N_mem {t : CodeTree} {j : Nat} (h : j < t.nLive) : t.N j ∈ t.nodes := by
  unfold CodeTree.nLive at h
  have : t.N j = t.nodes[j] := N_of_getElem? (List.getElem?_eq_getElem h)
  rw [this]
  exact List.getElem_mem h

/-- R112: the leader of a live node is a live node of the same weight, of the largest order among those. -/
theorem leader_spec {t : CodeTree} {i : Nat} (hi : i < t.nLive) :
    ∃ q, leader t i = .ok q ∧ q < t.nLive ∧ (t.N q).weight = (t.N i).weight ∧
      (q = i ∨ (t.N i).order < (t.N q).order) ∧
      ∀ j, j < t.nLive → (t.N j).weight = (t.N i).weight → (t.N j).order ≤ (t.N q).order := by
  have hrun : leader t i = .ok (leaderScan (t.N i).weight t.nodes 0 i (t.N i).order) := by
    simp [leader, nodeAt_of_live hi]
  rcases leaderScan_spec (t.N i).weight t.nodes 0 i (t.N i).order with ⟨hr, hmax⟩ | ⟨j, n, hj, hr, hw, ho, hmax⟩
  · exact ⟨i, by rw [hrun, hr], hi, rfl, .inl rfl, fun j hj hjw => hmax _ (N_mem hj) hjw⟩
  · have hlt : j < t.nLive := (List.getElem?_eq_some_iff.1 hj).1
    have hn := N_of_getElem? hj
    refine ⟨j, by rw [hrun, hr]; simp, hlt, by rw [hn, hw], .inr (by rw [hn]; exact ho), ?_⟩
    intro m hm hmw
    rw [hn]
    exact hmax _ (N_mem hm) hmw

end Sys2Proof.Machine
end

