-- ==== Sys2Proof/Laws/State.lean ====
section
/-! SUPPORT. One lemma per field per state update, each true by definition, so that no later proof unfolds a record
update; and the same for hard reset, whose fields are those of the reset state but for the environment's. -/

namespace Sys2Proof.Machine

open Sys2Proof

/-! ### `sinkPut` -/

@[simp] theorem sinkPut_tree (v : Byte) (s : State) : (sinkPut v s).tree = s.tree := rfl
@[simp] theorem sinkPut_wAcc (v : Byte) (s : State) : (sinkPut v s).wAcc = s.wAcc := rfl
@[simp] theorem sinkPut_wCnt (v : Byte) (s : State) : (sinkPut v s).wCnt = s.wCnt := rfl
@[simp] theorem sinkPut_rAcc (v : Byte) (s : State) : (sinkPut v s).rAcc = s.rAcc := rfl
@[simp] theorem sinkPut_rCnt (v : Byte) (s : State) : (sinkPut v s).rCnt = s.rCnt := rfl
@[simp] theorem sinkPut_busy (v : Byte) (s : State) : (sinkPut v s).busy = s.busy := rfl
@[simp] theorem sinkPut_fault (v : Byte) (s : State) : (sinkPut v s).fault = s.fault := rfl
@[simp] theorem sinkPut_faultCode (v : Byte) (s : State) : (sinkPut v s).faultCode = s.faultCode := rfl
@[simp] theorem sinkPut_stopReason (v : Byte) (s : State) : (sinkPut v s).stopReason = s.stopReason := rfl
@[simp] theorem sinkPut_rsp (v : Byte) (s : State) : (sinkPut v s).rsp = s.rsp := rfl
@[simp] theorem sinkPut_pathLen (v : Byte) (s : State) : (sinkPut v s).pathLen = s.pathLen := rfl
@[simp] theorem sinkPut_pathBits (v : Byte) (s : State) : (sinkPut v s).pathBits = s.pathBits := rfl
@[simp] theorem sinkPut_source (v : Byte) (s : State) : (sinkPut v s).source = s.source := rfl
@[simp] theorem sinkPut_pos (v : Byte) (s : State) : (sinkPut v s).pos = s.pos := rfl
@[simp] theorem sinkPut_sink (v : Byte) (s : State) : (sinkPut v s).sink = s.sink ++ [v] := rfl
@[simp] theorem sinkPut_host (v : Byte) (s : State) : (sinkPut v s).host = s.host := rfl
@[simp] theorem sinkPut_cuts (v : Byte) (s : State) : (sinkPut v s).cuts = s.cuts := rfl

/-! ### `setTree` -/

@[simp] theorem setTree_tree (t : CodeTree) (s : State) : (setTree t s).tree = t := rfl
@[simp] theorem setTree_wAcc (t : CodeTree) (s : State) : (setTree t s).wAcc = s.wAcc := rfl
@[simp] theorem setTree_wCnt (t : CodeTree) (s : State) : (setTree t s).wCnt = s.wCnt := rfl
@[simp] theorem setTree_rAcc (t : CodeTree) (s : State) : (setTree t s).rAcc = s.rAcc := rfl
@[simp] theorem setTree_rCnt (t : CodeTree) (s : State) : (setTree t s).rCnt = s.rCnt := rfl
@[simp] theorem setTree_busy (t : CodeTree) (s : State) : (setTree t s).busy = s.busy := rfl
@[simp] theorem setTree_fault (t : CodeTree) (s : State) : (setTree t s).fault = s.fault := rfl
@[simp] theorem setTree_faultCode (t : CodeTree) (s : State) : (setTree t s).faultCode = s.faultCode := rfl
@[simp] theorem setTree_stopReason (t : CodeTree) (s : State) : (setTree t s).stopReason = s.stopReason := rfl
@[simp] theorem setTree_rsp (t : CodeTree) (s : State) : (setTree t s).rsp = s.rsp := rfl
@[simp] theorem setTree_pathLen (t : CodeTree) (s : State) : (setTree t s).pathLen = s.pathLen := rfl
@[simp] theorem setTree_pathBits (t : CodeTree) (s : State) : (setTree t s).pathBits = s.pathBits := rfl
@[simp] theorem setTree_source (t : CodeTree) (s : State) : (setTree t s).source = s.source := rfl
@[simp] theorem setTree_pos (t : CodeTree) (s : State) : (setTree t s).pos = s.pos := rfl
@[simp] theorem setTree_sink (t : CodeTree) (s : State) : (setTree t s).sink = s.sink := rfl
@[simp] theorem setTree_host (t : CodeTree) (s : State) : (setTree t s).host = s.host := rfl
@[simp] theorem setTree_cuts (t : CodeTree) (s : State) : (setTree t s).cuts = s.cuts := rfl

/-! ### `respond` -/

@[simp] theorem respond_tree (st : Status) (v : BitVec 10) (s : State) : (respond st v s).tree = s.tree := rfl
@[simp] theorem respond_wAcc (st : Status) (v : BitVec 10) (s : State) : (respond st v s).wAcc = s.wAcc := rfl
@[simp] theorem respond_wCnt (st : Status) (v : BitVec 10) (s : State) : (respond st v s).wCnt = s.wCnt := rfl
@[simp] theorem respond_rAcc (st : Status) (v : BitVec 10) (s : State) : (respond st v s).rAcc = s.rAcc := rfl
@[simp] theorem respond_rCnt (st : Status) (v : BitVec 10) (s : State) : (respond st v s).rCnt = s.rCnt := rfl
@[simp] theorem respond_busy (st : Status) (v : BitVec 10) (s : State) : (respond st v s).busy = false := rfl
@[simp] theorem respond_fault (st : Status) (v : BitVec 10) (s : State) : (respond st v s).fault = s.fault := rfl
@[simp] theorem respond_faultCode (st : Status) (v : BitVec 10) (s : State) : (respond st v s).faultCode = s.faultCode := rfl
@[simp] theorem respond_stopReason (st : Status) (v : BitVec 10) (s : State) : (respond st v s).stopReason = s.stopReason := rfl
@[simp] theorem respond_rsp (st : Status) (v : BitVec 10) (s : State) : (respond st v s).rsp = response st v := rfl
@[simp] theorem respond_pathLen (st : Status) (v : BitVec 10) (s : State) : (respond st v s).pathLen = s.pathLen := rfl
@[simp] theorem respond_pathBits (st : Status) (v : BitVec 10) (s : State) : (respond st v s).pathBits = s.pathBits := rfl
@[simp] theorem respond_source (st : Status) (v : BitVec 10) (s : State) : (respond st v s).source = s.source := rfl
@[simp] theorem respond_pos (st : Status) (v : BitVec 10) (s : State) : (respond st v s).pos = s.pos := rfl
@[simp] theorem respond_sink (st : Status) (v : BitVec 10) (s : State) : (respond st v s).sink = s.sink := rfl
@[simp] theorem respond_host (st : Status) (v : BitVec 10) (s : State) : (respond st v s).host = s.host := rfl
@[simp] theorem respond_cuts (st : Status) (v : BitVec 10) (s : State) : (respond st v s).cuts = s.cuts := rfl

/-! ### `refuse` -/

@[simp] theorem refuse_tree (r : RefuseReason) (s : State) : (refuse r s).tree = s.tree := rfl
@[simp] theorem refuse_wAcc (r : RefuseReason) (s : State) : (refuse r s).wAcc = s.wAcc := rfl
@[simp] theorem refuse_wCnt (r : RefuseReason) (s : State) : (refuse r s).wCnt = s.wCnt := rfl
@[simp] theorem refuse_rAcc (r : RefuseReason) (s : State) : (refuse r s).rAcc = s.rAcc := rfl
@[simp] theorem refuse_rCnt (r : RefuseReason) (s : State) : (refuse r s).rCnt = s.rCnt := rfl
@[simp] theorem refuse_busy (r : RefuseReason) (s : State) : (refuse r s).busy = false := rfl
@[simp] theorem refuse_fault (r : RefuseReason) (s : State) : (refuse r s).fault = s.fault := rfl
@[simp] theorem refuse_faultCode (r : RefuseReason) (s : State) : (refuse r s).faultCode = s.faultCode := rfl
@[simp] theorem refuse_stopReason (r : RefuseReason) (s : State) : (refuse r s).stopReason = s.stopReason := rfl
@[simp] theorem refuse_rsp (r : RefuseReason) (s : State) : (refuse r s).rsp = response .refused r.code := rfl
@[simp] theorem refuse_pathLen (r : RefuseReason) (s : State) : (refuse r s).pathLen = s.pathLen := rfl
@[simp] theorem refuse_pathBits (r : RefuseReason) (s : State) : (refuse r s).pathBits = s.pathBits := rfl
@[simp] theorem refuse_source (r : RefuseReason) (s : State) : (refuse r s).source = s.source := rfl
@[simp] theorem refuse_pos (r : RefuseReason) (s : State) : (refuse r s).pos = s.pos := rfl
@[simp] theorem refuse_sink (r : RefuseReason) (s : State) : (refuse r s).sink = s.sink := rfl
@[simp] theorem refuse_host (r : RefuseReason) (s : State) : (refuse r s).host = s.host := rfl
@[simp] theorem refuse_cuts (r : RefuseReason) (s : State) : (refuse r s).cuts = s.cuts := rfl

/-! ### `raiseFault` -/

@[simp] theorem raiseFault_tree (f : FaultCode) (s : State) : (raiseFault f s).tree = s.tree := rfl
@[simp] theorem raiseFault_wAcc (f : FaultCode) (s : State) : (raiseFault f s).wAcc = s.wAcc := rfl
@[simp] theorem raiseFault_wCnt (f : FaultCode) (s : State) : (raiseFault f s).wCnt = s.wCnt := rfl
@[simp] theorem raiseFault_rAcc (f : FaultCode) (s : State) : (raiseFault f s).rAcc = s.rAcc := rfl
@[simp] theorem raiseFault_rCnt (f : FaultCode) (s : State) : (raiseFault f s).rCnt = s.rCnt := rfl
@[simp] theorem raiseFault_busy (f : FaultCode) (s : State) : (raiseFault f s).busy = false := rfl
@[simp] theorem raiseFault_fault (f : FaultCode) (s : State) : (raiseFault f s).fault = true := rfl
@[simp] theorem raiseFault_faultCode (f : FaultCode) (s : State) : (raiseFault f s).faultCode = f := rfl
@[simp] theorem raiseFault_stopReason (f : FaultCode) (s : State) : (raiseFault f s).stopReason = s.stopReason := rfl
@[simp] theorem raiseFault_rsp (f : FaultCode) (s : State) : (raiseFault f s).rsp = response .fault f.code := rfl
@[simp] theorem raiseFault_pathLen (f : FaultCode) (s : State) : (raiseFault f s).pathLen = s.pathLen := rfl
@[simp] theorem raiseFault_pathBits (f : FaultCode) (s : State) : (raiseFault f s).pathBits = s.pathBits := rfl
@[simp] theorem raiseFault_source (f : FaultCode) (s : State) : (raiseFault f s).source = s.source := rfl
@[simp] theorem raiseFault_pos (f : FaultCode) (s : State) : (raiseFault f s).pos = s.pos := rfl
@[simp] theorem raiseFault_sink (f : FaultCode) (s : State) : (raiseFault f s).sink = s.sink := rfl
@[simp] theorem raiseFault_host (f : FaultCode) (s : State) : (raiseFault f s).host = s.host := rfl
@[simp] theorem raiseFault_cuts (f : FaultCode) (s : State) : (raiseFault f s).cuts = s.cuts := rfl

/-! ### `clearWrite` -/

@[simp] theorem clearWrite_tree (s : State) : (clearWrite s).tree = s.tree := rfl
@[simp] theorem clearWrite_wAcc (s : State) : (clearWrite s).wAcc = 0 := rfl
@[simp] theorem clearWrite_wCnt (s : State) : (clearWrite s).wCnt = 0 := rfl
@[simp] theorem clearWrite_rAcc (s : State) : (clearWrite s).rAcc = s.rAcc := rfl
@[simp] theorem clearWrite_rCnt (s : State) : (clearWrite s).rCnt = s.rCnt := rfl
@[simp] theorem clearWrite_busy (s : State) : (clearWrite s).busy = s.busy := rfl
@[simp] theorem clearWrite_fault (s : State) : (clearWrite s).fault = s.fault := rfl
@[simp] theorem clearWrite_faultCode (s : State) : (clearWrite s).faultCode = s.faultCode := rfl
@[simp] theorem clearWrite_stopReason (s : State) : (clearWrite s).stopReason = s.stopReason := rfl
@[simp] theorem clearWrite_rsp (s : State) : (clearWrite s).rsp = s.rsp := rfl
@[simp] theorem clearWrite_pathLen (s : State) : (clearWrite s).pathLen = s.pathLen := rfl
@[simp] theorem clearWrite_pathBits (s : State) : (clearWrite s).pathBits = s.pathBits := rfl
@[simp] theorem clearWrite_source (s : State) : (clearWrite s).source = s.source := rfl
@[simp] theorem clearWrite_pos (s : State) : (clearWrite s).pos = s.pos := rfl
@[simp] theorem clearWrite_sink (s : State) : (clearWrite s).sink = s.sink := rfl
@[simp] theorem clearWrite_host (s : State) : (clearWrite s).host = s.host := rfl
@[simp] theorem clearWrite_cuts (s : State) : (clearWrite s).cuts = s.cuts := rfl

/-! ### `clearRead` -/

@[simp] theorem clearRead_tree (s : State) : (clearRead s).tree = s.tree := rfl
@[simp] theorem clearRead_wAcc (s : State) : (clearRead s).wAcc = s.wAcc := rfl
@[simp] theorem clearRead_wCnt (s : State) : (clearRead s).wCnt = s.wCnt := rfl
@[simp] theorem clearRead_rAcc (s : State) : (clearRead s).rAcc = 0 := rfl
@[simp] theorem clearRead_rCnt (s : State) : (clearRead s).rCnt = 0 := rfl
@[simp] theorem clearRead_busy (s : State) : (clearRead s).busy = s.busy := rfl
@[simp] theorem clearRead_fault (s : State) : (clearRead s).fault = s.fault := rfl
@[simp] theorem clearRead_faultCode (s : State) : (clearRead s).faultCode = s.faultCode := rfl
@[simp] theorem clearRead_stopReason (s : State) : (clearRead s).stopReason = s.stopReason := rfl
@[simp] theorem clearRead_rsp (s : State) : (clearRead s).rsp = s.rsp := rfl
@[simp] theorem clearRead_pathLen (s : State) : (clearRead s).pathLen = s.pathLen := rfl
@[simp] theorem clearRead_pathBits (s : State) : (clearRead s).pathBits = s.pathBits := rfl
@[simp] theorem clearRead_source (s : State) : (clearRead s).source = s.source := rfl
@[simp] theorem clearRead_pos (s : State) : (clearRead s).pos = s.pos := rfl
@[simp] theorem clearRead_sink (s : State) : (clearRead s).sink = s.sink := rfl
@[simp] theorem clearRead_host (s : State) : (clearRead s).host = s.host := rfl
@[simp] theorem clearRead_cuts (s : State) : (clearRead s).cuts = s.cuts := rfl

/-! ### `stopDecoding` -/

@[simp] theorem stopDecoding_tree (r : StopReason) (s : State) : (stopDecoding r s).tree = s.tree := rfl
@[simp] theorem stopDecoding_wAcc (r : StopReason) (s : State) : (stopDecoding r s).wAcc = s.wAcc := rfl
@[simp] theorem stopDecoding_wCnt (r : StopReason) (s : State) : (stopDecoding r s).wCnt = s.wCnt := rfl
@[simp] theorem stopDecoding_rAcc (r : StopReason) (s : State) : (stopDecoding r s).rAcc = s.rAcc := rfl
@[simp] theorem stopDecoding_rCnt (r : StopReason) (s : State) : (stopDecoding r s).rCnt = s.rCnt := rfl
@[simp] theorem stopDecoding_busy (r : StopReason) (s : State) : (stopDecoding r s).busy = false := rfl
@[simp] theorem stopDecoding_fault (r : StopReason) (s : State) : (stopDecoding r s).fault = s.fault := rfl
@[simp] theorem stopDecoding_faultCode (r : StopReason) (s : State) : (stopDecoding r s).faultCode = s.faultCode := rfl
@[simp] theorem stopDecoding_stopReason (r : StopReason) (s : State) : (stopDecoding r s).stopReason = r := rfl
@[simp] theorem stopDecoding_rsp (r : StopReason) (s : State) : (stopDecoding r s).rsp = response .ok r.code := rfl
@[simp] theorem stopDecoding_pathLen (r : StopReason) (s : State) : (stopDecoding r s).pathLen = s.pathLen := rfl
@[simp] theorem stopDecoding_pathBits (r : StopReason) (s : State) : (stopDecoding r s).pathBits = s.pathBits := rfl
@[simp] theorem stopDecoding_source (r : StopReason) (s : State) : (stopDecoding r s).source = s.source := rfl
@[simp] theorem stopDecoding_pos (r : StopReason) (s : State) : (stopDecoding r s).pos = s.pos := rfl
@[simp] theorem stopDecoding_sink (r : StopReason) (s : State) : (stopDecoding r s).sink = s.sink := rfl
@[simp] theorem stopDecoding_host (r : StopReason) (s : State) : (stopDecoding r s).host = s.host := rfl
@[simp] theorem stopDecoding_cuts (r : StopReason) (s : State) : (stopDecoding r s).cuts = s.cuts := rfl

/-! ### `acceptWord` -/

@[simp] theorem acceptWord_tree (s : State) : (acceptWord s).tree = s.tree := rfl
@[simp] theorem acceptWord_wAcc (s : State) : (acceptWord s).wAcc = s.wAcc := rfl
@[simp] theorem acceptWord_wCnt (s : State) : (acceptWord s).wCnt = s.wCnt := rfl
@[simp] theorem acceptWord_rAcc (s : State) : (acceptWord s).rAcc = s.rAcc := rfl
@[simp] theorem acceptWord_rCnt (s : State) : (acceptWord s).rCnt = s.rCnt := rfl
@[simp] theorem acceptWord_busy (s : State) : (acceptWord s).busy = true := rfl
@[simp] theorem acceptWord_fault (s : State) : (acceptWord s).fault = s.fault := rfl
@[simp] theorem acceptWord_faultCode (s : State) : (acceptWord s).faultCode = s.faultCode := rfl
@[simp] theorem acceptWord_stopReason (s : State) : (acceptWord s).stopReason = s.stopReason := rfl
@[simp] theorem acceptWord_rsp (s : State) : (acceptWord s).rsp = s.rsp := rfl
@[simp] theorem acceptWord_pathLen (s : State) : (acceptWord s).pathLen = s.pathLen := rfl
@[simp] theorem acceptWord_pathBits (s : State) : (acceptWord s).pathBits = s.pathBits := rfl
@[simp] theorem acceptWord_source (s : State) : (acceptWord s).source = s.source := rfl
@[simp] theorem acceptWord_pos (s : State) : (acceptWord s).pos = s.pos := rfl
@[simp] theorem acceptWord_sink (s : State) : (acceptWord s).sink = s.sink := rfl
@[simp] theorem acceptWord_host (s : State) : (acceptWord s).host = s.host := rfl
@[simp] theorem acceptWord_cuts (s : State) : (acceptWord s).cuts = s.cuts := rfl

/-! ### `installSource` -/

@[simp] theorem installSource_tree (b : List Byte) (s : State) : (installSource b s).tree = s.tree := rfl
@[simp] theorem installSource_wAcc (b : List Byte) (s : State) : (installSource b s).wAcc = s.wAcc := rfl
@[simp] theorem installSource_wCnt (b : List Byte) (s : State) : (installSource b s).wCnt = s.wCnt := rfl
@[simp] theorem installSource_rAcc (b : List Byte) (s : State) : (installSource b s).rAcc = s.rAcc := rfl
@[simp] theorem installSource_rCnt (b : List Byte) (s : State) : (installSource b s).rCnt = s.rCnt := rfl
@[simp] theorem installSource_busy (b : List Byte) (s : State) : (installSource b s).busy = s.busy := rfl
@[simp] theorem installSource_fault (b : List Byte) (s : State) : (installSource b s).fault = s.fault := rfl
@[simp] theorem installSource_faultCode (b : List Byte) (s : State) : (installSource b s).faultCode = s.faultCode := rfl
@[simp] theorem installSource_stopReason (b : List Byte) (s : State) : (installSource b s).stopReason = s.stopReason := rfl
@[simp] theorem installSource_rsp (b : List Byte) (s : State) : (installSource b s).rsp = s.rsp := rfl
@[simp] theorem installSource_pathLen (b : List Byte) (s : State) : (installSource b s).pathLen = s.pathLen := rfl
@[simp] theorem installSource_pathBits (b : List Byte) (s : State) : (installSource b s).pathBits = s.pathBits := rfl
@[simp] theorem installSource_source (b : List Byte) (s : State) : (installSource b s).source = b := rfl
@[simp] theorem installSource_pos (b : List Byte) (s : State) : (installSource b s).pos = 0 := rfl
@[simp] theorem installSource_sink (b : List Byte) (s : State) : (installSource b s).sink = s.sink := rfl
@[simp] theorem installSource_host (b : List Byte) (s : State) : (installSource b s).host = s.host := rfl
@[simp] theorem installSource_cuts (b : List Byte) (s : State) : (installSource b s).cuts = s.cuts := rfl

/-! ### `newSink` -/

@[simp] theorem newSink_tree (s : State) : (newSink s).tree = s.tree := rfl
@[simp] theorem newSink_wAcc (s : State) : (newSink s).wAcc = s.wAcc := rfl
@[simp] theorem newSink_wCnt (s : State) : (newSink s).wCnt = s.wCnt := rfl
@[simp] theorem newSink_rAcc (s : State) : (newSink s).rAcc = s.rAcc := rfl
@[simp] theorem newSink_rCnt (s : State) : (newSink s).rCnt = s.rCnt := rfl
@[simp] theorem newSink_busy (s : State) : (newSink s).busy = s.busy := rfl
@[simp] theorem newSink_fault (s : State) : (newSink s).fault = s.fault := rfl
@[simp] theorem newSink_faultCode (s : State) : (newSink s).faultCode = s.faultCode := rfl
@[simp] theorem newSink_stopReason (s : State) : (newSink s).stopReason = s.stopReason := rfl
@[simp] theorem newSink_rsp (s : State) : (newSink s).rsp = s.rsp := rfl
@[simp] theorem newSink_pathLen (s : State) : (newSink s).pathLen = s.pathLen := rfl
@[simp] theorem newSink_pathBits (s : State) : (newSink s).pathBits = s.pathBits := rfl
@[simp] theorem newSink_source (s : State) : (newSink s).source = s.source := rfl
@[simp] theorem newSink_pos (s : State) : (newSink s).pos = s.pos := rfl
@[simp] theorem newSink_sink (s : State) : (newSink s).sink = [] := rfl
@[simp] theorem newSink_host (s : State) : (newSink s).host = s.host := rfl
@[simp] theorem newSink_cuts (s : State) : (newSink s).cuts = s.cuts := rfl

/-! ### `popMove` -/

@[simp] theorem popMove_tree (r : List HostMove) (s : State) : (popMove r s).tree = s.tree := rfl
@[simp] theorem popMove_wAcc (r : List HostMove) (s : State) : (popMove r s).wAcc = s.wAcc := rfl
@[simp] theorem popMove_wCnt (r : List HostMove) (s : State) : (popMove r s).wCnt = s.wCnt := rfl
@[simp] theorem popMove_rAcc (r : List HostMove) (s : State) : (popMove r s).rAcc = s.rAcc := rfl
@[simp] theorem popMove_rCnt (r : List HostMove) (s : State) : (popMove r s).rCnt = s.rCnt := rfl
@[simp] theorem popMove_busy (r : List HostMove) (s : State) : (popMove r s).busy = s.busy := rfl
@[simp] theorem popMove_fault (r : List HostMove) (s : State) : (popMove r s).fault = s.fault := rfl
@[simp] theorem popMove_faultCode (r : List HostMove) (s : State) : (popMove r s).faultCode = s.faultCode := rfl
@[simp] theorem popMove_stopReason (r : List HostMove) (s : State) : (popMove r s).stopReason = s.stopReason := rfl
@[simp] theorem popMove_rsp (r : List HostMove) (s : State) : (popMove r s).rsp = s.rsp := rfl
@[simp] theorem popMove_pathLen (r : List HostMove) (s : State) : (popMove r s).pathLen = s.pathLen := rfl
@[simp] theorem popMove_pathBits (r : List HostMove) (s : State) : (popMove r s).pathBits = s.pathBits := rfl
@[simp] theorem popMove_source (r : List HostMove) (s : State) : (popMove r s).source = s.source := rfl
@[simp] theorem popMove_pos (r : List HostMove) (s : State) : (popMove r s).pos = s.pos := rfl
@[simp] theorem popMove_sink (r : List HostMove) (s : State) : (popMove r s).sink = s.sink := rfl
@[simp] theorem popMove_host (r : List HostMove) (s : State) : (popMove r s).host = r := rfl
@[simp] theorem popMove_cuts (r : List HostMove) (s : State) : (popMove r s).cuts = s.cuts := rfl

/-! ### `presentWord` -/

@[simp] theorem presentWord_tree (w : Word) (s : State) : (presentWord w s).tree = s.tree := rfl
@[simp] theorem presentWord_wAcc (w : Word) (s : State) : (presentWord w s).wAcc = s.wAcc := rfl
@[simp] theorem presentWord_wCnt (w : Word) (s : State) : (presentWord w s).wCnt = s.wCnt := rfl
@[simp] theorem presentWord_rAcc (w : Word) (s : State) : (presentWord w s).rAcc = s.rAcc := rfl
@[simp] theorem presentWord_rCnt (w : Word) (s : State) : (presentWord w s).rCnt = s.rCnt := rfl
@[simp] theorem presentWord_busy (w : Word) (s : State) : (presentWord w s).busy = false := rfl
@[simp] theorem presentWord_fault (w : Word) (s : State) : (presentWord w s).fault = s.fault := rfl
@[simp] theorem presentWord_faultCode (w : Word) (s : State) : (presentWord w s).faultCode = s.faultCode := rfl
@[simp] theorem presentWord_stopReason (w : Word) (s : State) : (presentWord w s).stopReason = s.stopReason := rfl
@[simp] theorem presentWord_rsp (w : Word) (s : State) : (presentWord w s).rsp = s.rsp := rfl
@[simp] theorem presentWord_pathLen (w : Word) (s : State) : (presentWord w s).pathLen = s.pathLen := rfl
@[simp] theorem presentWord_pathBits (w : Word) (s : State) : (presentWord w s).pathBits = s.pathBits := rfl
@[simp] theorem presentWord_source (w : Word) (s : State) : (presentWord w s).source = s.source := rfl
@[simp] theorem presentWord_pos (w : Word) (s : State) : (presentWord w s).pos = s.pos := rfl
@[simp] theorem presentWord_sink (w : Word) (s : State) : (presentWord w s).sink = s.sink := rfl
@[simp] theorem presentWord_host (w : Word) (s : State) : (presentWord w s).host = .command w :: s.host := rfl
@[simp] theorem presentWord_cuts (w : Word) (s : State) : (presentWord w s).cuts = s.cuts := rfl

/-! ### `hardReset` -/

@[simp] theorem hardReset_tree (c : Config) (s : State) : (hardReset c s).tree = treeReset c := rfl
@[simp] theorem hardReset_wAcc (c : Config) (s : State) : (hardReset c s).wAcc = (State.resetOf c).wAcc := rfl
@[simp] theorem hardReset_wCnt (c : Config) (s : State) : (hardReset c s).wCnt = (State.resetOf c).wCnt := rfl
@[simp] theorem hardReset_rAcc (c : Config) (s : State) : (hardReset c s).rAcc = (State.resetOf c).rAcc := rfl
@[simp] theorem hardReset_rCnt (c : Config) (s : State) : (hardReset c s).rCnt = (State.resetOf c).rCnt := rfl
@[simp] theorem hardReset_busy (c : Config) (s : State) : (hardReset c s).busy = (State.resetOf c).busy := rfl
@[simp] theorem hardReset_fault (c : Config) (s : State) : (hardReset c s).fault = (State.resetOf c).fault := rfl
@[simp] theorem hardReset_faultCode (c : Config) (s : State) : (hardReset c s).faultCode = (State.resetOf c).faultCode := rfl
@[simp] theorem hardReset_stopReason (c : Config) (s : State) : (hardReset c s).stopReason = (State.resetOf c).stopReason := rfl
@[simp] theorem hardReset_rsp (c : Config) (s : State) : (hardReset c s).rsp = (State.resetOf c).rsp := rfl
@[simp] theorem hardReset_pathLen (c : Config) (s : State) : (hardReset c s).pathLen = (State.resetOf c).pathLen := rfl
@[simp] theorem hardReset_pathBits (c : Config) (s : State) : (hardReset c s).pathBits = (State.resetOf c).pathBits := rfl
@[simp] theorem hardReset_source (c : Config) (s : State) : (hardReset c s).source = s.source := rfl
@[simp] theorem hardReset_pos (c : Config) (s : State) : (hardReset c s).pos = s.pos := rfl
@[simp] theorem hardReset_sink (c : Config) (s : State) : (hardReset c s).sink = s.sink := rfl
@[simp] theorem hardReset_host (c : Config) (s : State) : (hardReset c s).host = s.host := rfl
@[simp] theorem hardReset_cuts (c : Config) (s : State) : (hardReset c s).cuts = s.cuts := rfl

/-! ### `cutShort` -/

@[simp] theorem cutShort_tree (s t : State) : (cutShort s t).tree = treeReset Config.ahte := rfl
@[simp] theorem cutShort_wAcc (s t : State) : (cutShort s t).wAcc = State.reset.wAcc := rfl
@[simp] theorem cutShort_wCnt (s t : State) : (cutShort s t).wCnt = State.reset.wCnt := rfl
@[simp] theorem cutShort_rAcc (s t : State) : (cutShort s t).rAcc = State.reset.rAcc := rfl
@[simp] theorem cutShort_rCnt (s t : State) : (cutShort s t).rCnt = State.reset.rCnt := rfl
@[simp] theorem cutShort_busy (s t : State) : (cutShort s t).busy = State.reset.busy := rfl
@[simp] theorem cutShort_fault (s t : State) : (cutShort s t).fault = State.reset.fault := rfl
@[simp] theorem cutShort_faultCode (s t : State) : (cutShort s t).faultCode = State.reset.faultCode := rfl
@[simp] theorem cutShort_stopReason (s t : State) : (cutShort s t).stopReason = State.reset.stopReason := rfl
@[simp] theorem cutShort_rsp (s t : State) : (cutShort s t).rsp = State.reset.rsp := rfl
@[simp] theorem cutShort_pathLen (s t : State) : (cutShort s t).pathLen = State.reset.pathLen := rfl
@[simp] theorem cutShort_pathBits (s t : State) : (cutShort s t).pathBits = State.reset.pathBits := rfl
@[simp] theorem cutShort_source (s t : State) : (cutShort s t).source = s.source := rfl
@[simp] theorem cutShort_pos (s t : State) : (cutShort s t).pos =
    s.pos + Config.freeCut (2 * s.cuts) % (t.pos - s.pos + 1) := rfl
@[simp] theorem cutShort_sink (s t : State) : (cutShort s t).sink =
    s.sink ++ (t.sink.drop s.sink.length).take (Config.freeCut (2 * s.cuts + 1)) := rfl
@[simp] theorem cutShort_host (s t : State) : (cutShort s t).host = s.host := rfl
@[simp] theorem cutShort_cuts (s t : State) : (cutShort s t).cuts = s.cuts + 1 := rfl

end Sys2Proof.Machine
end

