-- ==== Sys2Proof/Laws/Bits.lean ====
section
/-! SUPPORT. What the two sides of the BitChannel do, said once in terms of the bit sequences `bitsOut` and `bitsIn`
(41_bitchannel.md R145, R148), and what each operation leaves alone (R140). -/

namespace Sys2Proof.Machine

open Sys2Proof

/-! ### The low bits of a byte -/

@[simp] theorem lowBits_zero (v : Byte) : lowBits v 0 = [] := rfl

theorem lowBits_succ (v : Byte) (n : Nat) : lowBits v (n + 1) = v.getLsbD n :: lowBits v n := rfl

@[simp] theorem lowBits_length (v : Byte) (n : Nat) : (lowBits v n).length = n := by
  induction n with
  | zero => rfl
  | succ n ih => simp [lowBits_succ, ih]

theorem byteBits_eq_lowBits (v : Byte) : byteBits v = lowBits v 8 := rfl

@[simp] theorem byteBits_length (v : Byte) : (byteBits v).length = 8 := rfl

theorem lowBits_congr {u v : Byte} (n : Nat) (h : ∀ i, i < n → u.getLsbD i = v.getLsbD i) :
    lowBits u n = lowBits v n := by
  induction n with
  | zero => rfl
  | succ n ih => rw [lowBits_succ, lowBits_succ, h n (by omega), ih fun i hi => h i (by omega)]

/-- The last of the low bits is bit 0. -/
theorem lowBits_succ_last (v : Byte) (n : Nat) : lowBits v (n + 1) = lowBits (v >>> 1) n ++ [v.getLsbD 0] := by
  induction n with
  | zero => rfl
  | succ n ih =>
    rw [lowBits_succ, ih, lowBits_succ]
    simp [BitVec.getLsbD_ushiftRight, Nat.add_comm]

@[simp] theorem bitByte_bit_zero (b : Bool) : (bitByte b).getLsbD 0 = b := by cases b <;> rfl

theorem bitByte_bit_succ (b : Bool) (i : Nat) : (bitByte b).getLsbD (i + 1) = false := by
  cases b
  · simp [bitByte]
  · unfold bitByte; rw [if_pos rfl]; exact (by simp [BitVec.getLsbD_one])

/-- R141: shifting a bit in puts it behind the bits held. -/
theorem lowBits_shiftIn (acc : Byte) (b : Bool) (n : Nat) (hn : n ≤ 7) :
    lowBits ((acc <<< 1) ||| bitByte b) (n + 1) = lowBits acc n ++ [b] := by
  rw [lowBits_succ_last]
  congr 1
  · refine lowBits_congr n fun i hi => ?_
    simp only [BitVec.getLsbD_ushiftRight, BitVec.getLsbD_or, BitVec.getLsbD_shiftLeft]
    rw [Nat.add_comm 1 i, bitByte_bit_succ]
    have h1 : i + 1 < 8 := by omega
    simp [h1]
  · congr 1
    rw [BitVec.getLsbD_or, bitByte_bit_zero]
    simp

/-- R143: the pending bits at the high end, zeros below. -/
theorem byteBits_pad (acc : Byte) (n : Nat) (hn : n < 8) :
    byteBits (acc <<< (8 - n)) = lowBits acc n ++ List.replicate (8 - n) false := by
  have : n = 0 ∨ n = 1 ∨ n = 2 ∨ n = 3 ∨ n = 4 ∨ n = 5 ∨ n = 6 ∨ n = 7 := by omega
  rcases this with rfl | rfl | rfl | rfl | rfl | rfl | rfl | rfl <;>
    simp [byteBits, lowBits, List.replicate]

/-- A byte is its bits (R67). -/
theorem byteBits_inj {u v : Byte} (h : byteBits u = byteBits v) : u = v := by
  apply BitVec.eq_of_getLsbD_eq
  intro i hi
  simp only [byteBits, List.map_cons, List.map_nil, List.cons.injEq] at h
  obtain ⟨h7, h6, h5, h4, h3, h2, h1, h0, -⟩ := h
  have : i = 0 ∨ i = 1 ∨ i = 2 ∨ i = 3 ∨ i = 4 ∨ i = 5 ∨ i = 6 ∨ i = 7 := by omega
  rcases this with rfl | rfl | rfl | rfl | rfl | rfl | rfl | rfl <;> assumption

theorem flatMap_byteBits_inj {l l' : List Byte} (h : l.flatMap byteBits = l'.flatMap byteBits) : l = l' := by
  induction l generalizing l' with
  | nil =>
    cases l' with
    | nil => rfl
    | cons v l' => rw [List.flatMap_nil, List.flatMap_cons] at h; cases h
  | cons u l ih =>
    cases l' with
    | nil => rw [List.flatMap_nil, List.flatMap_cons] at h; cases h
    | cons v l' =>
      rw [List.flatMap_cons, List.flatMap_cons] at h
      obtain ⟨h1, h2⟩ := List.append_inj h (by simp)
      rw [byteBits_inj h1, ih h2]

/-! ### The write side -/

/-- `s'` is `s` but for the write side and the sink. -/
def SameButWrite (s s' : State) : Prop := s' = { s with wAcc := s'.wAcc, wCnt := s'.wCnt, sink := s'.sink }

theorem SameButWrite.refl (s : State) : SameButWrite s s := rfl

theorem SameButWrite.trans {s1 s2 s3 : State} (h1 : SameButWrite s1 s2) (h2 : SameButWrite s2 s3) :
    SameButWrite s1 s3 := by
  unfold SameButWrite at *
  rw [h2, h1]

theorem writeBit_same (b : Bool) (s : State) : SameButWrite s (writeBit b s) := by
  unfold writeBit
  dsimp only
  split <;> rfl

/-- R145, one bit: it follows all bits given before. -/
theorem writeBit_bitsOut (b : Bool) (s : State) : bitsOut (writeBit b s) = bitsOut s ++ [b] := by
  have hc := s.wCnt.isLt
  have hin := lowBits_shiftIn s.wAcc b s.wCnt.val (by omega)
  unfold writeBit
  dsimp only
  split
  · simp only [bitsOut, hin, List.append_assoc]
  · have h7 : s.wCnt.val = 7 := by omega
    rw [h7] at hin
    have hb : byteBits (s.wAcc <<< 1 ||| bitByte b) = lowBits s.wAcc 7 ++ [b] := hin
    simp [bitsOut, sinkPut, List.flatMap_append, hb, h7]

/-- R36: the count after a bit. -/
theorem writeBit_wCnt (b : Bool) (s : State) : (writeBit b s).wCnt.val = (s.wCnt.val + 1) % 8 := by
  have hc := s.wCnt.isLt
  unfold writeBit
  dsimp only
  split
  · show s.wCnt.val + 1 = _
    omega
  · show 0 = _
    omega

/-- The accumulator shifted with one more bit keeps its bound. -/
theorem shiftIn_lt (acc : Byte) (b : Bool) (n : Nat) (hn : n < 7) (h : acc.toNat < 2 ^ n) :
    ((acc <<< 1) ||| bitByte b).toNat < 2 ^ (n + 1) := by
  have h8 : 2 ^ (n + 1) ≤ 2 ^ 8 := Nat.pow_le_pow_right (by omega) (by omega)
  have e : 2 ^ (n + 1) = 2 * 2 ^ n := by rw [Nat.pow_succ]; omega
  rw [BitVec.toNat_or]
  refine Nat.or_lt_two_pow ?_ ?_
  · rw [BitVec.toNat_shiftLeft]
    have : acc.toNat <<< 1 = 2 * acc.toNat := by rw [Nat.shiftLeft_eq]; omega
    rw [this]
    exact lt_of_le_of_lt (Nat.mod_le _ _) (by omega)
  · have hp : 0 < 2 ^ n := Nat.two_pow_pos n
    cases b
    · show 0 < _; omega
    · show 1 < _; omega

/-- R35: the accumulator stays below `2^W_CNT`. -/
theorem writeBit_wAcc_low (b : Bool) {s : State} (h : s.wAcc.toNat < 2 ^ s.wCnt.val) :
    (writeBit b s).wAcc.toNat < 2 ^ (writeBit b s).wCnt.val := by
  unfold writeBit
  dsimp only
  split
  · next hlt => exact shiftIn_lt s.wAcc b s.wCnt.val (by omega) h
  · exact Nat.lt_succ_self 0

@[simp] theorem writeBits_nil (s : State) : writeBits [] s = s := rfl

theorem writeBits_cons (b : Bool) (bits : List Bool) (s : State) :
    writeBits (b :: bits) s = writeBits bits (writeBit b s) := rfl

theorem writeBits_append (bs cs : List Bool) (s : State) :
    writeBits (bs ++ cs) s = writeBits cs (writeBits bs s) := List.foldl_append

theorem writeBits_same (bits : List Bool) (s : State) : SameButWrite s (writeBits bits s) := by
  induction bits generalizing s with
  | nil => rfl
  | cons b bits ih => exact (writeBit_same b s).trans (ih (writeBit b s))

/-- R145: bits given one after the other come out in that order. -/
theorem writeBits_bitsOut (bits : List Bool) (s : State) : bitsOut (writeBits bits s) = bitsOut s ++ bits := by
  induction bits generalizing s with
  | nil => simp
  | cons b bits ih => rw [writeBits_cons, ih, writeBit_bitsOut]; simp

theorem writeBits_wCnt (bits : List Bool) (s : State) :
    (writeBits bits s).wCnt.val = (s.wCnt.val + bits.length) % 8 := by
  induction bits generalizing s with
  | nil => have := s.wCnt.isLt; simp; omega
  | cons b bits ih => rw [writeBits_cons, ih, writeBit_wCnt, List.length_cons]; omega

theorem writeBits_wAcc_low (bits : List Bool) {s : State} (h : s.wAcc.toNat < 2 ^ s.wCnt.val) :
    (writeBits bits s).wAcc.toNat < 2 ^ (writeBits bits s).wCnt.val := by
  induction bits generalizing s with
  | nil => exact h
  | cons b bits ih => exact ih (writeBit_wAcc_low b h)

theorem flush_same (s : State) : SameButWrite s (flush s) := by
  unfold flush
  split <;> rfl

theorem flush_wCnt (s : State) : (flush s).wCnt = 0 := by
  unfold flush
  split
  · assumption
  · rfl

/-- R143: the registers after a flush; `W_ACC` was 0 when nothing is pending (R35). -/
theorem flush_wAcc {s : State} (h : s.wAcc.toNat < 2 ^ s.wCnt.val) : (flush s).wAcc = 0 := by
  unfold flush
  split
  · next h0 => rw [h0] at h; exact BitVec.eq_of_toNat_eq (by simpa using h)
  · rfl

/-- R143, R145: after a flush the sink holds the bits given, then zeros up to a whole byte. -/
theorem flush_bitsOut (s : State) :
    (flush s).sink.flatMap byteBits = bitsOut s ++ List.replicate ((8 - s.wCnt.val) % 8) false := by
  have hc := s.wCnt.isLt
  unfold flush
  split
  · next h0 => simp [bitsOut, h0]
  · next h0 =>
    have hpos : s.wCnt.val ≠ 0 := fun e => h0 (Fin.ext e)
    have hm : (8 - s.wCnt.val) % 8 = 8 - s.wCnt.val := Nat.mod_eq_of_lt (by omega)
    simp [sinkPut, List.flatMap_append, byteBits_pad s.wAcc s.wCnt.val hc, bitsOut, hm]

/-- The length of the bit sequence tells the count (R36). -/
theorem bitsOut_length (s : State) : (bitsOut s).length = 8 * s.sink.length + s.wCnt.val := by
  have : ∀ l : List Byte, (l.flatMap byteBits).length = 8 * l.length := by
    intro l
    induction l with
    | nil => rfl
    | cons v l ih => simp only [List.flatMap_cons, List.length_append, ih, byteBits_length, List.length_cons]; omega
  simp [bitsOut, this]

/-! ### The read side -/

/-- `s'` is `s` but for the read side and the position in the source. -/
def SameButRead (s s' : State) : Prop := s' = { s with rAcc := s'.rAcc, rCnt := s'.rCnt, pos := s'.pos }

theorem SameButRead.refl (s : State) : SameButRead s s := rfl

theorem SameButRead.trans {s1 s2 s3 : State} (h1 : SameButRead s1 s2) (h2 : SameButRead s2 s3) :
    SameButRead s1 s3 := by
  unfold SameButRead at *
  rw [h2, h1]

theorem flatMap_byteBits_length (l : List Byte) : (l.flatMap byteBits).length = 8 * l.length := by
  induction l with
  | nil => rfl
  | cons v l ih => simp only [List.flatMap_cons, List.length_append, ih, byteBits_length, List.length_cons]; omega

theorem bitsIn_length (s : State) : (bitsIn s).length = bitsLeft s := by
  rw [bitsIn, List.length_append, flatMap_byteBits_length, lowBits_length, List.length_drop]
  rfl

/-- R62: the next byte, or the end. -/
theorem srcNext_cases (s : State) :
    (s.source.drop s.pos = [] ∧ srcNext s = none) ∨
    ∃ v, s.source.drop s.pos = v :: s.source.drop (s.pos + 1) ∧ s.pos < s.source.length ∧
      srcNext s = some (v, { s with pos := s.pos + 1 }) := by
  by_cases h : s.pos < s.source.length
  · right
    refine ⟨s.source[s.pos], List.drop_eq_getElem_cons h, h, ?_⟩
    simp [srcNext, List.getElem?_eq_getElem h]
  · left
    refine ⟨List.drop_eq_nil_of_le (by omega), ?_⟩
    simp [srcNext, List.getElem?_eq_none (by omega : s.source.length ≤ s.pos)]

/-- The bit returned when bits are held (R146). -/
theorem readBit_held {s : State} {n : Nat} (h : s.rCnt.val = n + 1) :
    readBit s = some (s.rAcc.getLsbD n, { s with rCnt := ⟨n, by have := s.rCnt.isLt; omega⟩ }) := by
  have h0 : s.rCnt ≠ 0 := fun e => by rw [e] at h; simp at h
  simp [readBit, refill, h0, h]

/-- What `readBit` does (R146, R148): at the end of the input nothing, before it the first of the bits to come. -/
theorem readBit_cases (s : State) :
    (bitsIn s = [] ∧ readBit s = none) ∨
    ∃ b rest s', bitsIn s = b :: rest ∧ readBit s = some (b, s') ∧ bitsIn s' = rest ∧ SameButRead s s' ∧
      s'.rCnt.val ≤ 7 ∧ (SourceInv s → SourceInv s') := by
  by_cases h0 : s.rCnt = 0
  · rcases srcNext_cases s with ⟨hd, hn⟩ | ⟨v, hd, hlt, hn⟩
    · left
      exact ⟨by simp [bitsIn, h0, hd], by simp [readBit, refill, h0, hn]⟩
    · right
      refine ⟨v.getLsbD 7, lowBits v 7 ++ (s.source.drop (s.pos + 1)).flatMap byteBits,
        { s with pos := s.pos + 1, rAcc := v, rCnt := 7 }, ?_, ?_, ?_, rfl, Nat.le_refl 7, fun _ => hlt⟩
      · simp [bitsIn, h0, hd, byteBits_eq_lowBits, lowBits_succ v 7]
      · simp [readBit, refill, h0, hn]
      · rfl
  · right
    obtain ⟨n, hn⟩ : ∃ n, s.rCnt.val = n + 1 := ⟨s.rCnt.val - 1, by
      have : s.rCnt.val ≠ 0 := fun e => h0 (Fin.ext e)
      omega⟩
    have hlt := s.rCnt.isLt
    refine ⟨_, lowBits s.rAcc n ++ (s.source.drop s.pos).flatMap byteBits, _, ?_, readBit_held hn, rfl, rfl, ?_, id⟩
    · simp [bitsIn, hn, lowBits_succ]
    · show n ≤ 7
      omega

/-- R146: no bit left. -/
theorem readBit_eoi {s : State} (h : bitsIn s = []) : readBit s = none := by
  rcases readBit_cases s with ⟨-, h'⟩ | ⟨b, rest, s', h', -⟩
  · exact h'
  · rw [h] at h'; cases h'

/-- R146: one bit taken. -/
theorem readBit_bit {s : State} {b : Bool} {rest : List Bool} (h : bitsIn s = b :: rest) :
    ∃ s', readBit s = some (b, s') ∧ bitsIn s' = rest ∧ SameButRead s s' ∧ s'.rCnt.val ≤ 7 ∧
      (SourceInv s → SourceInv s') := by
  rcases readBit_cases s with ⟨h', -⟩ | ⟨b', rest', s', h', hr, hs⟩
  · rw [h] at h'; cases h'
  · rw [h] at h'; cases h'; exact ⟨s', hr, hs⟩

end Sys2Proof.Machine
end

