-- ==== Sys2Proof/Laws/Exchange.lean ====
section
/-! SUPPORT. What a shape gives at once (sides, unique parents, bounded chains), and what `swap` followed by
`exchangeOrders` does: the two subtrees trade positions and every position keeps its order (R114, R115, R197). -/

namespace Sys2Proof.Machine

open Sys2Proof

variable {c : Config} {t t' : CodeTree}

/-! ### Consequences of the shape -/

theorem TreeShape.root_live (h : TreeShape c t) : 0 < t.nLive := by have := h.odd; omega

theorem TreeShape.nyt_live (h : TreeShape c t) : t.nyt < t.nLive := by have := h.nyt_last; omega

theorem TreeShape.left_right_ne (h : TreeShape c t) {i l r : Nat} (hi : i < t.nLive) (hl : (t.N i).left = some l)
    (hr : (t.N i).right = some r) : l ≠ r := by
  rintro rfl
  have := h.siblings i hi l l hl hr
  omega

/-- R17: `side` is defined on every child, and tells the two apart. -/
theorem TreeShape.side_cases (h : TreeShape c t) {i p : Nat} (hi : i < t.nLive) (hp : (t.N i).parent = some p) :
    (sideOf t i p = .ok false ∧ (t.N p).left = some i ∧ (t.N p).right ≠ some i) ∨
    (sideOf t i p = .ok true ∧ (t.N p).right = some i ∧ (t.N p).left ≠ some i) := by
  obtain ⟨hpl, hl | hr⟩ := h.child_of_parent i hi p hp
  · left
    exact ⟨sideOf_left hpl hl, hl, fun hr => h.left_right_ne hpl hl hr rfl⟩
  · right
    have hl : (t.N p).left ≠ some i := fun hl => h.left_right_ne hpl hl hr rfl
    exact ⟨sideOf_right hpl hl hr, hr, hl⟩

/-- An internal node has both children. -/
theorem TreeShape.children (h : TreeShape c t) {i : Nat} (hi : i < t.nLive) (hn : (t.N i).left ≠ none) :
    ∃ l r, (t.N i).left = some l ∧ (t.N i).right = some r := by
  cases hl : (t.N i).left with
  | none => exact absurd hl hn
  | some l =>
    cases hr : (t.N i).right with
    | none => exact absurd ((h.two_or_none i hi).2 hr) hn
    | some r => exact ⟨l, r, rfl, rfl⟩

/-- A parent is internal. -/
theorem TreeShape.parent_internal (h : TreeShape c t) {i p : Nat} (hi : i < t.nLive) (hp : (t.N i).parent = some p) :
    p < t.nLive ∧ (t.N p).left ≠ none := by
  obtain ⟨hpl, hl | hr⟩ := h.child_of_parent i hi p hp
  · exact ⟨hpl, by simp [hl]⟩
  · exact ⟨hpl, fun hn => by simp [(h.two_or_none p hpl).1 hn] at hr⟩

/-- R197: a node's order is below its parent's. -/
theorem TreeShape.order_lt_parent (h : TreeShape c t) {i p : Nat} (hi : i < t.nLive) (hp : (t.N i).parent = some p) :
    (t.N i).order < (t.N p).order := by
  obtain ⟨hpl, hpi⟩ := h.parent_internal hi hp
  obtain ⟨l, r, hl, hr⟩ := h.children hpl hpi
  have h1 := h.siblings p hpl l r hl hr
  have h2 := h.parent_order p hpl r hr
  obtain ⟨_, hc | hc⟩ := h.child_of_parent i hi p hp
  · rw [hl] at hc; cases hc; omega
  · rw [hr] at hc; cases hc; omega

/-- The number of the sibling pair a node's order lies in, counted from the root's 0 (R197). -/
def pairIndex (c : Config) (t : CodeTree) (i : Nat) : Nat := (c.orderMax - (t.N i).order + 1) / 2

/-- R197: the parent's sibling pair comes strictly before the child's; this bounds every chain (R10, R200). -/
theorem TreeShape.pairIndex_parent (h : TreeShape c t) {i p : Nat} (hi : i < t.nLive)
    (hp : (t.N i).parent = some p) : pairIndex c t p < pairIndex c t i := by
  obtain ⟨hpl, hpi⟩ := h.parent_internal hi hp
  obtain ⟨l, r, hl, hr⟩ := h.children hpl hpi
  have h1 := h.siblings p hpl l r hl hr
  have h2 := h.parent_order p hpl r hr
  have h3 := h.left_parity p hpl l hl
  have h4 := (h.order_range p hpl).2
  unfold pairIndex
  obtain ⟨_, hc | hc⟩ := h.child_of_parent i hi p hp
  · rw [hl] at hc; cases hc; omega
  · rw [hr] at hc; cases hc; omega

theorem TreeShape.pairIndex_le (h : TreeShape c t) (hc : c.Valid) {i : Nat} (hi : i < t.nLive) :
    pairIndex c t i ≤ c.maxDepth := by
  have h1 := h.order_range i hi
  have h2 := h.next
  have h3 := h.cap
  have h4 := hc.1
  have h5 := hc.2.1
  unfold Config.orderMax at *
  unfold pairIndex Config.maxDepth Config.orderMax
  omega

/-- The chain of ancestors ends within the bound, and a property that the parent has and that passes from a node to its
parent holds of every ancestor. -/
theorem TreeShape.ancestors_all (h : TreeShape c t) (Q : Nat → Prop)
    (hstep : ∀ a g, a < t.nLive → Q a → (t.N a).parent = some g → Q g) (fuel i : Nat) (hi : i < t.nLive)
    (hf : pairIndex c t i ≤ fuel) (hQ : ∀ p, (t.N i).parent = some p → Q p) :
    ∃ as, ancestors t fuel i = .ok as ∧ ∀ a ∈ as, Q a := by
  induction fuel generalizing i with
  | zero =>
    cases hp : (t.N i).parent with
    | none => exact ⟨[], by unfold ancestors; simp [nodeAt_of_live hi, hp], by simp⟩
    | some p => have := h.pairIndex_parent hi hp; omega
  | succ fuel ih =>
    cases hp : (t.N i).parent with
    | none => exact ⟨[], by unfold ancestors; simp [nodeAt_of_live hi, hp], by simp⟩
    | some p =>
      have hpl := (h.parent_internal hi hp).1
      have hlt := h.pairIndex_parent hi hp
      obtain ⟨as, has, hall⟩ := ih p hpl (by omega) fun g hg => hstep p g hpl (hQ p hp) hg
      refine ⟨p :: as, by unfold ancestors; simp [nodeAt_of_live hi, hp, has], ?_⟩
      intro a ha
      rcases List.mem_cons.1 ha with rfl | ha
      · exact hQ a hp
      · exact hall a ha

/-! ### The exchange of two positions -/

/-- The transposition of two indices. -/
def trade (p q i : Nat) : Nat := if i = p then q else if i = q then p else i

@[simp] theorem trade_left (p q : Nat) : trade p q p = q := by simp [trade]
@[simp] theorem trade_right (p q : Nat) : trade p q q = p := by unfold trade; split <;> simp_all
theorem trade_other {p q i : Nat} (hp : i ≠ p) (hq : i ≠ q) : trade p q i = i := by simp [trade, hp, hq]
@[simp] theorem trade_trade (p q i : Nat) : trade p q (trade p q i) = i := by unfold trade; split_ifs <;> simp_all
theorem trade_inj {p q i j : Nat} (h : trade p q i = trade p q j) : i = j := by
  rw [← trade_trade p q i, h, trade_trade]
theorem trade_live {p q n i : Nat} (hp : p < n) (hq : q < n) (hi : i < n) : trade p q i < n := by
  unfold trade; split_ifs <;> assumption

/-- `t'` is `t` with the positions of `p` and `q` exchanged, each position keeping its order (R197). -/
structure Exchanged (p q : Nat) (t t' : CodeTree) : Prop where
  root : t'.root = t.root
  nyt : t'.nyt = t.nyt
  nLive : t'.nLive = t.nLive
  nextOrder : t'.nextOrder = t.nextOrder
  sym2leaf : t'.sym2leaf = t.sym2leaf
  weight : ∀ i, i < t.nLive → (t'.N i).weight = (t.N i).weight
  symbol : ∀ i, i < t.nLive → (t'.N i).symbol = (t.N i).symbol
  order : ∀ i, i < t.nLive → (t'.N i).order = (t.N (trade p q i)).order
  parent : ∀ i, i < t.nLive → (t'.N i).parent = (t.N (trade p q i)).parent
  left : ∀ i, i < t.nLive → (t'.N i).left = (t.N i).left.map (trade p q)
  right : ∀ i, i < t.nLive → (t'.N i).right = (t.N i).right.map (trade p q)
  ord2node_length : t'.ord2node.length = t.ord2node.length
  ord2node : ∀ o : Nat, t'.ord2node[o]? = if o = (t.N p).order then some (some q)
    else if o = (t.N q).order then some (some p) else t.ord2node[o]?

/-- One child pointer of a live node, after both parents' pointers have been rewritten. -/
theorem child_pointer_traded {p q pp qp x : Nat} {a : Option Nat} {P Q : Prop} [Decidable P] [Decidable Q]
    (hP : a = some p ↔ x = pp ∧ P) (hQ : a = some q ↔ x = qp ∧ Q) (hpq : p ≠ q) :
    (if x = qp ∧ Q then some p else if x = pp ∧ P then some q else a) = a.map (trade p q) := by
  cases a with
  | none =>
    have hnp : ¬ (x = pp ∧ P) := fun h => by simpa using hP.2 h
    have hnq : ¬ (x = qp ∧ Q) := fun h => by simpa using hQ.2 h
    rw [if_neg hnq, if_neg hnp]; rfl
  | some i =>
    by_cases h1 : i = p
    · subst h1
      have hx : x = pp ∧ P := hP.1 rfl
      have hnq : ¬ (x = qp ∧ Q) := fun h => hpq (Option.some.inj (hQ.2 h))
      rw [if_neg hnq, if_pos hx]; simp
    · by_cases h2 : i = q
      · subst h2
        have hx : x = qp ∧ Q := hQ.1 rfl
        rw [if_pos hx]; simp
      · have hnp : ¬ (x = pp ∧ P) := fun h => h1 (Option.some.inj (hP.2 h))
        have hnq : ¬ (x = qp ∧ Q) := fun h => h2 (Option.some.inj (hQ.2 h))
        rw [if_neg hnq, if_neg hnp]; simp [trade, h1, h2]

/-- R114 then R115 on two nodes of which neither is an ancestor of the other: defined, and the exchange of two positions. -/
theorem TreeShape.swap_exchange (h : TreeShape c t) {p q pp qp : Nat} (hp : p < t.nLive) (hq : q < t.nLive)
    (hpq : p ≠ q) (hpp : (t.N p).parent = some pp) (hqp : (t.N q).parent = some qp) {ap aq : List Nat}
    (hap : ancestors t c.maxDepth p = .ok ap) (haq : ancestors t c.maxDepth q = .ok aq) (hq_ap : q ∉ ap)
    (hp_aq : p ∉ aq) :
    ∃ t1 t2, swap c t p q = .ok t1 ∧ exchangeOrders t1 p q = .ok t2 ∧ Exchanged p q t t2 := by
  have hppl := (h.parent_internal hp hpp).1
  have hqpl := (h.parent_internal hq hqp).1
  obtain ⟨ps, hps, hpsL, hpsR⟩ : ∃ ps, sideOf t p pp = .ok ps ∧
      (∀ x, x < t.nLive → ((t.N x).left = some p ↔ x = pp ∧ ps = false)) ∧
      (∀ x, x < t.nLive → ((t.N x).right = some p ↔ x = pp ∧ ps = true)) := by
    have up : ∀ x, x < t.nLive → ((t.N x).left = some p ∨ (t.N x).right = some p) → x = pp := by
      rintro x hx (hl | hr)
      · exact Option.some.inj (((h.left_child x hx p hl).2).symm.trans hpp)
      · exact Option.some.inj (((h.right_child x hx p hr).2).symm.trans hpp)
    rcases h.side_cases hp hpp with ⟨h1, h2, h3⟩ | ⟨h1, h2, h3⟩
    · refine ⟨false, h1, fun x hx => ⟨fun hl => ⟨up x hx (.inl hl), rfl⟩, fun hl => hl.1 ▸ h2⟩, fun x hx => ?_⟩
      exact ⟨fun hr => absurd (up x hx (.inr hr) ▸ hr) h3, fun hr => by simp at hr⟩
    · refine ⟨true, h1, fun x hx => ?_, fun x hx => ⟨fun hr => ⟨up x hx (.inr hr), rfl⟩, fun hr => hr.1 ▸ h2⟩⟩
      exact ⟨fun hl => absurd (up x hx (.inl hl) ▸ hl) h3, fun hl => by simp at hl⟩
  obtain ⟨qs, hqs, hqsL, hqsR⟩ : ∃ qs, sideOf t q qp = .ok qs ∧
      (∀ x, x < t.nLive → ((t.N x).left = some q ↔ x = qp ∧ qs = false)) ∧
      (∀ x, x < t.nLive → ((t.N x).right = some q ↔ x = qp ∧ qs = true)) := by
    have up : ∀ x, x < t.nLive → ((t.N x).left = some q ∨ (t.N x).right = some q) → x = qp := by
      rintro x hx (hl | hr)
      · exact Option.some.inj (((h.left_child x hx q hl).2).symm.trans hqp)
      · exact Option.some.inj (((h.right_child x hx q hr).2).symm.trans hqp)
    rcases h.side_cases hq hqp with ⟨h1, h2, h3⟩ | ⟨h1, h2, h3⟩
    · refine ⟨false, h1, fun x hx => ⟨fun hl => ⟨up x hx (.inl hl), rfl⟩, fun hl => hl.1 ▸ h2⟩, fun x hx => ?_⟩
      exact ⟨fun hr => absurd (up x hx (.inr hr) ▸ hr) h3, fun hr => by simp at hr⟩
    · refine ⟨true, h1, fun x hx => ?_, fun x hx => ⟨fun hr => ⟨up x hx (.inr hr), rfl⟩, fun hr => hr.1 ▸ h2⟩⟩
      exact ⟨fun hl => absurd (up x hx (.inl hl) ▸ hl) h3, fun hl => by simp at hl⟩
  -- the symbol-table writes change nothing: a leaf's entry already names it
  have hleaf : ∀ i, i < t.nLive → ∀ s, (t.N i).symbol = some s → t.sym2leaf[s.val] = some i := by
    intro i hi s hs
    refine (h.sym2leaf_iff s i).2 ⟨hi, ?_, hs⟩
    by_contra hn
    rw [h.internal_unbound i hi hn] at hs
    exact absurd hs (by simp)
  have hr1 : rebind (t.N p).symbol p t = t := rebind_of_bound (hleaf p hp)
  have hr2 : rebind (t.N q).symbol q t = t := rebind_of_bound (hleaf q hq)
  have hqp' : q ≠ p := fun e => hpq e.symm
  refine ⟨(((t.modify pp (setChild ps q)).modify qp (setChild qs p)).modify p
      (setParent qp)).modify q (setParent pp), ?_⟩
  set t1 := (((t.modify pp (setChild ps q)).modify qp (setChild qs p)).modify p
      (setParent qp)).modify q (setParent pp) with ht1
  have hswap : swap c t p q = .ok t1 := by
    unfold swap
    simp only [nodeAt_of_live hp, nodeAt_of_live hq, ok_bind, hpp, hqp, hap, haq, hps, hqs, hr1, hr2]
    rw [if_neg (by simp [hq_ap, hp_aq, hpq])]
  have hN1 : ∀ x, t1.N x =
      if x = q then setParent pp (if x = p then setParent qp (if x = qp then setChild qs p
          (if x = pp then setChild ps q (t.N x) else t.N x) else if x = pp then setChild ps q (t.N x) else t.N x)
        else if x = qp then setChild qs p (if x = pp then setChild ps q (t.N x) else t.N x)
        else if x = pp then setChild ps q (t.N x) else t.N x)
      else if x = p then setParent qp (if x = qp then setChild qs p (if x = pp then setChild ps q (t.N x) else t.N x)
        else if x = pp then setChild ps q (t.N x) else t.N x)
      else if x = qp then setChild qs p (if x = pp then setChild ps q (t.N x) else t.N x)
      else if x = pp then setChild ps q (t.N x) else t.N x := by
    intro x
    simp only [ht1]
    rw [modify_N _ _ _ _ (by simpa using hq), modify_N _ _ _ _ (by simpa using hp),
      modify_N _ _ _ _ (by simpa using hqpl), modify_N _ _ _ _ hppl]
  have hlive1 : t1.nLive = t.nLive := by simp [ht1]
  have hord1 : ∀ x, (t1.N x).order = (t.N x).order := by
    intro x; simp [hN1, apply_ite Node.order]
  refine ⟨{ (t1.modify p (setOrder (t.N q).order)).modify q (setOrder (t.N p).order) with
      ord2node := (t1.ord2node.set (t.N q).order (some p)).set (t.N p).order (some q) }, hswap, ?_, ?_⟩
  · unfold exchangeOrders
    rw [nodeAt_of_live (by omega : p < t1.nLive), nodeAt_of_live (by omega : q < t1.nLive)]
    simp only [ok_bind, hord1]
    rfl
  set t2 : CodeTree := { (t1.modify p (setOrder (t.N q).order)).modify q (setOrder (t.N p).order) with
      ord2node := (t1.ord2node.set (t.N q).order (some p)).set (t.N p).order (some q) } with ht2
  have hN2 : ∀ x, t2.N x =
      if x = q then setOrder (t.N p).order (if x = p then setOrder (t.N q).order (t1.N x) else t1.N x)
      else if x = p then setOrder (t.N q).order (t1.N x) else t1.N x := by
    intro x
    have : t2.N x = ((t1.modify p (setOrder (t.N q).order)).modify q (setOrder (t.N p).order)).N x := rfl
    rw [this, modify_N _ _ _ _ (by simpa [hlive1] using hq), modify_N _ _ _ _ (by simpa [hlive1] using hp)]
  have hchild : ∀ x, (t2.N x).left = (if x = qp ∧ qs = false then some p
        else if x = pp ∧ ps = false then some q else (t.N x).left) ∧
      (t2.N x).right = (if x = qp ∧ qs = true then some p
        else if x = pp ∧ ps = true then some q else (t.N x).right) := by
    intro x
    simp only [hN2, hN1, apply_ite Node.left, apply_ite Node.right, setOrder_left, setOrder_right, setParent_left,
      setParent_right, setChild_left, setChild_right, ite_self]
    cases ps <;> cases qs <;> simp
  constructor
  · simp [ht2, ht1]
  · simp [ht2, ht1]
  · show ((t1.modify p _).modify q _).nLive = t.nLive
    simp [hlive1]
  · simp [ht2, ht1]
  · simp [ht2, ht1]
  · intro x _
    simp [hN2, hN1, apply_ite Node.weight]
  · intro x _
    simp [hN2, hN1, apply_ite Node.symbol]
  · intro x _
    simp only [hN2, apply_ite Node.order, setOrder_order, hord1, trade]
    split_ifs <;> simp_all
  · intro x _
    simp only [hN2, hN1, apply_ite Node.parent, setOrder_parent, setParent_parent, setChild_parent, ite_self, trade]
    split_ifs <;> simp_all
  · intro x hx
    rw [(hchild x).1]
    exact child_pointer_traded (hpsL x hx) (hqsL x hx) hpq
  · intro x hx
    rw [(hchild x).2]
    exact child_pointer_traded (hpsR x hx) (hqsR x hx) hpq
  · simp [ht2, ht1]
  · intro o
    have hop := (h.ord2node_iff _ p).2 ⟨hp, rfl⟩
    have hoq := (h.ord2node_iff _ q).2 ⟨hq, rfl⟩
    have hne : (t.N p).order ≠ (t.N q).order := fun e => hpq (h.order_distinct p q hp hq e)
    have hlp : (t.N p).order < t.ord2node.length := (List.getElem?_eq_some_iff.1 hop).1
    have hlq : (t.N q).order < t.ord2node.length := (List.getElem?_eq_some_iff.1 hoq).1
    have e : t2.ord2node[o]? = if o = (t.N p).order then some (some q)
        else if o = (t.N q).order then some (some p) else t.ord2node[o]? := by
      simp only [ht2, ht1, modify_ord2node, List.getElem?_set, List.length_set]
      by_cases h1 : o = (t.N p).order
      · subst h1; simp [hlp]
      · by_cases h2 : o = (t.N q).order
        · subst h2; simp [hlq, hne, hne.symm]
        · simp [h1, h2, Ne.symm h1, Ne.symm h2]
    exact e

end Sys2Proof.Machine
end

