-- ==== Sys2Proof/Laws/Path.lean ====
section
/-! SUPPORT. Paths: `pathOf` of a live node is defined, no longer than `MAX_DEPTH`, and leads from the root to the node and to
nothing else (40_codetree.md R103, R104). -/

namespace Sys2Proof.Machine

open Sys2Proof

variable {c : Config} {t : CodeTree}

@[simp] theorem descend_nil (t : CodeTree) (i : Nat) : descend t i [] = some i := rfl

theorem descend_append (t : CodeTree) (i : Nat) (xs ys : List Bool) :
    descend t i (xs ++ ys) = (descend t i xs).bind fun j => descend t j ys := by
  induction xs generalizing i with
  | nil => rfl
  | cons b xs ih =>
    simp only [List.cons_append, descend]
    cases (if b then (t.N i).right else (t.N i).left) with
    | none => rfl
    | some j => exact ih j

/-- One step down (R17). -/
theorem descend_cons_some {i j : Nat} {b : Bool} {rest : List Bool}
    (h : (if b then (t.N i).right else (t.N i).left) = some j) : descend t i (b :: rest) = descend t j rest := by
  simp only [descend, h]

theorem descend_singleton (i : Nat) (b : Bool) :
    descend t i [b] = if b then (t.N i).right else (t.N i).left := by
  simp only [descend]
  cases (if b then (t.N i).right else (t.N i).left) <;> rfl

/-- A child is live and knows its parent (R192). -/
theorem TreeShape.child_live (h : TreeShape c t) {i j : Nat} {b : Bool} (hi : i < t.nLive)
    (hj : (if b then (t.N i).right else (t.N i).left) = some j) : j < t.nLive ∧ (t.N j).parent = some i := by
  cases b
  · exact h.left_child i hi j hj
  · exact h.right_child i hi j hj

/-- R174: an internal node has both children. -/
theorem TreeShape.child_some (h : TreeShape c t) {i : Nat} (hi : i < t.nLive) (hn : (t.N i).left ≠ none) (b : Bool) :
    ∃ j, (if b then (t.N i).right else (t.N i).left) = some j := by
  obtain ⟨l, r, hl, hr⟩ := h.children hi hn
  cases b
  · exact ⟨l, hl⟩
  · exact ⟨r, hr⟩

/-- A leaf has no child (R24). -/
theorem TreeShape.child_none (h : TreeShape c t) {i : Nat} (hi : i < t.nLive) (hn : (t.N i).left = none) (b : Bool) :
    (if b then (t.N i).right else (t.N i).left) = none := by
  cases b
  · exact hn
  · exact (h.two_or_none i hi).1 hn

theorem TreeShape.childOf_ok {i j : Nat} {b : Bool} (hi : i < t.nLive)
    (hj : (if b then (t.N i).right else (t.N i).left) = some j) : childOf t i b = .ok j := by
  unfold childOf
  rw [nodeAt_of_live hi, ok_bind, hj]

theorem TreeShape.descend_live (h : TreeShape c t) {i j : Nat} {bits : List Bool} (hi : i < t.nLive)
    (hd : descend t i bits = some j) : j < t.nLive := by
  induction bits generalizing i with
  | nil => cases hd; exact hi
  | cons b bits ih =>
    cases hc : (if b then (t.N i).right else (t.N i).left) with
    | none => simp only [descend, hc] at hd; cases hd
    | some k =>
      rw [descend_cons_some hc] at hd
      exact ih (h.child_live hi hc).1 hd

/-- The loop of R103: defined, bounded, and its bits read backwards lead down from the root. -/
theorem TreeShape.sidesUp_spec (h : TreeShape c t) (fuel : Nat) {i : Nat} (hi : i < t.nLive)
    (hf : pairIndex c t i ≤ fuel) :
    ∃ ss, sidesUp t fuel i = .ok ss ∧ ss.length ≤ pairIndex c t i ∧ descend t 0 ss.reverse = some i := by
  induction fuel generalizing i with
  | zero =>
    cases hp : (t.N i).parent with
    | none =>
      refine ⟨[], by unfold sidesUp; simp [nodeAt_of_live hi, hp], Nat.zero_le _, ?_⟩
      rw [(h.parent_none i hi).1 hp]; rfl
    | some p => have := h.pairIndex_parent hi hp; omega
  | succ fuel ih =>
    cases hp : (t.N i).parent with
    | none =>
      refine ⟨[], by unfold sidesUp; simp [nodeAt_of_live hi, hp], Nat.zero_le _, ?_⟩
      rw [(h.parent_none i hi).1 hp]; rfl
    | some p =>
      have hlt := h.pairIndex_parent hi hp
      have hpl := (h.parent_internal hi hp).1
      obtain ⟨ss, hss, hlen, hd⟩ := ih hpl (by omega)
      have hside : ∃ b, sideOf t i p = .ok b ∧ (if b then (t.N p).right else (t.N p).left) = some i := by
        rcases h.side_cases hi hp with ⟨e, hl, -⟩ | ⟨e, hr, -⟩
        · exact ⟨false, e, hl⟩
        · exact ⟨true, e, hr⟩
      obtain ⟨b, hb, hchild⟩ := hside
      refine ⟨b :: ss, ?_, by simp only [List.length_cons]; omega, ?_⟩
      · unfold sidesUp
        simp [nodeAt_of_live hi, hp, hb, hss]
      · rw [List.reverse_cons, descend_append, hd]
        exact (descend_singleton p b).trans hchild

/-- R103, R104 (c): the path of a live node. -/
theorem TreeShape.pathOf_spec (h : TreeShape c t) (hc : c.Valid) {i : Nat} (hi : i < t.nLive) :
    ∃ bits, pathOf c t i = .ok bits ∧ bits.length ≤ c.maxDepth ∧ descend t 0 bits = some i := by
  obtain ⟨ss, hss, hlen, hd⟩ := h.sidesUp_spec c.maxDepth hi (h.pairIndex_le hc hi)
  refine ⟨ss.reverse, ?_, ?_, hd⟩
  · unfold pathOf
    rw [hss]; rfl
  · rw [List.length_reverse]
    exact hlen.trans (h.pairIndex_le hc hi)

/-- The last step of a way down. -/
theorem descend_snoc {i j : Nat} {xs : List Bool} {b : Bool} (hd : descend t i (xs ++ [b]) = some j) :
    ∃ k, descend t i xs = some k ∧ (if b then (t.N k).right else (t.N k).left) = some j := by
  rw [descend_append] at hd
  cases hk : descend t i xs with
  | none => rw [hk] at hd; cases hd
  | some k =>
    rw [hk] at hd
    exact ⟨k, rfl, (descend_singleton k b).symm.trans hd⟩

/-- R192 (c): only one way leads down from the root to a node. -/
theorem TreeShape.descend_inj (h : TreeShape c t) {xs ys : List Bool} {i : Nat} (hx : descend t 0 xs = some i)
    (hy : descend t 0 ys = some i) : xs = ys := by
  have hroot := h.root_live
  induction xs using List.reverseRecOn generalizing ys i with
  | nil =>
    cases hx
    rcases List.eq_nil_or_concat ys with rfl | ⟨ys', b, rfl⟩
    · rfl
    · rw [List.concat_eq_append] at hy
      obtain ⟨k, hk, hkb⟩ := descend_snoc hy
      have := (h.child_live (h.descend_live hroot hk) hkb).2
      rw [(h.parent_none 0 hroot).2 rfl] at this; cases this
  | append_singleton xs a ih =>
    obtain ⟨k, hk, hka⟩ := descend_snoc hx
    have hkl := h.descend_live hroot hk
    have hp := (h.child_live hkl hka).2
    rcases List.eq_nil_or_concat ys with rfl | ⟨ys', b, rfl⟩
    · cases hy
      rw [(h.parent_none 0 hroot).2 rfl] at hp; cases hp
    · rw [List.concat_eq_append] at hy ⊢
      obtain ⟨m, hm, hmb⟩ := descend_snoc hy
      have hp' := (h.child_live (h.descend_live hroot hm) hmb).2
      rw [hp] at hp'
      cases hp'
      rw [ih hk hm]
      congr 1
      cases a <;> cases b
      · rfl
      · exact absurd rfl (h.left_right_ne hkl hka hmb)
      · exact absurd rfl (h.left_right_ne hkl hmb hka)
      · rfl

/-- The path of a node is the way down to it. -/
theorem TreeShape.pathOf_of_descend (h : TreeShape c t) (hc : c.Valid) {i : Nat} {bits : List Bool}
    (hd : descend t 0 bits = some i) : pathOf c t i = .ok bits := by
  obtain ⟨bits', hp, -, hd'⟩ := h.pathOf_spec hc (h.descend_live h.root_live hd)
  rw [hp, h.descend_inj hd hd']

/-- R104 (d): the way to a leaf goes no further. -/
theorem TreeShape.leaf_path_maximal (h : TreeShape c t) {xs ys : List Bool} {l m : Nat}
    (hl : descend t 0 xs = some l) (hleaf : (t.N l).left = none) (hm : descend t 0 (xs ++ ys) = some m) : ys = [] := by
  rw [descend_append, hl] at hm
  cases ys with
  | nil => rfl
  | cons b ys =>
    simp only [Option.bind_some, descend, h.child_none (h.descend_live h.root_live hl) hleaf b] at hm
    cases hm

/-- R104 (a), R194: exactly the root has the empty path. -/
theorem TreeShape.path_nil_iff {i : Nat} {bits : List Bool} (h : TreeShape c t) (hd : descend t 0 bits = some i) :
    bits = [] ↔ i = 0 := by
  constructor
  · rintro rfl; exact (Option.some.inj hd).symm
  · rintro rfl; exact h.descend_inj hd (descend_nil t 0)

/-- Downwards the orders do not grow (R197). -/
theorem TreeShape.descend_order (h : TreeShape c t) {i j : Nat} {bits : List Bool} (hi : i < t.nLive)
    (hd : descend t i bits = some j) : (t.N j).order ≤ (t.N i).order := by
  induction bits generalizing i with
  | nil => cases hd; exact Nat.le_refl _
  | cons b bits ih =>
    cases hch : (if b then (t.N i).right else (t.N i).left) with
    | none => simp only [descend, hch] at hd; cases hd
    | some k =>
      rw [descend_cons_some hch] at hd
      obtain ⟨hk, hp⟩ := h.child_live hi hch
      exact (ih hk hd).trans (Nat.le_of_lt (h.order_lt_parent hk hp))

/-- What lies strictly below a node has a smaller order (R197). -/
theorem TreeShape.descend_lt (h : TreeShape c t) {i j : Nat} {bits : List Bool} (hi : i < t.nLive) (hb : bits ≠ [])
    (hd : descend t i bits = some j) : (t.N j).order < (t.N i).order := by
  obtain ⟨b, rest, rfl⟩ := List.exists_cons_of_ne_nil hb
  cases hch : (if b then (t.N i).right else (t.N i).left) with
  | none => simp only [descend, hch] at hd; cases hd
  | some k =>
    rw [descend_cons_some hch] at hd
    obtain ⟨hk, hp⟩ := h.child_live hi hch
    exact Nat.lt_of_le_of_lt (h.descend_order hk hd) (h.order_lt_parent hk hp)

/-- A node is above another exactly when it is that node or above its parent. -/
theorem TreeShape.above_iff (h : TreeShape c t) {i j p : Nat} (hi : i < t.nLive) (hj : j < t.nLive)
    (hp : (t.N i).parent = some p) :
    (∃ bits, descend t j bits = some i) ↔ j = i ∨ ∃ bits, descend t j bits = some p := by
  constructor
  · rintro ⟨bits, hd⟩
    rcases List.eq_nil_or_concat bits with rfl | ⟨xs, b, rfl⟩
    · exact .inl (Option.some.inj hd)
    · rw [List.concat_eq_append] at hd
      obtain ⟨k, hk, hkb⟩ := descend_snoc hd
      have := (h.child_live (h.descend_live hj hk) hkb).2
      rw [hp] at this; cases this
      exact .inr ⟨xs, hk⟩
  · rintro (rfl | ⟨bits, hd⟩)
    · exact ⟨[], rfl⟩
    · have hpl := (h.parent_internal hi hp).1
      rcases (h.child_of_parent i hi p hp).2 with e | e
      · exact ⟨bits ++ [false], by rw [descend_append, hd]; exact (descend_singleton p false).trans e⟩
      · exact ⟨bits ++ [true], by rw [descend_append, hd]; exact (descend_singleton p true).trans e⟩

/-- Only the root is above the root. -/
theorem TreeShape.above_root (h : TreeShape c t) {j : Nat} (hj : j < t.nLive) :
    (∃ bits, descend t j bits = some 0) ↔ j = 0 := by
  constructor
  · rintro ⟨bits, hd⟩
    rcases List.eq_nil_or_concat bits with rfl | ⟨xs, b, rfl⟩
    · exact Option.some.inj hd
    · rw [List.concat_eq_append] at hd
      obtain ⟨k, hk, hkb⟩ := descend_snoc hd
      have := (h.child_live (h.descend_live hj hk) hkb).2
      rw [(h.parent_none 0 h.root_live).2 rfl] at this; cases this
  · rintro rfl; exact ⟨[], rfl⟩

/-- What `ancestors` lists is above the node. -/
theorem TreeShape.above_of_mem_ancestors (h : TreeShape c t) {fuel i a : Nat} {as : List Nat} (hi : i < t.nLive)
    (ha : ancestors t fuel i = .ok as) (hm : a ∈ as) : ∃ bits, descend t a bits = some i := by
  suffices a < t.nLive ∧ ∃ bits, descend t a bits = some i from this.2
  induction fuel generalizing i as with
  | zero =>
    unfold ancestors at ha
    cases hp : (t.N i).parent with
    | none => simp [nodeAt_of_live hi, hp] at ha; subst ha; simp at hm
    | some p => simp [nodeAt_of_live hi, hp] at ha
  | succ fuel ih =>
    unfold ancestors at ha
    cases hp : (t.N i).parent with
    | none => simp [nodeAt_of_live hi, hp] at ha; subst ha; simp at hm
    | some p =>
      simp only [nodeAt_of_live hi, ok_bind, hp] at ha
      obtain ⟨rest, hr, hh⟩ := bind_eq_ok.1 ha
      cases hh
      have hpl := (h.parent_internal hi hp).1
      rcases List.mem_cons.1 hm with rfl | hm
      · exact ⟨hpl, (h.above_iff hi hpl hp).2 (.inr ⟨[], rfl⟩)⟩
      · obtain ⟨h1, h2⟩ := ih hpl hr hm
        exact ⟨h1, (h.above_iff hi h1 hp).2 (.inr h2)⟩

end Sys2Proof.Machine
end

