-- ==== Sys2Proof/Laws/Walk.lean ====
section
/-! SUPPORT. The walk of `update` (R111 to R116): one step from a state of the walk answers a state of the walk or, at the
root, a tree that meets every invariant; so the walk is defined, terminates within R119's bound and keeps R190's
invariants (R199, R200). -/

namespace Sys2Proof.Machine

open Sys2Proof

variable {c : Config} {t t' t1 : CodeTree}

/-! ### The exchange keeps the shape -/

/-- R197, R199: exchanging two positions keeps the shape when neither node is the NYT node or its parent and the children of
the node that moves down lie below the other's order. -/
theorem TreeShape.exchanged (h : TreeShape c t) {p q : Nat} (e : Exchanged p q t t') (hp : p < t.nLive)
    (hq : q < t.nLive) (hp0 : p ≠ 0) (hq0 : q ≠ 0) (hpn : p ≠ t.nyt) (hqn : q ≠ t.nyt)
    (hpq : (t.N p).order < (t.N q).order)
    (hkids : ∀ r, (t.N q).right = some r → (t.N r).order < (t.N p).order)
    (hbot : ∀ b, (t.N t.nyt).parent = some b → b ≠ p ∧ b ≠ q) : TreeShape c t' := by
  have hn := e.nLive
  have live : ∀ {i}, i < t'.nLive → trade p q i < t.nLive := fun hi => trade_live hp hq (hn ▸ hi)
  have hnl : t.nyt < t.nLive := h.nyt_live
  have tnyt : trade p q t.nyt = t.nyt := trade_other (Ne.symm hpn) (Ne.symm hqn)
  have back : ∀ {x i : Nat} {a : Option Nat}, a.map (trade p q) = some i → a = some (trade p q i) := by
    intro x i a ha
    cases a with
    | none => cases ha
    | some j => cases ha; simp
  have hleft : ∀ i, i < t'.nLive → ∀ l, (t'.N i).left = some l → (t.N i).left = some (trade p q l) := by
    intro i hi l hl
    rw [e.left i (hn ▸ hi)] at hl
    exact back (x := i) hl
  have hright : ∀ i, i < t'.nLive → ∀ r, (t'.N i).right = some r → (t.N i).right = some (trade p q r) := by
    intro i hi r hr
    rw [e.right i (hn ▸ hi)] at hr
    exact back (x := i) hr
  have hchild : ∀ i l, i < t.nLive → trade p q l < t.nLive → (t.N (trade p q l)).parent = some i →
      l < t'.nLive ∧ (t'.N l).parent = some i := by
    intro i l hi hl hpar
    have hll : l < t.nLive := by
      have := trade_live hp hq hl
      simpa using this
    exact ⟨hn ▸ hll, by rw [e.parent l hll, hpar]⟩
  constructor
  · rw [e.root]; exact h.root_zero
  · rw [hn]; exact h.odd
  · rw [hn]; exact h.cap
  · rw [hn, e.nextOrder]; exact h.next
  · rw [hn, e.nyt]; exact h.nyt_last
  · rw [e.ord2node_length]; exact h.ord2node_length
  · rw [e.order 0 h.root_live, trade_other (Ne.symm hp0) (Ne.symm hq0)]; exact h.root_order
  · intro i hi
    rw [e.parent i (hn ▸ hi), h.parent_none _ (live hi)]
    unfold trade
    split_ifs <;> omega
  · intro i hi
    rw [e.left i (hn ▸ hi), e.right i (hn ▸ hi)]
    simpa using h.two_or_none i (hn ▸ hi)
  · intro i hi l hl
    obtain ⟨h1, h2⟩ := h.left_child i (hn ▸ hi) _ (hleft i hi l hl)
    exact hchild i l (hn ▸ hi) h1 h2
  · intro i hi r hr
    obtain ⟨h1, h2⟩ := h.right_child i (hn ▸ hi) _ (hright i hi r hr)
    exact hchild i r (hn ▸ hi) h1 h2
  · intro i hi x hx
    rw [e.parent i (hn ▸ hi)] at hx
    obtain ⟨hxl, hc⟩ := h.child_of_parent _ (live hi) x hx
    refine ⟨hn ▸ hxl, ?_⟩
    rw [e.left x hxl, e.right x hxl]
    rcases hc with hc | hc
    · left; rw [hc]; simp
    · right; rw [hc]; simp
  · intro i hi l r hl hr
    have h1 := hleft i hi l hl
    have h2 := hright i hi r hr
    have hll := (h.left_child i (hn ▸ hi) _ h1).1
    have hrl := (h.right_child i (hn ▸ hi) _ h2).1
    have hll' : l < t.nLive := by simpa using trade_live hp hq hll
    have hrl' : r < t.nLive := by simpa using trade_live hp hq hrl
    rw [e.order l hll', e.order r hrl']
    exact h.siblings i (hn ▸ hi) _ _ h1 h2
  · intro i hi l hl
    have h1 := hleft i hi l hl
    have hll := (h.left_child i (hn ▸ hi) _ h1).1
    have hll' : l < t.nLive := by simpa using trade_live hp hq hll
    rw [e.order l hll']
    exact h.left_parity i (hn ▸ hi) _ h1
  · intro i hi r hr
    have h2 := hright i hi r hr
    have hrl := (h.right_child i (hn ▸ hi) _ h2).1
    have hrl' : r < t.nLive := by simpa using trade_live hp hq hrl
    have h3 := h.parent_order i (hn ▸ hi) _ h2
    rw [e.order r hrl', e.order i (hn ▸ hi)]
    by_cases h4 : i = p
    · subst h4; rw [trade_left]; omega
    · by_cases h5 : i = q
      · subst h5; rw [trade_right]; exact hkids _ h2
      · rw [trade_other h4 h5]; exact h3
  · intro i hi
    rw [e.nextOrder, e.order i (hn ▸ hi)]
    exact h.order_range _ (live hi)
  · intro i j hi hj hij
    rw [e.order i (hn ▸ hi), e.order j (hn ▸ hj)] at hij
    exact trade_inj (h.order_distinct _ _ (live hi) (live hj) hij)
  · intro o ho1 ho2
    rw [e.nextOrder] at ho1
    obtain ⟨i, hi, hio⟩ := h.order_used o ho1 ho2
    refine ⟨trade p q i, hn ▸ trade_live hp hq hi, ?_⟩
    rw [e.order _ (trade_live hp hq hi), trade_trade, hio]
  · intro o i
    rw [e.ord2node o, hn]
    by_cases h1 : o = (t.N p).order
    · rw [if_pos h1]
      constructor
      · intro hi
        have hi : q = i := by simpa using hi
        subst hi
        exact ⟨hq, by rw [e.order q hq, trade_right, h1]⟩
      · rintro ⟨hi, hio⟩
        rw [e.order i hi, h1] at hio
        have := h.order_distinct _ _ (trade_live hp hq hi) hp hio
        have : i = q := by rw [← trade_trade p q i, this, trade_left]
        rw [this]
    · rw [if_neg h1]
      by_cases h2 : o = (t.N q).order
      · rw [if_pos h2]
        constructor
        · intro hi
          have hi : p = i := by simpa using hi
          subst hi
          exact ⟨hp, by rw [e.order p hp, trade_left, h2]⟩
        · rintro ⟨hi, hio⟩
          rw [e.order i hi, h2] at hio
          have := h.order_distinct _ _ (trade_live hp hq hi) hq hio
          have : i = p := by rw [← trade_trade p q i, this, trade_right]
          rw [this]
      · rw [if_neg h2, h.ord2node_iff]
        constructor
        · rintro ⟨hi, hio⟩
          refine ⟨hi, ?_⟩
          rw [e.order i hi, trade_other, hio]
          · rintro rfl; exact h1 hio.symm
          · rintro rfl; exact h2 hio.symm
        · rintro ⟨hi, hio⟩
          refine ⟨hi, ?_⟩
          rw [e.order i hi] at hio
          by_cases h3 : i = p
          · subst h3; rw [trade_left] at hio; exact absurd hio.symm h2
          · by_cases h4 : i = q
            · subst h4; rw [trade_right] at hio; exact absurd hio.symm h1
            · rwa [trade_other h3 h4] at hio
  · intro o ho
    rw [e.nextOrder] at ho
    have hf := h.ord2node_free o ho
    rw [e.ord2node o, if_neg, if_neg, hf]
    · rintro rfl
      have := (h.order_range q hq).1
      omega
    · rintro rfl
      have := (h.order_range p hp).1
      omega
  · rw [e.nyt, e.left _ hnl, h.nyt_leaf]; rfl
  · rw [e.nyt, e.symbol _ hnl, h.nyt_unbound]
  · rw [e.nyt, e.order _ hnl, tnyt, e.nextOrder]; exact h.nyt_order
  · intro b hb
    rw [e.nyt, e.parent _ hnl, tnyt] at hb
    obtain ⟨h1, h2⟩ := h.bottom b hb
    obtain ⟨hbp, hbq⟩ := hbot b hb
    have hbl := (h.parent_internal hnl hb).1
    rw [e.nyt, e.left b hbl, h1, e.order b hbl, e.order _ hnl, tnyt, trade_other hbp hbq]
    exact ⟨by simp [tnyt], h2⟩
  · intro i hi hl hin
    rw [e.left i (hn ▸ hi)] at hl
    rw [e.nyt] at hin
    rw [e.symbol i (hn ▸ hi)]
    exact h.leaf_bound i (hn ▸ hi) (by simpa using hl) hin
  · intro i hi hl
    rw [e.left i (hn ▸ hi)] at hl
    rw [e.symbol i (hn ▸ hi)]
    exact h.internal_unbound i (hn ▸ hi) (by simpa using hl)
  · intro s i
    rw [e.sym2leaf, h.sym2leaf_iff, hn]
    constructor
    · rintro ⟨hi, hl, hs⟩
      exact ⟨hi, by rw [e.left i hi, hl]; rfl, by rw [e.symbol i hi, hs]⟩
    · rintro ⟨hi, hl, hs⟩
      rw [e.left i hi] at hl
      rw [e.symbol i hi] at hs
      exact ⟨hi, by simpa using hl, hs⟩

/-! ### The increment keeps the shape -/

@[simp] theorem bump_nLive (t : CodeTree) (i : Nat) : (bump t i).nLive = t.nLive := modify_nLive ..
@[simp] theorem bump_root (t : CodeTree) (i : Nat) : (bump t i).root = t.root := rfl
@[simp] theorem bump_nyt (t : CodeTree) (i : Nat) : (bump t i).nyt = t.nyt := rfl
@[simp] theorem bump_sym2leaf (t : CodeTree) (i : Nat) : (bump t i).sym2leaf = t.sym2leaf := rfl
@[simp] theorem bump_ord2node (t : CodeTree) (i : Nat) : (bump t i).ord2node = t.ord2node := rfl
@[simp] theorem bump_nextOrder (t : CodeTree) (i : Nat) : (bump t i).nextOrder = t.nextOrder := rfl

theorem bump_N (t : CodeTree) {i : Nat} (hi : i < t.nLive) (j : Nat) :
    (bump t i).N j = if j = i then addWeight (t.N j) else t.N j := modify_N t i addWeight j hi

theorem bump_weight {i : Nat} (hi : i < t.nLive) (j : Nat) :
    ((bump t i).N j).weight = (t.N j).weight + if j = i then 1 else 0 := by
  rw [bump_N t hi]; split_ifs <;> simp

theorem bump_order {i : Nat} (hi : i < t.nLive) (j : Nat) : ((bump t i).N j).order = (t.N j).order := by
  rw [bump_N t hi]; split_ifs <;> simp
theorem bump_parent {i : Nat} (hi : i < t.nLive) (j : Nat) : ((bump t i).N j).parent = (t.N j).parent := by
  rw [bump_N t hi]; split_ifs <;> simp
theorem bump_left {i : Nat} (hi : i < t.nLive) (j : Nat) : ((bump t i).N j).left = (t.N j).left := by
  rw [bump_N t hi]; split_ifs <;> simp
theorem bump_right {i : Nat} (hi : i < t.nLive) (j : Nat) : ((bump t i).N j).right = (t.N j).right := by
  rw [bump_N t hi]; split_ifs <;> simp
theorem bump_symbol {i : Nat} (hi : i < t.nLive) (j : Nat) : ((bump t i).N j).symbol = (t.N j).symbol := by
  rw [bump_N t hi]; split_ifs <;> simp

theorem TreeShape.bump (h : TreeShape c t) {i : Nat} (hi : i < t.nLive) : TreeShape c (bump t i) := by
  constructor <;> simp only [bump_nLive, bump_root, bump_nyt, bump_sym2leaf, bump_ord2node, bump_nextOrder,
    bump_order hi, bump_parent hi, bump_left hi, bump_right hi, bump_symbol hi]
  exacts [h.root_zero, h.odd, h.cap, h.next, h.nyt_last, h.ord2node_length, h.root_order, h.parent_none, h.two_or_none,
    h.left_child, h.right_child, h.child_of_parent, h.siblings, h.left_parity, h.parent_order, h.order_range,
    h.order_distinct, h.order_used, h.ord2node_iff, h.ord2node_free, h.nyt_leaf, h.nyt_unbound, h.nyt_order, h.bottom,
    h.leaf_bound, h.internal_unbound, h.sym2leaf_iff]

/-! ### The state of a walk -/

/-- What the walk never changes: which entries are live, the registers, the symbol table, and which nodes are leaves of
which symbol. -/
structure SameNodes (t t' : CodeTree) : Prop where
  nLive : t'.nLive = t.nLive
  root : t'.root = t.root
  nyt : t'.nyt = t.nyt
  nextOrder : t'.nextOrder = t.nextOrder
  sym2leaf : t'.sym2leaf = t.sym2leaf
  symbol : ∀ i, i < t.nLive → (t'.N i).symbol = (t.N i).symbol
  leaf : ∀ i, i < t.nLive → ((t'.N i).left = none ↔ (t.N i).left = none)

theorem SameNodes.trans {t1 t2 t3 : CodeTree} (h1 : SameNodes t1 t2) (h2 : SameNodes t2 t3) : SameNodes t1 t3 where
  nLive := h2.nLive.trans h1.nLive
  root := h2.root.trans h1.root
  nyt := h2.nyt.trans h1.nyt
  nextOrder := h2.nextOrder.trans h1.nextOrder
  sym2leaf := h2.sym2leaf.trans h1.sym2leaf
  symbol i hi := (h2.symbol i (h1.nLive ▸ hi)).trans (h1.symbol i hi)
  leaf i hi := (h2.leaf i (h1.nLive ▸ hi)).trans (h1.leaf i hi)

theorem SameNodes.bump {i : Nat} (hi : i < t.nLive) : SameNodes t (bump t i) where
  nLive := bump_nLive ..
  root := rfl
  nyt := rfl
  nextOrder := rfl
  sym2leaf := rfl
  symbol j _ := bump_symbol hi j
  leaf j _ := by rw [bump_left hi]

theorem Exchanged.same {p q : Nat} (e : Exchanged p q t t') : SameNodes t t' where
  nLive := e.nLive
  root := e.root
  nyt := e.nyt
  nextOrder := e.nextOrder
  sym2leaf := e.sym2leaf
  symbol := e.symbol
  leaf i hi := by rw [e.left i hi]; simp

/-- The weights at the entry of a walk step at `cur` (R25, R110): the node's own weight is one short of its children's sum,
every other sum holds; and either the sibling property holds and the node has a weight, or the node is the NYT
node's parent, every node of larger order outweighs it, and the property holds of all pairs it does not lead. -/
structure WalkInv (c : Config) (t : CodeTree) (cur : Nat) : Prop where
  shape : TreeShape c t
  live : cur < t.nLive
  not_nyt : cur ≠ t.nyt
  nyt_weight : (t.N t.nyt).weight = 0
  zero_weight : ∀ i, i < t.nLive → (t.N i).weight = 0 → i = t.nyt ∨ i = cur
  weight_sum : ∀ i, i < t.nLive → ∀ l r, (t.N i).left = some l → (t.N i).right = some r →
    (t.N i).weight + (if i = cur then 1 else 0) = (t.N l).weight + (t.N r).weight
  property : ((t.N cur).weight ≠ 0 ∧
      ∀ i j, i < t.nLive → j < t.nLive → (t.N j).order < (t.N i).order → (t.N j).weight ≤ (t.N i).weight) ∨
    ((t.N cur).left = some t.nyt ∧
      (∀ i, i < t.nLive → (t.N cur).order < (t.N i).order → (t.N cur).weight < (t.N i).weight) ∧
      ∀ i j, i < t.nLive → j < t.nLive → i ≠ cur → (t.N j).order < (t.N i).order → (t.N j).weight ≤ (t.N i).weight)

/-- The NYT node's sibling's and parent's orders lie right above its own (R202). -/
theorem TreeShape.below_bottom (h : TreeShape c t) {b z i : Nat} (hb : (t.N t.nyt).parent = some b)
    (hz : (t.N b).right = some z) (hi : i < t.nLive) (hio : (t.N i).order < (t.N b).order) :
    i = t.nyt ∨ i = z := by
  have hnl := h.nyt_live
  obtain ⟨h1, h2⟩ := h.bottom b hb
  have hbl := (h.parent_internal hnl hb).1
  have h3 := h.siblings b hbl _ _ h1 hz
  have h4 := (h.order_range i hi).1
  have h5 := h.nyt_order
  have hzl := (h.right_child b hbl z hz).1
  by_cases h6 : (t.N i).order = (t.N t.nyt).order
  · exact .inl (h.order_distinct _ _ hi hnl h6)
  · exact .inr (h.order_distinct _ _ hi hzl (by omega))

/-- A weight class met from below: the parent weighs more unless the sibling is the NYT node (R199 (c), (d)). -/
theorem TreeShape.parent_weight (h : TreeShape c t) (hzero : ∀ j, j < t.nLive → (t.N j).weight = 0 → j = t.nyt)
    {i p : Nat} (hi : i < t.nLive) (hp : (t.N i).parent = some p)
    (hsum : ∀ l r, (t.N p).left = some l → (t.N p).right = some r → (t.N p).weight = (t.N l).weight + (t.N r).weight) :
    (t.N i).weight ≤ (t.N p).weight ∧
      ((t.N p).weight = (t.N i).weight → i ≠ t.nyt → (t.N p).left = some t.nyt ∧ (t.N p).right = some i) := by
  obtain ⟨hpl, hpi⟩ := h.parent_internal hi hp
  obtain ⟨l, r, hl, hr⟩ := h.children hpl hpi
  have hs := hsum l r hl hr
  have hll := (h.left_child p hpl l hl)
  have hrl := (h.right_child p hpl r hr)
  obtain ⟨_, hc | hc⟩ := h.child_of_parent i hi p hp
  · rw [hl] at hc; cases hc
    refine ⟨by omega, fun he hin => ?_⟩
    have hrn := hzero r hrl.1 (by omega)
    subst hrn
    have hb := (h.bottom p hrl.2).1
    rw [hl] at hb
    exact absurd (Option.some.inj hb) hin
  · rw [hr] at hc; cases hc
    refine ⟨by omega, fun he hin => ?_⟩
    have hln := hzero l hll.1 (by omega)
    subst hln
    exact ⟨hl, hr⟩

theorem WalkInv.parent_weight (w : WalkInv c t cur) (hpos : (t.N cur).weight ≠ 0) {i p : Nat} (hi : i < t.nLive)
    (hpc : p ≠ cur) (hp : (t.N i).parent = some p) :
    (t.N i).weight ≤ (t.N p).weight ∧
      ((t.N p).weight = (t.N i).weight → i ≠ t.nyt → (t.N p).left = some t.nyt ∧ (t.N p).right = some i) := by
  refine w.shape.parent_weight ?_ hi hp fun l r hl hr => ?_
  · intro j hj hj0
    exact (w.zero_weight j hj hj0).resolve_right fun e => hpos (e ▸ hj0)
  · have := w.weight_sum p (w.shape.parent_internal hi hp).1 l r hl hr
    rwa [if_neg hpc] at this

theorem ancestors_root (h : TreeShape c t) {fuel i : Nat} {as : List Nat} (hi : i < t.nLive) (hi0 : i ≠ 0)
    (ha : ancestors t fuel i = .ok as) : 0 ∈ as := by
  induction fuel generalizing i as with
  | zero =>
    cases hp : (t.N i).parent with
    | none => exact absurd ((h.parent_none i hi).1 hp) hi0
    | some p => unfold ancestors at ha; simp [nodeAt_of_live hi, hp] at ha
  | succ fuel ih =>
    cases hp : (t.N i).parent with
    | none => exact absurd ((h.parent_none i hi).1 hp) hi0
    | some p =>
      unfold ancestors at ha
      simp only [nodeAt_of_live hi, hp, ok_bind] at ha
      obtain ⟨rest, hrest, has⟩ := bind_eq_ok.1 ha
      cases has
      by_cases hp0 : p = 0
      · simp [hp0]
      · exact List.mem_cons_of_mem _ (ih (h.parent_internal hi hp).1 hp0 hrest)

/-- One half step: what `rebalance` leaves. Either the sibling property holds after the node's increment, or the node's
parent is its leader and is the NYT node's parent (R113, R199 (d)). -/
structure Rebalanced (c : Config) (cur : Nat) (t t1 : CodeTree) : Prop where
  shape : TreeShape c t1
  same : SameNodes t t1
  weight : ∀ i, i < t.nLive → (t1.N i).weight = (t.N i).weight
  order : (t.N cur).order ≤ (t1.N cur).order
  kept : ∀ i, i < t.nLive → (t.N i).order < (t.N cur).order →
    (t1.N i).order = (t.N i).order ∧ (t1.N i).parent = (t.N i).parent
  weight_sum : ∀ i, i < t.nLive → ∀ l r, (t1.N i).left = some l → (t1.N i).right = some r →
    (t1.N i).weight + (if i = cur then 1 else 0) = (t1.N l).weight + (t1.N r).weight
  property :
    (∀ i j, i < t.nLive → j < t.nLive → (t1.N j).order < (t1.N i).order →
      (t1.N j).weight + (if j = cur then 1 else 0) ≤ (t1.N i).weight + (if i = cur then 1 else 0)) ∨
    ∃ p, (t1.N cur).parent = some p ∧ (t1.N p).left = some t1.nyt ∧
      (∀ i, i < t.nLive → (t1.N p).order < (t1.N i).order → (t1.N p).weight < (t1.N i).weight) ∧
      ∀ i j, i < t.nLive → j < t.nLive → i ≠ p → (t1.N j).order < (t1.N i).order →
        (t1.N j).weight + (if j = cur then 1 else 0) ≤ (t1.N i).weight + (if i = cur then 1 else 0)

/-- A node that is its own leader, in a tree with the sibling property, may be incremented in place. -/
theorem property_after_increment {cur : Nat} (n : Nat) (w o : Nat → Nat)
    (hmax : ∀ i, i < n → w i = w cur → o i ≤ o cur)
    (hsib : ∀ i j, i < n → j < n → o j < o i → w j ≤ w i) (i j : Nat) (hi : i < n) (hj : j < n) (hij : o j < o i) :
    w j + (if j = cur then 1 else 0) ≤ w i + (if i = cur then 1 else 0) := by
  have h1 := hsib i j hi hj hij
  by_cases hjc : j = cur
  · subst hjc
    by_cases hic : i = j
    · subst hic; omega
    · have h2 := hmax i hi
      simp only [if_true, hic, if_false]
      by_contra h3
      have := h2 (by omega)
      omega
  · simp only [hjc, if_false]; omega

theorem WalkInv.rebalance (hc : c.Valid) {cur : Nat} (w : WalkInv c t cur) :
    ∃ t1, Machine.rebalance c t cur = .ok t1 ∧ Rebalanced c cur t t1 := by
  have h := w.shape
  have hcl := w.live
  obtain ⟨q, hlead, hql, hqw, hqo, hqmax⟩ := leader_spec hcl
  -- nothing is exchanged
  have stay : (q = cur ∨ (t.N cur).parent = some q) → Machine.rebalance c t cur = .ok t := by
    intro hor
    unfold Machine.rebalance
    simp only [hlead, ok_bind, nodeAt_of_live hcl, nodeAt_of_live hql]
    rw [if_neg]
    rintro ⟨h1, h2, -⟩
    rcases hor with h3 | h3
    · exact h1 h3
    · exact h2 h3
  have refl : SameNodes t t := ⟨rfl, rfl, rfl, rfl, rfl, fun _ _ => rfl, fun _ _ => Iff.rfl⟩
  have still : ((∀ i j, i < t.nLive → j < t.nLive → (t.N j).order < (t.N i).order →
        (t.N j).weight + (if j = cur then 1 else 0) ≤ (t.N i).weight + (if i = cur then 1 else 0)) ∨
      ∃ p, (t.N cur).parent = some p ∧ (t.N p).left = some t.nyt ∧
        (∀ i, i < t.nLive → (t.N p).order < (t.N i).order → (t.N p).weight < (t.N i).weight) ∧
        ∀ i j, i < t.nLive → j < t.nLive → i ≠ p → (t.N j).order < (t.N i).order →
          (t.N j).weight + (if j = cur then 1 else 0) ≤ (t.N i).weight + (if i = cur then 1 else 0)) →
      (q = cur ∨ (t.N cur).parent = some q) → ∃ t1, Machine.rebalance c t cur = .ok t1 ∧ Rebalanced c cur t t1 :=
    fun hp hor => ⟨t, stay hor, h, refl, fun _ _ => rfl, Nat.le_refl _, fun _ _ _ => ⟨rfl, rfl⟩, w.weight_sum, hp⟩
  rcases w.property with ⟨hpos, hsib⟩ | ⟨hleft, habove, hsib⟩
  · by_cases hqc : q = cur
    · subst hqc
      exact still (.inl fun i j hi hj => property_after_increment t.nLive (fun i => (t.N i).weight)
        (fun i => (t.N i).order) hqmax hsib i j hi hj) (.inl rfl)
    have hlt : (t.N cur).order < (t.N q).order := hqo.resolve_left hqc
    by_cases hqp : (t.N cur).parent = some q
    · -- the leader is the parent: its other child is the NYT node
      have hqc' : q ≠ cur := hqc
      obtain ⟨hql', hqr'⟩ := (w.parent_weight hpos hcl hqc' hqp).2 hqw w.not_nyt
      have hnq : (t.N t.nyt).parent = some q := (h.left_child q hql _ hql').2
      have hstrict : ∀ i, i < t.nLive → (t.N q).order < (t.N i).order → (t.N q).weight < (t.N i).weight := by
        intro i hi hio
        have h1 := hsib i q hi hql hio
        by_contra h2
        have := hqmax i hi (by omega)
        omega
      refine still (.inr ⟨q, hqp, hql', hstrict, ?_⟩) (.inr hqp)
      intro i j hi hj hiq hio
      have h1 := hsib i j hi hj hio
      by_cases hjc : j = cur
      · subst hjc
        have hic : i ≠ j := by rintro rfl; omega
        rw [if_pos rfl, if_neg hic]
        by_cases h2 : (t.N q).order < (t.N i).order
        · have := hstrict i hi h2; omega
        · have h3 : (t.N i).order ≠ (t.N q).order := fun e => hiq (h.order_distinct i q hi hql e)
          rcases h.below_bottom hnq hqr' hi (by omega) with h4 | h4
          · subst h4
            have := h.siblings q hql _ _ hql' hqr'
            omega
          · exact absurd h4 hic
      · rw [if_neg hjc]; omega
    -- the exchange
    have hq_child : (t.N q).parent ≠ some cur := fun e => by
      have := h.order_lt_parent hql e; omega
    have hcur0 : cur ≠ 0 := by
      rintro rfl
      have h1 := h.root_order
      have h2 := (h.order_range q hql).2
      omega
    obtain ⟨p, hp⟩ : ∃ p, (t.N cur).parent = some p := by
      cases hp : (t.N cur).parent with
      | none => exact absurd ((h.parent_none cur hcl).1 hp) hcur0
      | some p => exact ⟨p, rfl⟩
    have hpl := (h.parent_internal hcl hp).1
    have hpo := h.order_lt_parent hcl hp
    have hne : ∀ a, (t.N cur).order < (t.N a).order → a ≠ cur := by rintro a ha rfl; omega
    have hpw := w.parent_weight hpos hcl (hne p hpo) hp
    have hint : ∀ i p, i < t.nLive → (t.N i).parent = some p → p ≠ t.nyt := by
      rintro i p hi hip rfl
      exact (h.parent_internal hi hip).2 h.nyt_leaf
    obtain ⟨ap, hap, hapQ⟩ := h.ancestors_all
      (fun a => (t.N cur).order < (t.N a).order ∧ (a = p ∨ (t.N cur).weight < (t.N a).weight))
      (by
        rintro a g hal ⟨hao, haw⟩ hg
        have hgo := h.order_lt_parent hal hg
        have hgw := w.parent_weight hpos hal (hne g (by omega)) hg
        refine ⟨by omega, .inr ?_⟩
        rcases haw with rfl | haw
        · by_contra hle
          have e1 : (t.N a).weight = (t.N cur).weight := by omega
          have e2 : (t.N g).weight = (t.N a).weight := by omega
          have h1 := (hpw.2 e1 w.not_nyt).1
          have h2 := (hgw.2 e2 (hint cur a hcl hp)).1
          have h3 := (h.left_child a hal _ h1).2
          have h4 := (h.left_child g (h.parent_internal hal hg).1 _ h2).2
          rw [h3] at h4
          have : a = g := Option.some.inj h4
          subst this
          omega
        · omega)
      c.maxDepth cur hcl (h.pairIndex_le hc hcl)
      (fun p' hp' => by rw [hp] at hp'; cases hp'; exact ⟨hpo, .inl rfl⟩)
    obtain ⟨aq, haq, haqQ⟩ := h.ancestors_all (fun a => (t.N q).order < (t.N a).order)
      (fun a g hal ha hg => by have := h.order_lt_parent hal hg; omega)
      c.maxDepth q hql (h.pairIndex_le hc hql) (fun p' hp' => h.order_lt_parent hql hp')
    have hq_ap : q ∉ ap := fun hm => by
      rcases (hapQ q hm).2 with h1 | h1
      · subst h1; exact hqp hp
      · omega
    have hp_aq : cur ∉ aq := fun hm => by have := haqQ cur hm; omega
    have hq0 : q ≠ 0 := by
      rintro rfl
      exact hq_ap (ancestors_root h hcl hcur0 hap)
    obtain ⟨qp, hqpar⟩ : ∃ qp, (t.N q).parent = some qp := by
      cases hqpar : (t.N q).parent with
      | none => exact absurd ((h.parent_none q hql).1 hqpar) hq0
      | some qp => exact ⟨qp, rfl⟩
    have hqn : q ≠ t.nyt := by rintro rfl; exact hpos (hqw ▸ w.nyt_weight)
    obtain ⟨t1, t2, hs1, hs2, e⟩ := h.swap_exchange hcl hql (Ne.symm hqc) hp hqpar hap haq hq_ap hp_aq
    have hbottom : ∀ b, (t.N t.nyt).parent = some b → b ≠ cur ∧ b ≠ q := by
      intro b hb
      obtain ⟨hb1, hb2⟩ := h.bottom b hb
      have hbl := (h.parent_internal h.nyt_live hb).1
      obtain ⟨l, z, hl, hz⟩ := h.children hbl (by simp [hb1])
      rw [hb1] at hl; cases hl
      have hzl := (h.right_child b hbl z hz)
      constructor
      · rintro rfl
        have h1 := w.weight_sum b hbl _ z hb1 hz
        rw [if_pos rfl, w.nyt_weight] at h1
        have h2 := hsib b z hbl hzl.1 (h.parent_order b hbl z hz)
        omega
      · rintro rfl
        rcases h.below_bottom hb hz hcl hlt with h1 | h1
        · exact w.not_nyt h1
        · subst h1; exact hqp hzl.2
    have hkids : ∀ r, (t.N q).right = some r → (t.N r).order < (t.N cur).order := by
      intro r hr
      obtain ⟨hrl, hrp⟩ := h.right_child q hql r hr
      have hrw := w.parent_weight hpos hrl hqc hrp
      have hrn : r ≠ t.nyt := by
        rintro rfl
        exact h.left_right_ne hql (h.bottom q hrp).1 hr rfl
      have hlt' : (t.N r).weight ≠ (t.N q).weight := by
        intro e1
        obtain ⟨h1, h2⟩ := hrw.2 e1.symm hrn
        exact (hbottom q (h.left_child q hql _ h1).2).2 rfl
      by_contra hge
      have hrc : r ≠ cur := by rintro rfl; exact hqp hrp
      have hro : (t.N r).order ≠ (t.N cur).order := fun e1 => hrc (h.order_distinct r cur hrl hcl e1)
      have := hsib r cur hrl hcl (by omega)
      omega
    have hshape := h.exchanged e hcl hql hcur0 hq0 w.not_nyt hqn hlt hkids hbottom
    have tw : ∀ i, (t.N (trade cur q i)).weight = (t.N i).weight := by
      intro i; unfold trade
      split_ifs with h1 h2
      · subst h1; exact hqw
      · subst h2; exact hqw.symm
      · rfl
    have tl : ∀ {i}, i < t.nLive → trade cur q i < t.nLive := fun hi => trade_live hcl hql hi
    refine ⟨t2, ?_, hshape, e.same, e.weight, ?_, ?_, ?_, .inl ?_⟩
    · unfold Machine.rebalance
      simp only [hlead, ok_bind, nodeAt_of_live hcl, nodeAt_of_live hql]
      rw [if_pos ⟨hqc, hqp, hq_child⟩, hs1]
      exact hs2
    · rw [e.order cur hcl, trade_left]; omega
    · intro i hi hio
      have hic : i ≠ cur := by rintro rfl; omega
      have hiq : i ≠ q := by rintro rfl; omega
      rw [e.order i hi, e.parent i hi, trade_other hic hiq]
      exact ⟨rfl, rfl⟩
    · intro i hi l r hl hr
      rw [e.left i hi] at hl
      rw [e.right i hi] at hr
      obtain ⟨l0, hl0, rfl⟩ := Option.map_eq_some_iff.1 hl
      obtain ⟨r0, hr0, rfl⟩ := Option.map_eq_some_iff.1 hr
      have h1 := (h.left_child i hi l0 hl0).1
      have h2 := (h.right_child i hi r0 hr0).1
      rw [e.weight i hi, e.weight _ (tl h1), e.weight _ (tl h2), tw, tw]
      exact w.weight_sum i hi l0 r0 hl0 hr0
    · intro i j hi hj hij
      refine property_after_increment t.nLive (fun i => (t2.N i).weight) (fun i => (t2.N i).order) ?_ ?_ i j hi hj hij
      · intro i hi hiw
        show (t2.N i).order ≤ (t2.N cur).order
        rw [e.order i hi, e.order cur hcl, trade_left]
        refine hqmax _ (tl hi) ?_
        rw [tw, ← e.weight i hi, ← e.weight cur hcl]
        exact hiw
      · intro i j hi hj hij
        have hij : (t2.N j).order < (t2.N i).order := hij
        show (t2.N j).weight ≤ (t2.N i).weight
        rw [e.order i hi, e.order j hj] at hij
        have := hsib _ _ (tl hi) (tl hj) hij
        rwa [tw, tw, ← e.weight i hi, ← e.weight j hj] at this
  · -- the node is the NYT node's parent and leads its class
    have hqc : q = cur := by
      rcases hqo with h1 | h1
      · exact h1
      · have := habove q hql h1; omega
    refine still (.inl ?_) (.inl hqc)
    intro i j hi hj hij
    by_cases hic : i = cur
    · subst hic
      have hjc : j ≠ i := by rintro rfl; omega
      rw [if_neg hjc, if_pos rfl]
      obtain ⟨l, z, hl, hz⟩ := h.children hi (by simp [hleft])
      rw [hleft] at hl; cases hl
      have h1 := w.weight_sum i hi _ z hleft hz
      rw [if_pos rfl, w.nyt_weight] at h1
      rcases h.below_bottom (h.left_child i hi _ hleft).2 hz hj hij with h2 | h2
      · subst h2; rw [w.nyt_weight]; omega
      · subst h2; omega
    · have h1 := hsib i j hi hj hic hij
      rw [if_neg hic]
      by_cases hjc : j = cur
      · subst hjc
        have := habove i hi hij
        rw [if_pos rfl]; omega
      · rw [if_neg hjc]; omega

/-- A walk's end (R111, R195, R196, R198): the tree has its shape and its weights, the root has gained 1, and of the leaves only the
start. -/
structure Walked (c : Config) (cur : Nat) (t t' : CodeTree) : Prop where
  inv : WeightedTree c t'
  same : SameNodes t t'
  root_weight : (t'.N 0).weight = (t.N 0).weight + 1
  leaf_weight : ∀ i, i < t.nLive → (t.N i).left = none →
    (t'.N i).weight = (t.N i).weight + if i = cur then 1 else 0
  /-- R111: what lies below the start keeps its parent. -/
  kept : ∀ i, i < t.nLive → (t.N i).order < (t.N cur).order → (t'.N i).parent = (t.N i).parent
  /-- R110, R111: exactly the nodes on the start's final path gain 1. -/
  on_path : ∀ i, i < t.nLive → (∃ bits, descend t' i bits = some cur) → (t'.N i).weight = (t.N i).weight + 1
  off_path : ∀ i, i < t.nLive → (¬ ∃ bits, descend t' i bits = some cur) → (t'.N i).weight = (t.N i).weight

/-- The weights after the increment (R116). -/
theorem Rebalanced.bump_weight {cur : Nat} (R : Rebalanced c cur t t1) (hcl : cur < t.nLive) {i : Nat} (hi : i < t.nLive) :
    ((bump t1 cur).N i).weight = (t.N i).weight + if i = cur then 1 else 0 := by
  rw [Machine.bump_weight (R.same.nLive ▸ hcl), R.weight i hi]

/-- After the increment only the NYT node has weight 0. -/
theorem WalkInv.zero_after {cur : Nat} (w : WalkInv c t cur) (R : Rebalanced c cur t t1) {i : Nat} (hi : i < t.nLive)
    (hi0 : ((bump t1 cur).N i).weight = 0) : i = t.nyt := by
  rw [R.bump_weight w.live hi] at hi0
  rcases w.zero_weight i hi (by omega) with h3 | h3
  · exact h3
  · subst h3; simp at hi0

/-- After the increment every node but the new parent weighs what its children weigh together; that one is one short (R25). -/
theorem WalkInv.sum_after {cur : Nat} (w : WalkInv c t cur) (R : Rebalanced c cur t t1) {i l r : Nat} (hi : i < t.nLive)
    (hl : ((bump t1 cur).N i).left = some l) (hr : ((bump t1 cur).N i).right = some r) :
    ((bump t1 cur).N i).weight + (if (t1.N cur).parent = some i then 1 else 0) =
      ((bump t1 cur).N l).weight + ((bump t1 cur).N r).weight := by
  have hn := R.same.nLive
  have hcl1 : cur < t1.nLive := hn ▸ w.live
  have h1 := R.shape
  rw [bump_left hcl1] at hl
  rw [bump_right hcl1] at hr
  have h3 := R.weight_sum i hi l r hl hr
  have hlp := h1.left_child i (hn ▸ hi) l hl
  have hrp := h1.right_child i (hn ▸ hi) r hr
  have hlr := h1.left_right_ne (hn ▸ hi) hl hr
  rw [Machine.bump_weight hcl1, Machine.bump_weight hcl1, Machine.bump_weight hcl1]
  by_cases hpc : (t1.N cur).parent = some i
  · rw [if_pos hpc]
    obtain ⟨_, hc1 | hc1⟩ := h1.child_of_parent cur hcl1 i hpc
    · rw [hl] at hc1; cases hc1
      rw [if_pos rfl, if_neg (Ne.symm hlr)]
      omega
    · rw [hr] at hc1; cases hc1
      rw [if_pos rfl, if_neg hlr]
      omega
  · have hlc : l ≠ cur := by rintro rfl; exact hpc hlp.2
    have hrc : r ≠ cur := by rintro rfl; exact hpc hrp.2
    rw [if_neg hpc, if_neg hlc, if_neg hrc]
    omega

/-- The sibling property after the increment, for the pairs that `R.property` speaks of. -/
theorem Rebalanced.property_after {cur : Nat} (R : Rebalanced c cur t t1) (hcl : cur < t.nLive) {P : Nat → Prop}
    (hP : ∀ i j, i < t.nLive → j < t.nLive → P i → (t1.N j).order < (t1.N i).order →
      (t1.N j).weight + (if j = cur then 1 else 0) ≤ (t1.N i).weight + (if i = cur then 1 else 0))
    (i j : Nat) (hi : i < t.nLive) (hj : j < t.nLive) (hPi : P i)
    (hij : ((bump t1 cur).N j).order < ((bump t1 cur).N i).order) :
    ((bump t1 cur).N j).weight ≤ ((bump t1 cur).N i).weight := by
  have hcl1 : cur < t1.nLive := R.same.nLive ▸ hcl
  rw [bump_order hcl1, bump_order hcl1] at hij
  rw [Machine.bump_weight hcl1, Machine.bump_weight hcl1]
  exact hP i j hi hj hPi hij

/-- R111: the walk goes on at the parent, in a state of a walk, and strictly nearer to the root (R200). -/
theorem WalkInv.next {cur p : Nat} (w : WalkInv c t cur) (R : Rebalanced c cur t t1) (hpar : (t1.N cur).parent = some p) :
    WalkInv c (bump t1 cur) p ∧ pairIndex c (bump t1 cur) p < pairIndex c t cur := by
  have hn := R.same.nLive
  have hcl1 : cur < t1.nLive := hn ▸ w.live
  have h1 := R.shape
  have hnyt : t1.nyt = t.nyt := R.same.nyt
  have hnl : t.nyt < t.nLive := w.shape.nyt_live
  obtain ⟨hpl1, hpi1⟩ := h1.parent_internal hcl1 hpar
  have hpl : p < t.nLive := hn ▸ hpl1
  have hpo := h1.order_lt_parent hcl1 hpar
  have hpc : p ≠ cur := by rintro rfl; omega
  have hpn : p ≠ t.nyt := by rintro rfl; exact hpi1 (hnyt ▸ h1.nyt_leaf)
  have hlen : ∀ {i}, i < (bump t1 cur).nLive → i < t.nLive := fun hi => by simpa [hn] using hi
  refine ⟨⟨h1.bump hcl1, by simpa using hpl1, by rw [bump_nyt, hnyt]; exact hpn, ?_, ?_, ?_, ?_⟩, ?_⟩
  · rw [bump_nyt, hnyt, R.bump_weight w.live hnl, w.nyt_weight, if_neg (Ne.symm w.not_nyt)]
  · intro i hi hi0
    left; rw [bump_nyt, hnyt]; exact w.zero_after R (hlen hi) hi0
  · intro i hi l r hl hr
    have := w.sum_after R (hlen hi) hl hr
    rw [hpar] at this
    rw [← this]
    by_cases hip : i = p
    · subst hip; simp
    · rw [if_neg hip, if_neg (fun e => hip (Option.some.inj e).symm)]
  · rcases R.property with hp | ⟨p', hp', hleft, habove, hsib⟩
    · left
      refine ⟨fun h0 => hpn (w.zero_after R hpl h0), ?_⟩
      intro i j hi hj
      exact R.property_after w.live (P := fun _ => True) (fun i j hi hj _ => hp i j hi hj) i j (hlen hi) (hlen hj) trivial
    · right
      rw [hpar] at hp'; cases hp'
      refine ⟨by rw [bump_left hcl1, bump_nyt]; exact hleft, ?_, ?_⟩
      · intro i hi hio
        rw [bump_order hcl1, bump_order hcl1] at hio
        have := habove i (hlen hi) hio
        rw [Machine.bump_weight hcl1, Machine.bump_weight hcl1, if_neg hpc]
        omega
      · intro i j hi hj hip
        exact R.property_after w.live (P := fun i => i ≠ p) hsib i j (hlen hi) (hlen hj) hip
  · have h3 := h1.pairIndex_parent hcl1 hpar
    have h4 := R.order
    unfold pairIndex at *
    rw [bump_order hcl1]
    omega

/-- R111: at the root the walk ends, and every sum and the sibling property hold again. -/
theorem WalkInv.finish {cur : Nat} (w : WalkInv c t cur) (R : Rebalanced c cur t t1) (hpar : (t1.N cur).parent = none) :
    WeightedTree c (bump t1 cur) := by
  have hn := R.same.nLive
  have hcl1 : cur < t1.nLive := hn ▸ w.live
  have hnyt : t1.nyt = t.nyt := R.same.nyt
  refine ⟨R.shape.bump hcl1, ?_, ?_, ?_, ?_⟩
  · rw [bump_nyt, hnyt, R.bump_weight w.live w.shape.nyt_live, w.nyt_weight, if_neg (Ne.symm w.not_nyt)]
  · intro i hi hi0
    rw [bump_nyt, hnyt]
    exact w.zero_after R (by simpa [hn] using hi) hi0
  · intro i hi l r hl hr
    have := w.sum_after R (by simpa [hn] using hi) hl hr
    rw [hpar, if_neg (by simp)] at this
    simpa using this
  · intro i j hi hj hij
    rcases R.property with hp | ⟨p, hp, _⟩
    · exact R.property_after w.live (P := fun _ => True) (fun i j hi hj _ => hp i j hi hj) i j (by simpa [hn] using hi)
        (by simpa [hn] using hj) trivial hij
    · rw [hpar] at hp; cases hp

/-- The walk from any state of a walk is defined and ends as it should (R200). -/
theorem WalkInv.walk (hc : c.Valid) (fuel : Nat) {cur : Nat} (w : WalkInv c t cur) (hf : pairIndex c t cur < fuel) :
    ∃ t', Machine.walk c fuel t cur = .ok t' ∧ Walked c cur t t' := by
  induction fuel generalizing t cur with
  | zero => omega
  | succ fuel ih =>
    obtain ⟨t1, hreb, R⟩ := w.rebalance hc
    have hn := R.same.nLive
    have hcl1 : cur < t1.nLive := hn ▸ w.live
    have h1 := R.shape
    have h2 := h1.bump hcl1
    have hcl2 : cur < (bump t1 cur).nLive := by simpa using hcl1
    have hsame : SameNodes t (bump t1 cur) := R.same.trans (SameNodes.bump hcl1)
    have hw2 : ∀ i, i < t.nLive → ((bump t1 cur).N i).weight = (t.N i).weight + if i = cur then 1 else 0 :=
      fun i hi => R.bump_weight w.live hi
    have hrun : Machine.walk c (fuel + 1) t cur = (match (t1.N cur).parent with
        | none => .ok (bump t1 cur)
        | some p => Machine.walk c fuel (bump t1 cur) p) := by
      conv => lhs; unfold Machine.walk
      simp only [hreb, ok_bind, nodeAt_of_live hcl2, bump_parent hcl1]
      all_goals (cases (t1.N cur).parent <;> rfl)
    cases hpar : (t1.N cur).parent with
    | none =>
      rw [hpar] at hrun
      have hcur0 : cur = 0 := (h1.parent_none cur hcl1).1 hpar
      have habv : ∀ i, i < t.nLive → ((∃ bits, descend (bump t1 cur) i bits = some cur) ↔ i = cur) := by
        intro i hi
        have := h2.above_root (j := i) (by simpa [hn] using hi)
        subst hcur0
        exact this
      refine ⟨bump t1 cur, hrun, w.finish R hpar, hsame, ?_, fun i hi _ => hw2 i hi, ?_, ?_, ?_⟩
      · have := hw2 0 w.shape.root_live
        rw [this, hcur0]; simp
      · intro i hi hio
        rw [bump_parent hcl1, (R.kept i hi hio).2]
      · intro i hi habove
        rw [hw2 i hi, if_pos ((habv i hi).1 habove)]
      · intro i hi habove
        rw [hw2 i hi, if_neg (mt (habv i hi).2 habove)]
        rfl
    | some p =>
      rw [hpar] at hrun
      obtain ⟨hpl1, hpi1⟩ := h1.parent_internal hcl1 hpar
      have hpl : p < t.nLive := hn ▸ hpl1
      have hpo := h1.order_lt_parent hcl1 hpar
      obtain ⟨hw', hidx1⟩ := w.next R hpar
      obtain ⟨t', hwalk, W⟩ := ih hw' (by omega)
      have hleafp : (t.N p).left ≠ none := fun e => hpi1 ((R.same.leaf p hpl).2 e)
      have hn' : t'.nLive = t.nLive := W.same.nLive.trans (by simpa using hn)
      have hparent : (t'.N cur).parent = some p := by
        rw [W.kept cur hcl2 (by rw [bump_order hcl1, bump_order hcl1]; exact hpo), bump_parent hcl1, hpar]
      have habove : ∀ i, i < t.nLive →
          ((∃ bits, descend t' i bits = some cur) ↔ i = cur ∨ ∃ bits, descend t' i bits = some p) := fun i hi =>
        W.inv.toTreeShape.above_iff (by rw [hn']; exact w.live) (by rw [hn']; exact hi) hparent
      refine ⟨t', hrun.trans hwalk, W.inv, hsame.trans W.same, ?_, ?_, ?_, ?_, ?_⟩
      · rw [W.root_weight, hw2 0 w.shape.root_live, if_neg]
        rintro rfl
        rw [(h1.parent_none 0 hcl1).2 rfl] at hpar
        cases hpar
      · intro i hi hil
        have hil2 : ((bump t1 cur).N i).left = none := (hsame.leaf i hi).2 hil
        have hip : i ≠ p := by rintro rfl; exact hleafp hil
        rw [W.leaf_weight i (by simpa [hn] using hi) hil2, hw2 i hi, if_neg hip]
        rfl
      · intro i hi hio
        obtain ⟨h3, h4⟩ := R.kept i hi hio
        have h5 := R.order
        rw [W.kept i (by simpa [hn] using hi) (by rw [bump_order hcl1, bump_order hcl1]; omega), bump_parent hcl1, h4]
      · intro i hi hab
        by_cases hic : i = cur
        · subst hic
          have hnot : ¬ ∃ bits, descend t' i bits = some p := by
            rintro ⟨bits, hd⟩
            have hil : i < t'.nLive := by rw [hn']; exact hi
            have := W.inv.toTreeShape.descend_order hil hd
            have := W.inv.toTreeShape.order_lt_parent hil hparent
            omega
          rw [W.off_path i hcl2 hnot, hw2 i hi, if_pos rfl]
        · rw [W.on_path i (by simpa [hn] using hi) (((habove i hi).1 hab).resolve_left hic), hw2 i hi, if_neg hic]
      · intro i hi hab
        have h3 := mt (habove i hi).2 hab
        rw [not_or] at h3
        rw [W.off_path i (by simpa [hn] using hi) h3.2, hw2 i hi, if_neg h3.1]
        rfl

end Sys2Proof.Machine
end

