-- ==== Sys2Proof/Laws/Update.lean ====
section
/-! SUPPORT. Tree reset, split and `update` as a whole: what each answers and which invariants it keeps (R101, R107, R109,
R190 to R202, R221, R225). -/

namespace Sys2Proof.Machine

open Sys2Proof

variable {c : Config} {t t' : CodeTree}

/-! ### Tree reset -/

/-- R101 gives the tree rows of R49. -/
theorem treeReset_eq_fresh (c : Config) : treeReset c = CodeTree.fresh c := by
  simp [treeReset, allocNode, CodeTree.fresh, CodeTree.nLive]

theorem fresh_N_zero (c : Config) : (CodeTree.fresh c).N 0 =
    { weight := 0, symbol := none, order := c.orderMax, parent := none, left := none, right := none } := rfl

@[simp] theorem fresh_nLive (c : Config) : (CodeTree.fresh c).nLive = 1 := rfl

/-- R190: the tree after a tree reset meets every invariant. -/
theorem fresh_inv (hc : c.Valid) : TreeInv c (CodeTree.fresh c) := by
  have h0 := fresh_N_zero c
  have hodd := hc.1
  have hge := hc.2.1
  have hmax : c.orderMax + 1 = c.nodeCap := by unfold Config.orderMax; omega
  have one : ∀ {i}, i < (CodeTree.fresh c).nLive → i = 0 := by intro i hi; rw [fresh_nLive] at hi; omega
  have ord : ∀ o : Nat, (CodeTree.fresh c).ord2node[o]? =
      if o = c.orderMax then some (some 0) else if o < c.nodeCap then some none else none := by
    intro o
    simp only [CodeTree.fresh, List.getElem?_set, List.length_replicate, List.getElem?_replicate]
    by_cases h : o = c.orderMax
    · subst h; simp [show c.orderMax < c.nodeCap by omega]
    · simp [h, Ne.symm h]
  refine { toTreeShape := ?_, nyt_weight := rfl, zero_weight := fun i hi _ => one hi, weight_sum := ?_, sibling_property := ?_,
           weight_range := fun i hi => by rw [one hi, h0]; exact Nat.zero_le _ }
  · constructor
    · rfl
    · rfl
    · simp; omega
    · rfl
    · rfl
    · simp [CodeTree.fresh]
    · rfl
    · intro i hi; rw [one hi, h0]; simp
    · intro i hi; rw [one hi, h0]
    · intro i hi l hl; rw [one hi, h0] at hl; cases hl
    · intro i hi l hl; rw [one hi, h0] at hl; cases hl
    · intro i hi l hl; rw [one hi, h0] at hl; cases hl
    · intro i hi l r hl; rw [one hi, h0] at hl; cases hl
    · intro i hi l hl; rw [one hi, h0] at hl; cases hl
    · intro i hi l hl; rw [one hi, h0] at hl; cases hl
    · intro i hi; rw [one hi, h0]; simp [CodeTree.fresh]
    · intro i j hi hj _; rw [one hi, one hj]
    · intro o ho1 ho2
      refine ⟨0, by simp, ?_⟩
      rw [h0]
      simp only [CodeTree.fresh] at ho1
      show c.orderMax = o
      omega
    · intro o i
      rw [ord]
      constructor
      · intro h
        split_ifs at h with h1
        · have : (0 : Nat) = i := by simpa using h
          subst this
          exact ⟨by simp, by rw [h0]; exact h1.symm⟩
        · simp at h
      · rintro ⟨hi, ho⟩
        rw [one hi, h0] at ho
        rw [if_pos ho.symm, one hi]
    · intro o ho
      simp only [CodeTree.fresh] at ho
      rw [ord, if_neg (by omega), if_pos (by omega)]
    · rfl
    · rfl
    · show ((c.orderMax : Nat) : Int) = (CodeTree.fresh c).nextOrder + 1
      simp [CodeTree.fresh]
    · intro p hp
      have : ((CodeTree.fresh c).N 0).parent = some p := hp
      rw [h0] at this; cases this
    · intro i hi _ hn; exact absurd (one hi) hn
    · intro i hi hl; rw [one hi, h0] at hl; simp at hl
    · intro s i
      constructor
      · intro h; simp [CodeTree.fresh] at h
      · rintro ⟨hi, _, hs⟩; rw [one hi, h0] at hs; cases hs
  · intro i hi l r hl; rw [one hi, h0] at hl; cases hl
  · intro i j hi hj hij; rw [one hi, one hj] at hij; omega

theorem treeReset_inv (hc : c.Valid) : TreeInv c (treeReset c) := treeReset_eq_fresh c ▸ fresh_inv hc

/-! ### Split -/

/-- R109: what the split leaves, entry by entry. -/
structure SplitResult (s : Symbol) (t t' : CodeTree) : Prop where
  nLive : t'.nLive = t.nLive + 2
  root : t'.root = t.root
  nyt : t'.nyt = t.nLive + 1
  nextOrder : t'.nextOrder = t.nextOrder - 2
  old : ∀ i, i < t.nLive → i ≠ t.nyt → t'.N i = t.N i
  former : t'.N t.nyt = setChildren (t.nLive + 1) t.nLive (t.N t.nyt)
  leaf : t'.N t.nLive = { weight := 1, symbol := some s, order := t.nextOrder.toNat, parent := some t.nyt,
                          left := none, right := none }
  newNyt : t'.N (t.nLive + 1) = { weight := 0, symbol := none, order := (t.nextOrder - 1).toNat,
                                  parent := some t.nyt, left := none, right := none }
  sym2leaf : ∀ s' : Symbol, t'.sym2leaf[s'.val] = if s' = s then some t.nLive else t.sym2leaf[s'.val]
  ord2node_length : t'.ord2node.length = t.ord2node.length
  ord2node : ∀ o : Nat, o < t.ord2node.length → t'.ord2node[o]? =
    if o = (t.nextOrder - 1).toNat then some (some (t.nLive + 1))
    else if o = t.nextOrder.toNat then some (some t.nLive) else t.ord2node[o]?

theorem split_spec (h : TreeShape c t) (s : Symbol) (hroom : 1 ≤ t.nextOrder) :
    ∃ t', split t s = .ok (t.nyt, t') ∧ SplitResult s t t' := by
  have hnl := h.nyt_live
  set t1 := (allocNode 1 (some s) (some t.nyt) t).2 with ht1
  set t2 := (allocNode 0 none (some t.nyt) t1).2 with ht2
  have hl1 : t1.nLive = t.nLive + 1 := allocNode_nLive ..
  have hl2 : t2.nLive = t.nLive + 2 := by rw [ht2, allocNode_nLive, hl1]
  have hno : t1.nextOrder = t.nextOrder - 1 := rfl
  have hN2 : ∀ j, t2.N j = if j = t.nLive + 1 then
      { weight := 0, symbol := none, order := (t.nextOrder - 1).toNat, parent := some t.nyt, left := none, right := none }
      else if j = t.nLive then
      { weight := 1, symbol := some s, order := t.nextOrder.toNat, parent := some t.nyt, left := none, right := none }
      else t.N j := by
    intro j
    rw [ht2, allocNode_N, hl1, hno, ht1, allocNode_N]
  set t' : CodeTree := { t2.modify t.nyt (setChildren (t.nLive + 1) t.nLive) with
      sym2leaf := t.sym2leaf.set s.val (some t.nLive) s.isLt, nyt := t.nLive + 1 } with ht'
  have hN' : ∀ j, t'.N j = if j = t.nyt then setChildren (t.nLive + 1) t.nLive (t2.N j) else t2.N j :=
    fun j => modify_N t2 t.nyt _ j (by omega)
  refine ⟨t', ?_, ?_⟩
  · unfold split
    rw [if_neg (by omega)]
    have i1 : (allocNode 1 (some s) (some t.nyt) t).1 = t.nLive := rfl
    have i2 : (allocNode 0 none (some t.nyt) t1).1 = t.nLive + 1 := by rw [allocNode_index, hl1]
    simp only [nodeAt_of_live hnl, orStuck_ok, ok_bind, ← ht1, i1, i2]
    rfl
  constructor
  · show (t2.modify _ _).nLive = _
    simp [hl2]
  · rfl
  · rfl
  · show t.nextOrder - 1 - 1 = t.nextOrder - 2
    omega
  · intro i hi hin
    rw [hN', if_neg hin, hN2, if_neg (by omega), if_neg (by omega)]
  · rw [hN', if_pos rfl, hN2, if_neg (by omega), if_neg (by omega)]
  · rw [hN', if_neg (by omega), hN2, if_neg (by omega), if_pos rfl]
  · rw [hN', if_neg (by omega), hN2, if_pos rfl]
  · intro s'
    show (t.sym2leaf.set s.val (some t.nLive) s.isLt)[s'.val] = _
    rw [Vector.getElem_set]
    by_cases hs : s' = s
    · subst hs; simp
    · rw [if_neg hs, if_neg (fun e => hs (Fin.ext e.symm))]
  · show ((t.ord2node.set _ _).set _ _).length = _
    simp
  · intro o ho
    show ((t.ord2node.set t.nextOrder.toNat (some t.nLive)).set (t.nextOrder - 1).toNat (some (t1.nLive)))[o]? = _
    rw [hl1]
    rw [List.getElem?_set, List.getElem?_set, List.length_set]
    by_cases h1 : o = (t.nextOrder - 1).toNat
    · rw [if_pos h1.symm, if_pos (h1 ▸ ho), if_pos h1]
    · rw [if_neg (Ne.symm h1), if_neg h1]
      by_cases h2 : o = t.nextOrder.toNat
      · rw [if_pos h2.symm, if_pos (h2 ▸ ho), if_pos h2]
      · rw [if_neg (Ne.symm h2), if_neg h2]

/-- R110, R202: after a split the walk starts at the former NYT node, in a state of a walk. -/
theorem SplitResult.walkInv {s : Symbol} (inv : TreeInv c t) (S : SplitResult s t t')
    (hunbound : t.sym2leaf[s.val] = none) (hroom : 1 ≤ t.nextOrder) : WalkInv c t' t.nyt := by
  have h := inv.toTreeShape
  have hnl := h.nyt_live
  have hlast := h.nyt_last
  have hnext := h.next
  have hno := h.nyt_order
  have hodd := h.odd
  have hrl := h.root_live
  have kind : ∀ {i}, i < t'.nLive → (i < t.nLive ∧ i ≠ t.nyt ∧ t'.N i = t.N i) ∨ i = t.nyt ∨ i = t.nLive ∨
      i = t.nLive + 1 := by
    intro i hi
    rw [S.nLive] at hi
    by_cases h1 : i < t.nLive
    · by_cases h2 : i = t.nyt
      · exact .inr (.inl h2)
      · exact .inl ⟨h1, h2, S.old i h1 h2⟩
    · right; right; omega
  have hF := S.former
  have hL := S.leaf
  have hZ := S.newNyt
  have hn2 : t'.nLive = t.nLive + 2 := S.nLive
  -- fields of old nodes that are not the former NYT node's children
  have oldpar : ∀ i, i < t.nLive → (t'.N i).parent = (t.N i).parent := by
    intro i hi
    by_cases h2 : i = t.nyt
    · subst h2; rw [hF]; rfl
    · rw [S.old i hi h2]
  have oldord : ∀ i, i < t.nLive → (t'.N i).order = (t.N i).order := by
    intro i hi
    by_cases h2 : i = t.nyt
    · subst h2; rw [hF]; rfl
    · rw [S.old i hi h2]
  have oldsym : ∀ i, i < t.nLive → (t'.N i).symbol = (t.N i).symbol := by
    intro i hi
    by_cases h2 : i = t.nyt
    · subst h2; rw [hF]; rfl
    · rw [S.old i hi h2]
  have oldw : ∀ i, i < t.nLive → (t'.N i).weight = (t.N i).weight := by
    intro i hi
    by_cases h2 : i = t.nyt
    · subst h2; rw [hF]; rfl
    · rw [S.old i hi h2]
  have hordlen : t.ord2node.length = c.nodeCap := h.ord2node_length
  have hom : (t.nextOrder : Int) < c.nodeCap := by
    have := (h.order_range t.nyt hnl)
    have h3 := h.cap
    unfold Config.orderMax at *
    omega
  have hshape : TreeShape c t' := by
    constructor
    · rw [S.root]; exact h.root_zero
    · rw [hn2]; omega
    · rw [hn2]
      have h3 := h.cap
      unfold Config.orderMax at *
      omega
    · rw [hn2, S.nextOrder, hnext]; push_cast; omega
    · rw [S.nyt, hn2]
    · rw [S.ord2node_length, hordlen]
    · rw [oldord 0 hrl]; exact h.root_order
    · intro i hi
      rcases kind hi with ⟨h1, h2, h3⟩ | h1 | h1 | h1
      · rw [h3]; exact h.parent_none i h1
      · subst h1; rw [oldpar _ hnl]; exact h.parent_none _ hnl
      · subst h1; rw [hL]; simp; omega
      · subst h1; rw [hZ]; simp
    · intro i hi
      rcases kind hi with ⟨h1, h2, h3⟩ | h1 | h1 | h1
      · rw [h3]; exact h.two_or_none i h1
      · subst h1; rw [hF]; simp
      · subst h1; rw [hL]
      · subst h1; rw [hZ]
    · intro i hi l hl
      rcases kind hi with ⟨h1, h2, h3⟩ | h1 | h1 | h1
      · rw [h3] at hl
        obtain ⟨h4, h5⟩ := h.left_child i h1 l hl
        exact ⟨by omega, by rw [oldpar l h4, h5]⟩
      · subst h1; rw [hF] at hl
        have : t.nLive + 1 = l := by simpa using hl
        subst this
        exact ⟨by omega, by rw [hZ]⟩
      · subst h1; rw [hL] at hl; cases hl
      · subst h1; rw [hZ] at hl; cases hl
    · intro i hi r hr
      rcases kind hi with ⟨h1, h2, h3⟩ | h1 | h1 | h1
      · rw [h3] at hr
        obtain ⟨h4, h5⟩ := h.right_child i h1 r hr
        exact ⟨by omega, by rw [oldpar r h4, h5]⟩
      · subst h1; rw [hF] at hr
        have : t.nLive = r := by simpa using hr
        subst this
        exact ⟨by omega, by rw [hL]⟩
      · subst h1; rw [hL] at hr; cases hr
      · subst h1; rw [hZ] at hr; cases hr
    · have up : ∀ i, i < t.nLive → ∀ p, (t.N i).parent = some p →
          p < t'.nLive ∧ ((t'.N p).left = some i ∨ (t'.N p).right = some i) := by
        intro i hi p hp
        obtain ⟨h4, h5⟩ := h.child_of_parent i hi p hp
        have h6 : p ≠ t.nyt := by
          rintro rfl
          exact (h.parent_internal hi hp).2 h.nyt_leaf
        exact ⟨by omega, by rw [S.old p h4 h6]; exact h5⟩
      intro i hi p hp
      rcases kind hi with ⟨h1, h2, h3⟩ | h1 | h1 | h1
      · rw [h3] at hp; exact up i h1 p hp
      · subst h1; rw [oldpar _ hnl] at hp; exact up _ hnl p hp
      · subst h1; rw [hL] at hp; cases hp
        exact ⟨by omega, by rw [hF]; simp⟩
      · subst h1; rw [hZ] at hp; cases hp
        exact ⟨by omega, by rw [hF]; simp⟩
    · intro i hi l r hl hr
      rcases kind hi with ⟨h1, h2, h3⟩ | h1 | h1 | h1
      · rw [h3] at hl hr
        rw [oldord l (h.left_child i h1 l hl).1, oldord r (h.right_child i h1 r hr).1]
        exact h.siblings i h1 l r hl hr
      · subst h1; rw [hF] at hl hr
        have e1 : t.nLive + 1 = l := by simpa using hl
        have e2 : t.nLive = r := by simpa using hr
        subst e1; subst e2
        rw [hL, hZ]
        show t.nextOrder.toNat = (t.nextOrder - 1).toNat + 1
        omega
      · subst h1; rw [hL] at hl; cases hl
      · subst h1; rw [hZ] at hl; cases hl
    · intro i hi l hl
      rcases kind hi with ⟨h1, h2, h3⟩ | h1 | h1 | h1
      · rw [h3] at hl
        rw [oldord l (h.left_child i h1 l hl).1]
        exact h.left_parity i h1 l hl
      · subst h1; rw [hF] at hl
        have e1 : t.nLive + 1 = l := by simpa using hl
        subst e1
        rw [hZ]
        show (t.nextOrder - 1).toNat % 2 = c.orderMax % 2
        omega
      · subst h1; rw [hL] at hl; cases hl
      · subst h1; rw [hZ] at hl; cases hl
    · intro i hi r hr
      rcases kind hi with ⟨h1, h2, h3⟩ | h1 | h1 | h1
      · rw [h3] at hr ⊢
        rw [oldord r (h.right_child i h1 r hr).1]
        exact h.parent_order i h1 r hr
      · subst h1
        rw [hF] at hr
        have e2 : t.nLive = r := by simpa using hr
        subst e2
        rw [hL, oldord _ hnl]
        show t.nextOrder.toNat < _
        omega
      · subst h1; rw [hL] at hr; cases hr
      · subst h1; rw [hZ] at hr; cases hr
    · intro i hi
      rw [S.nextOrder]
      rcases kind hi with ⟨h1, h2, h3⟩ | h1 | h1 | h1
      · rw [h3]; have := h.order_range i h1; omega
      · subst h1; rw [oldord _ hnl]; have := h.order_range _ hnl; omega
      · subst h1; rw [hL]
        have := h.order_range _ hnl
        show t.nextOrder - 2 < (t.nextOrder.toNat : Int) ∧ t.nextOrder.toNat ≤ c.orderMax
        omega
      · subst h1; rw [hZ]
        have := h.order_range _ hnl
        show t.nextOrder - 2 < ((t.nextOrder - 1).toNat : Int) ∧ (t.nextOrder - 1).toNat ≤ c.orderMax
        omega
    · have cls : ∀ {i}, i < t'.nLive → (i < t.nLive ∧ t.nextOrder < (t'.N i).order ∧ (t'.N i).order = (t.N i).order) ∨
          (i = t.nLive ∧ ((t'.N i).order : Int) = t.nextOrder) ∨
          (i = t.nLive + 1 ∧ ((t'.N i).order : Int) = t.nextOrder - 1) := by
        intro i hi
        by_cases h1 : i < t.nLive
        · left; refine ⟨h1, ?_, oldord i h1⟩
          rw [oldord i h1]; exact (h.order_range i h1).1
        · right
          by_cases h2 : i = t.nLive
          · left; refine ⟨h2, ?_⟩
            subst h2; rw [hL]
            show (t.nextOrder.toNat : Int) = _
            omega
          · right
            have h3 : i = t.nLive + 1 := by omega
            refine ⟨h3, ?_⟩
            subst h3; rw [hZ]
            show ((t.nextOrder - 1).toNat : Int) = _
            omega
      intro i j hi hj hij
      rcases cls hi with ⟨a1, a2, a3⟩ | ⟨a1, a2⟩ | ⟨a1, a2⟩ <;> rcases cls hj with ⟨b1, b2, b3⟩ | ⟨b1, b2⟩ | ⟨b1, b2⟩
      · exact h.order_distinct i j a1 b1 (by omega)
      all_goals omega
    · intro o ho1 ho2
      rw [S.nextOrder] at ho1
      by_cases h1 : t.nextOrder < o
      · obtain ⟨i, hi, hio⟩ := h.order_used o h1 ho2
        exact ⟨i, by omega, by rw [oldord i hi]; exact hio⟩
      · by_cases h2 : (o : Int) = t.nextOrder
        · refine ⟨t.nLive, by omega, ?_⟩
          rw [hL]
          show t.nextOrder.toNat = o
          omega
        · refine ⟨t.nLive + 1, by omega, ?_⟩
          rw [hZ]
          show (t.nextOrder - 1).toNat = o
          omega
    · intro o i
      by_cases ho : o < t.ord2node.length
      · rw [S.ord2node o ho]
        by_cases h1 : o = (t.nextOrder - 1).toNat
        · rw [if_pos h1]
          constructor
          · intro e
            have e : t.nLive + 1 = i := by simpa using e
            subst e
            exact ⟨by omega, by rw [hZ]; exact h1.symm⟩
          · rintro ⟨hi, hio⟩
            rcases kind hi with ⟨a1, a2, a3⟩ | a1 | a1 | a1
            · have := h.order_range i a1; rw [a3] at hio; omega
            · subst a1; rw [oldord _ hnl] at hio; omega
            · subst a1; rw [hL] at hio
              have : t.nextOrder.toNat = o := hio
              omega
            · rw [a1]
        · rw [if_neg h1]
          by_cases h2 : o = t.nextOrder.toNat
          · rw [if_pos h2]
            constructor
            · intro e
              have e : t.nLive = i := by simpa using e
              subst e
              exact ⟨by omega, by rw [hL]; exact h2.symm⟩
            · rintro ⟨hi, hio⟩
              rcases kind hi with ⟨a1, a2, a3⟩ | a1 | a1 | a1
              · have := h.order_range i a1; rw [a3] at hio; omega
              · subst a1; rw [oldord _ hnl] at hio; omega
              · rw [a1]
              · subst a1; rw [hZ] at hio; exact absurd hio.symm h1
          · rw [if_neg h2, h.ord2node_iff]
            constructor
            · rintro ⟨hi, hio⟩
              exact ⟨by omega, by rw [oldord i hi]; exact hio⟩
            · rintro ⟨hi, hio⟩
              rcases kind hi with ⟨a1, a2, a3⟩ | a1 | a1 | a1
              · exact ⟨a1, by rw [← a3]; exact hio⟩
              · subst a1; exact ⟨hnl, by rw [← oldord _ hnl]; exact hio⟩
              · subst a1; rw [hL] at hio; exact absurd hio.symm h2
              · subst a1; rw [hZ] at hio; exact absurd hio.symm h1
      · have hlen : t'.ord2node.length = t.ord2node.length := S.ord2node_length
        rw [List.getElem?_eq_none (by omega)]
        constructor
        · intro e; cases e
        · rintro ⟨hi, hio⟩
          exfalso
          rcases kind hi with ⟨a1, a2, a3⟩ | a1 | a1 | a1
          · have := h.order_range i a1
            rw [a3] at hio
            unfold Config.orderMax at this
            omega
          · subst a1
            have := h.order_range _ hnl
            rw [oldord _ hnl] at hio
            unfold Config.orderMax at this
            omega
          · subst a1; rw [hL] at hio
            have : t.nextOrder.toNat = o := hio
            omega
          · subst a1; rw [hZ] at hio
            have : (t.nextOrder - 1).toNat = o := hio
            omega
    · intro o ho
      rw [S.nextOrder] at ho
      rw [S.ord2node o (by omega), if_neg (by omega), if_neg (by omega)]
      exact h.ord2node_free o (by omega)
    · rw [S.nyt, hZ]
    · rw [S.nyt, hZ]
    · rw [S.nyt, hZ, S.nextOrder]
      show ((t.nextOrder - 1).toNat : Int) = _
      omega
    · intro p hp
      rw [S.nyt, hZ] at hp
      have e : t.nyt = p := by simpa using hp
      subst e
      rw [S.nyt, hZ, hF]
      refine ⟨rfl, ?_⟩
      show (t.N t.nyt).order = (t.nextOrder - 1).toNat + 2
      omega
    · intro i hi hl hin
      rw [S.nyt] at hin
      rcases kind hi with ⟨h1, h2, h3⟩ | h1 | h1 | h1
      · rw [h3] at hl ⊢; exact h.leaf_bound i h1 hl h2
      · subst h1; rw [hF] at hl; simp at hl
      · subst h1; rw [hL]; simp
      · exact absurd h1 hin
    · intro i hi hl
      rcases kind hi with ⟨h1, h2, h3⟩ | h1 | h1 | h1
      · rw [h3] at hl ⊢; exact h.internal_unbound i h1 hl
      · subst h1; rw [hF]; exact h.nyt_unbound
      · subst h1; rw [hL] at hl; simp at hl
      · subst h1; rw [hZ] at hl; simp at hl
    · intro s' i
      rw [S.sym2leaf]
      by_cases hs : s' = s
      · subst hs
        rw [if_pos rfl]
        constructor
        · intro e
          have e : t.nLive = i := by simpa using e
          subst e
          exact ⟨by omega, by rw [hL], by rw [hL]⟩
        · rintro ⟨hi, hl, hsym⟩
          rcases kind hi with ⟨h1, h2, h3⟩ | h1 | h1 | h1
          · rw [h3] at hl hsym
            rw [(h.sym2leaf_iff s' i).2 ⟨h1, hl, hsym⟩] at hunbound
            cases hunbound
          · subst h1; rw [hF] at hl; simp at hl
          · rw [h1]
          · subst h1; rw [hZ] at hsym; cases hsym
      · rw [if_neg hs, h.sym2leaf_iff]
        constructor
        · rintro ⟨hi, hl, hsym⟩
          have hin : i ≠ t.nyt := by rintro rfl; rw [h.nyt_unbound] at hsym; cases hsym
          exact ⟨by omega, by rw [S.old i hi hin]; exact hl, by rw [S.old i hi hin]; exact hsym⟩
        · rintro ⟨hi, hl, hsym⟩
          rcases kind hi with ⟨h1, h2, h3⟩ | h1 | h1 | h1
          · rw [h3] at hl hsym; exact ⟨h1, hl, hsym⟩
          · subst h1; rw [hF] at hl; simp at hl
          · subst h1; rw [hL] at hsym
            exact absurd (Option.some.inj hsym).symm hs
          · subst h1; rw [hZ] at hsym; cases hsym
  refine ⟨hshape, by omega, by rw [S.nyt]; omega, by rw [S.nyt, hZ], ?_, ?_, .inr ⟨by rw [hF, S.nyt]; rfl, ?_, ?_⟩⟩
  · intro i hi hi0
    rw [S.nyt]
    rcases kind hi with ⟨h1, h2, h3⟩ | h1 | h1 | h1
    · rw [h3] at hi0; exact absurd (inv.zero_weight i h1 hi0) h2
    · exact .inr h1
    · subst h1; rw [hL] at hi0; cases hi0
    · exact .inl h1
  · intro i hi l r hl hr
    rcases kind hi with ⟨h1, h2, h3⟩ | h1 | h1 | h1
    · rw [h3] at hl hr ⊢
      rw [oldw l (h.left_child i h1 l hl).1, oldw r (h.right_child i h1 r hr).1, if_neg h2]
      exact inv.weight_sum i h1 l r hl hr
    · subst h1
      have hw := oldw _ hnl
      rw [hF] at hl hr
      have e1 : t.nLive + 1 = l := by simpa using hl
      have e2 : t.nLive = r := by simpa using hr
      subst e1; subst e2
      rw [hw, hL, hZ, inv.nyt_weight, if_pos rfl]
    · subst h1; rw [hL] at hl; cases hl
    · subst h1; rw [hZ] at hl; cases hl
  · intro i hi hio
    rw [oldord _ hnl] at hio
    rw [oldw _ hnl, inv.nyt_weight]
    rcases kind hi with ⟨h1, h2, h3⟩ | h1 | h1 | h1
    · rw [h3]
      exact Nat.pos_of_ne_zero fun e => h2 (inv.zero_weight i h1 e)
    · subst h1; rw [oldord _ hnl] at hio; omega
    · subst h1; rw [hL] at hio
      have : (t.N t.nyt).order < t.nextOrder.toNat := hio
      omega
    · subst h1; rw [hZ] at hio
      have : (t.N t.nyt).order < (t.nextOrder - 1).toNat := hio
      omega
  · intro i j hi hj hin hij
    have hj0 : ∀ {j}, j = t.nyt → (t'.N j).weight = 0 := by rintro j rfl; rw [oldw _ hnl, inv.nyt_weight]
    rcases kind hi with ⟨a1, a2, a3⟩ | a1 | a1 | a1
    · have hpos : 0 < (t.N i).weight := Nat.pos_of_ne_zero fun e => a2 (inv.zero_weight i a1 e)
      rcases kind hj with ⟨b1, b2, b3⟩ | b1 | b1 | b1
      · rw [a3, b3] at hij ⊢; exact inv.sibling_property i j a1 b1 hij
      · rw [hj0 b1]; omega
      · subst b1; rw [hL, a3]; exact hpos
      · subst b1; rw [hZ]; exact Nat.zero_le _
    · exact absurd a1 hin
    · subst a1
      rw [hL] at hij
      rcases kind hj with ⟨b1, b2, b3⟩ | b1 | b1 | b1
      · rw [b3] at hij
        have := h.order_range j b1
        have : (t.N j).order < t.nextOrder.toNat := hij
        omega
      · rw [hj0 b1]; exact Nat.zero_le _
      · subst b1; exact Nat.le_refl _
      · subst b1; rw [hZ]; exact Nat.zero_le _
    · subst a1
      rw [hZ] at hij
      rcases kind hj with ⟨b1, b2, b3⟩ | b1 | b1 | b1
      · rw [b3] at hij
        have := h.order_range j b1
        have : (t.N j).order < (t.nextOrder - 1).toNat := hij
        omega
      · rw [hj0 b1]; exact Nat.zero_le _
      · subst b1; rw [hL] at hij
        have : t.nextOrder.toNat < (t.nextOrder - 1).toNat := hij
        omega
      · subst b1; exact Nat.le_refl _

/-! ### The walk of a bound symbol -/

theorem TreeInv.walkInv (inv : TreeInv c t) {s : Symbol} {i : Nat} (hs : t.sym2leaf[s.val] = some i) :
    WalkInv c t i := by
  obtain ⟨hi, hl, hsym⟩ := (inv.sym2leaf_iff s i).1 hs
  have hin : i ≠ t.nyt := by rintro rfl; rw [inv.nyt_unbound] at hsym; cases hsym
  refine ⟨inv.toTreeShape, hi, hin, inv.nyt_weight, fun j hj h0 => .inl (inv.zero_weight j hj h0), ?_, .inl ⟨?_, ?_⟩⟩
  · intro j hj l r hl' hr'
    rw [if_neg (by rintro rfl; rw [hl] at hl'; cases hl')]
    exact inv.weight_sum j hj l r hl' hr'
  · exact fun h0 => hin (inv.zero_weight i hi h0)
  · exact inv.sibling_property

/-- R110: the start of `update`'s walk is a state of the walk. -/
theorem TreeInv.walkStart_walkInv (inv : TreeInv c t) {s : Symbol} {cur : Nat} {t1 : CodeTree}
    (hs : walkStart t s = .ok (cur, t1)) : WalkInv c t1 cur := by
  unfold walkStart at hs
  split at hs
  · next hb =>
    by_cases hroom : t.nextOrder < 1
    · unfold split at hs; rw [if_pos hroom] at hs; cases hs
    · obtain ⟨t', ht', S⟩ := split_spec inv.toTreeShape s (by omega)
      rw [ht'] at hs; cases hs
      exact S.walkInv inv hb (by omega)
  · next hb => cases hs; exact inv.walkInv hb

/-- R111: so is every later step. -/
theorem OnWalk.walkInv (hc : c.Valid) (inv : TreeInv c t) {s : Symbol} {t1 : CodeTree} {cur : Nat}
    (h : OnWalk c s t t1 cur) : WalkInv c t1 cur := by
  induction h with
  | start h => exact inv.walkStart_walkInv h
  | next _ hreb hp ih =>
    obtain ⟨t2, h2, R⟩ := ih.rebalance hc
    rw [hreb] at h2; cases h2
    exact (ih.next R hp).1

/-! ### `update` -/

/-- What a completed `update(s)` does (R107, R109, R110, R195, R196): the invariants hold again; the root has gained 1; a new
symbol gets the two next entries, a bound one allocates nothing; every other leaf keeps its symbol and weight. -/
structure Updated (c : Config) (s : Symbol) (t t' : CodeTree) : Prop where
  inv : TreeInv c t'
  root_weight : (t'.N 0).weight = (t.N 0).weight + 1
  bound : ∀ i, t.sym2leaf[s.val] = some i →
    t'.nLive = t.nLive ∧ t'.nyt = t.nyt ∧ t'.nextOrder = t.nextOrder ∧ t'.sym2leaf = t.sym2leaf ∧
    (t'.N i).weight = (t.N i).weight + 1
  new : t.sym2leaf[s.val] = none →
    t'.nLive = t.nLive + 2 ∧ t'.nyt = t.nLive + 1 ∧ t'.nextOrder = t.nextOrder - 2 ∧
    t'.sym2leaf[s.val] = some t.nLive ∧ (t'.N t.nLive).weight = 1
  sym2leaf : ∀ s' : Symbol, s' ≠ s → t'.sym2leaf[s'.val] = t.sym2leaf[s'.val]
  now_bound : t'.Bound s
  other_weight : ∀ s' : Symbol, s' ≠ s → ∀ i, t.sym2leaf[s'.val] = some i → (t'.N i).weight = (t.N i).weight
  symbol : ∀ i, i < t.nLive → (t'.N i).symbol = (t.N i).symbol
  /-- R110, R111: exactly the nodes on the final path of the walk's start gain 1. -/
  on_path : ∀ i, i < t.nLive → (∃ bits, descend t' i bits = some ((t.sym2leaf[s.val]).getD t.nyt)) →
    (t'.N i).weight = (t.N i).weight + 1
  off_path : ∀ i, i < t.nLive → (¬ ∃ bits, descend t' i bits = some ((t.sym2leaf[s.val]).getD t.nyt)) →
    (t'.N i).weight = (t.N i).weight

/-- R194, R198: no weight exceeds the root's. -/
theorem WeightedTree.weight_le_root (h : WeightedTree c t) {i : Nat} (hi : i < t.nLive) :
    (t.N i).weight ≤ (t.N 0).weight := by
  by_cases h0 : i = 0
  · rw [h0]
  · have h1 := h.root_order
    have h2 := (h.order_range i hi).2
    have h3 : (t.N i).order ≠ (t.N 0).order := fun e => h0 (h.order_distinct i 0 hi h.toTreeShape.root_live e)
    exact h.sibling_property 0 i h.toTreeShape.root_live hi (by omega)

/-- R118: a tree whose root's weight is in range has every weight in range. -/
theorem WeightedTree.inRange (h : WeightedTree c t) (hr : (t.N 0).weight ≤ c.weightMax) : TreeInv c t :=
  ⟨h, fun _ hi => (h.weight_le_root hi).trans hr⟩

theorem update_ok (hc : c.Valid) (inv : TreeInv c t) (s : Symbol) (hroom : t.HasRoom c s) :
    ∃ t', update c t s = .ok t' ∧ Updated c s t t' := by
  have h := inv.toTreeShape
  have hroot : nodeAt t t.root = .ok (t.N t.root) := nodeAt_of_live (by rw [h.root_zero]; exact h.root_live)
  have hlt : (t.N 0).weight + 1 ≤ c.weightMax := by
    have h1 := inv.weight_range 0 h.root_live
    have h2 := hroom.1
    rw [h.root_zero] at h2
    omega
  have hfuel : ∀ {t : CodeTree} {i}, TreeShape c t → i < t.nLive → pairIndex c t i < c.maxDepth + 1 :=
    fun h hi => Nat.lt_succ_of_le (h.pairIndex_le hc hi)
  have hunf : ∀ {i t1}, walkStart t s = .ok (i, t1) → update c t s = orStuck (walk c (c.maxDepth + 1) t1 i) := by
    intro i t1 hws
    unfold update
    simp only [hroot, orStuck_ok, ok_bind]
    rw [if_neg hroom.1, hws]
    rfl
  cases hs : t.sym2leaf[s.val] with
  | some i =>
    have w := inv.walkInv hs
    obtain ⟨hi, hl, hsym⟩ := (inv.sym2leaf_iff s i).1 hs
    obtain ⟨t', hwalk, W⟩ := w.walk hc _ (hfuel h hi)
    have hws : walkStart t s = .ok (i, t) := by unfold walkStart; rw [hs]
    refine ⟨t', by rw [hunf hws, hwalk]; rfl, W.inv.inRange (by rw [W.root_weight]; exact hlt), W.root_weight, ?_, ?_, ?_, ?_, ?_, W.same.symbol,
      by rw [hs]; exact W.on_path, by rw [hs]; exact W.off_path⟩
    · intro j hj
      rw [hs] at hj; cases hj
      refine ⟨W.same.nLive, W.same.nyt, W.same.nextOrder, W.same.sym2leaf, ?_⟩
      rw [W.leaf_weight i hi hl, if_pos rfl]
    · intro e; rw [hs] at e; cases e
    · intro s' _; rw [W.same.sym2leaf]
    · show t'.sym2leaf[s.val] ≠ none
      rw [W.same.sym2leaf, hs]; simp
    · intro s' hs' j hj
      obtain ⟨hjl, hjleaf, hjs⟩ := (inv.sym2leaf_iff s' j).1 hj
      have hji : j ≠ i := by rintro rfl; rw [hsym] at hjs; exact hs' (Option.some.inj hjs).symm
      rw [W.leaf_weight j hjl hjleaf, if_neg hji]
      rfl
  | none =>
    have hno : 1 ≤ t.nextOrder := hroom.2.resolve_left fun hb => hb hs
    obtain ⟨t1, hsplit, S⟩ := split_spec h s hno
    have w := S.walkInv inv hs hno
    obtain ⟨t', hwalk, W⟩ := w.walk hc _ (hfuel w.shape w.live)
    have hws : walkStart t s = .ok (t.nyt, t1) := by unfold walkStart; rw [hs]; exact hsplit
    have hnl := h.nyt_live
    have hroot1 : (t1.N 0).weight = (t.N 0).weight := by
      by_cases h0 : (0 : Nat) = t.nyt
      · rw [h0, S.former]; rfl
      · rw [S.old 0 h.root_live h0]
    have hlift : ∀ {i}, i < t.nLive → i < t1.nLive := fun hi => by rw [S.nLive]; omega
    have hw1 : ∀ i, i < t.nLive → (t1.N i).weight = (t.N i).weight := by
      intro i hi
      by_cases hin : i = t.nyt
      · rw [hin, S.former]; rfl
      · rw [S.old i hi hin]
    refine ⟨t', by rw [hunf hws, hwalk]; rfl, W.inv.inRange (by rw [W.root_weight, hroot1]; exact hlt), by rw [W.root_weight, hroot1], ?_, ?_, ?_, ?_, ?_, ?_, ?_, ?_⟩
    · intro i e; rw [hs] at e; cases e
    · intro _
      refine ⟨by rw [W.same.nLive, S.nLive], by rw [W.same.nyt, S.nyt], by rw [W.same.nextOrder, S.nextOrder],
        by rw [W.same.sym2leaf, S.sym2leaf, if_pos rfl], ?_⟩
      rw [W.leaf_weight t.nLive (by rw [S.nLive]; omega) (by rw [S.leaf]), S.leaf, if_neg (by omega)]
    · intro s' hs'; rw [W.same.sym2leaf, S.sym2leaf, if_neg hs']
    · show t'.sym2leaf[s.val] ≠ none
      rw [W.same.sym2leaf, S.sym2leaf, if_pos rfl]; simp
    · intro s' hs' j hj
      obtain ⟨hjl, hjleaf, hjs⟩ := (inv.sym2leaf_iff s' j).1 hj
      have hjn : j ≠ t.nyt := by rintro rfl; rw [h.nyt_unbound] at hjs; cases hjs
      have hold := S.old j hjl hjn
      rw [W.leaf_weight j (by rw [S.nLive]; omega) (by rw [hold]; exact hjleaf), hold, if_neg hjn]
      rfl
    · intro i hi
      rw [W.same.symbol i (hlift hi)]
      by_cases hin : i = t.nyt
      · rw [hin, S.former]; rfl
      · rw [S.old i hi hin]
    · intro i hi hab
      rw [hs] at hab
      rw [W.on_path i (hlift hi) hab, hw1 i hi]
    · intro i hi hab
      rw [hs] at hab
      rw [W.off_path i (hlift hi) hab, hw1 i hi]

/-- R225, R232: the weight test comes first. -/
theorem update_weightOverflow (inv : TreeInv c t) (s : Symbol) (hw : (t.N t.root).weight = c.weightMax) :
    update c t s = .error (.raise .weightOverflow) := by
  have hroot : nodeAt t t.root = .ok (t.N t.root) :=
    nodeAt_of_live (by rw [inv.root_zero]; exact inv.toTreeShape.root_live)
  unfold update
  simp only [hroot, orStuck_ok, ok_bind]
  rw [if_pos hw]

/-- R222: a new symbol and fewer than two free entries. -/
theorem update_nodeTableOverflow (inv : TreeInv c t) (s : Symbol) (hw : (t.N t.root).weight ≠ c.weightMax)
    (hs : t.sym2leaf[s.val] = none) (hno : t.nextOrder < 1) :
    update c t s = .error (.raise .nodeTableOverflow) := by
  have hroot : nodeAt t t.root = .ok (t.N t.root) :=
    nodeAt_of_live (by rw [inv.root_zero]; exact inv.toTreeShape.root_live)
  unfold update
  simp only [hroot, orStuck_ok, ok_bind]
  rw [if_neg hw]
  unfold walkStart
  rw [hs]
  unfold split
  rw [if_pos hno]
  rfl

/-- `update` on a tree that meets the invariants: a completed update or one of the two faults, never stuck. -/
theorem update_cases (hc : c.Valid) (inv : TreeInv c t) (s : Symbol) :
    (t.HasRoom c s ∧ ∃ t', update c t s = .ok t' ∧ Updated c s t t') ∨
    ((t.N t.root).weight = c.weightMax ∧ update c t s = .error (.raise .weightOverflow)) ∨
    ((t.N t.root).weight ≠ c.weightMax ∧ t.sym2leaf[s.val] = none ∧ t.nextOrder < 1 ∧
      update c t s = .error (.raise .nodeTableOverflow)) := by
  by_cases hw : (t.N t.root).weight = c.weightMax
  · exact .inr (.inl ⟨hw, update_weightOverflow inv s hw⟩)
  · by_cases hs : t.sym2leaf[s.val] = none
    · by_cases hno : t.nextOrder < 1
      · exact .inr (.inr ⟨hw, hs, hno, update_nodeTableOverflow inv s hw hs hno⟩)
      · have hr : t.HasRoom c s := ⟨hw, .inr (by omega)⟩
        exact .inl ⟨hr, update_ok hc inv s hr⟩
    · have hr : t.HasRoom c s := ⟨hw, .inl hs⟩
      exact .inl ⟨hr, update_ok hc inv s hr⟩

end Sys2Proof.Machine
end

