-- ==== Sys2Proof/Laws/Codec.lean ====
section
/-! SUPPORT. The Codec, unit by unit: what one `encode` does, what the decoder does with one unit, and that neither meets a
`stuck` case on a tree that meets the invariants (42_codec.md R161 to R179). -/

namespace Sys2Proof.Machine

open Sys2Proof

variable {c : Config} {t : CodeTree}

/-! ### The update inside a command -/

@[simp] theorem andThen_go (s : State) (k : State → Flow) : (Flow.go s).andThen k = k s := rfl
@[simp] theorem andThen_ended (s : State) (k : State → Flow) : (Flow.ended s).andThen k = .ended s := rfl
@[simp] theorem andThen_stuck (f : Fault) (k : State → Flow) : (Flow.stuck f).andThen k = .stuck f := rfl

theorem updateTree_ok {sym : Symbol} {s : State} {t' : CodeTree} (h : update c s.tree sym = .ok t') :
    updateTree c sym s = .go (setTree t' s) := by
  unfold updateTree; rw [h]

/-- `update` inside a command: it goes on with a tree that meets the invariants again, or one of the two faults is raised and
the tree is as it was. -/
theorem updateTree_cases (hc : c.Valid) (sym : Symbol) {s : State} (inv : TreeInv c s.tree) :
    (s.tree.HasRoom c sym ∧ ∃ t', update c s.tree sym = .ok t' ∧ updateTree c sym s = .go (setTree t' s) ∧
      Updated c sym s.tree t') ∨
    ((s.tree.N s.tree.root).weight = c.weightMax ∧ updateTree c sym s = .ended (raiseFault .weightOverflow s)) ∨
    ((s.tree.N s.tree.root).weight ≠ c.weightMax ∧ s.tree.sym2leaf[sym.val] = none ∧ s.tree.nextOrder < 1 ∧
      updateTree c sym s = .ended (raiseFault .nodeTableOverflow s)) := by
  rcases update_cases hc inv sym with ⟨hr, t', h, U⟩ | ⟨hw, h⟩ | ⟨hw, hs, hn, h⟩
  · exact .inl ⟨hr, t', h, updateTree_ok h, U⟩
  · exact .inr (.inl ⟨hw, by unfold updateTree; rw [h]⟩)
  · exact .inr (.inr ⟨hw, hs, hn, by unfold updateTree; rw [h]⟩)

/-! ### The code bits -/

@[simp] theorem literalBits_length (sym : Symbol) : (literalBits sym).length = 9 := rfl

/-- R165: the code of a symbol is defined; its length, by case. -/
theorem codeBits_spec (hc : c.Valid) (h : TreeShape c t) (sym : Symbol) :
    ∃ bits, codeBits c t sym = .ok bits ∧ IsUnit c t sym bits ∧
      (∀ leaf, t.sym2leaf[sym.val] = some leaf → pathOf c t leaf = .ok bits ∧ bits.length ≤ c.maxDepth) ∧
      (t.sym2leaf[sym.val] = none → ∃ path, pathOf c t t.nyt = .ok path ∧ path.length ≤ c.maxDepth ∧
        bits = path ++ literalBits sym) := by
  cases hs : t.sym2leaf[sym.val] with
  | some leaf =>
    obtain ⟨hl, -, -⟩ := (h.sym2leaf_iff sym leaf).1 hs
    obtain ⟨bits, hp, hlen, -⟩ := h.pathOf_spec hc hl
    refine ⟨bits, by unfold codeBits; rw [hs]; exact hp, .inl ⟨leaf, hs, hp⟩, ?_, fun e => by cases e⟩
    intro l e; cases e
    exact ⟨hp, hlen⟩
  | none =>
    obtain ⟨path, hp, hlen, -⟩ := h.pathOf_spec hc h.nyt_live
    refine ⟨path ++ literalBits sym, ?_, .inr ⟨path, hp, rfl⟩, ?_, fun _ => ⟨path, hp, hlen, rfl⟩⟩
    · unfold codeBits; rw [hs]; simp only [hp, ok_bind]
    · intro l e; cases e

theorem encodeSymbol_eq {sym : Symbol} {s : State} {bits : List Bool} (h : codeBits c s.tree sym = .ok bits) :
    encodeSymbol c sym s = updateTree c sym (writeBits bits s) := by
  unfold encodeSymbol; rw [h]

/-- The tree is not touched by writing bits. -/
theorem SameButWrite.tree {s s' : State} (h : SameButWrite s s') : s'.tree = s.tree := by rw [SameButWrite] at h; rw [h]
theorem SameButWrite.source {s s' : State} (h : SameButWrite s s') : s'.source = s.source := by rw [SameButWrite] at h; rw [h]
theorem SameButWrite.pos {s s' : State} (h : SameButWrite s s') : s'.pos = s.pos := by rw [SameButWrite] at h; rw [h]

/-! ### Reading bits -/

theorem SameButRead.tree {s s' : State} (h : SameButRead s s') : s'.tree = s.tree := by rw [SameButRead] at h; rw [h]
theorem SameButRead.sink {s s' : State} (h : SameButRead s s') : s'.sink = s.sink := by rw [SameButRead] at h; rw [h]
theorem SameButRead.source {s s' : State} (h : SameButRead s s') : s'.source = s.source := by rw [SameButRead] at h; rw [h]

/-- What reading keeps of the read side (R38, R61). -/
def ReadOk (s s' : State) : Prop :=
  SameButRead s s' ∧ (s.rCnt.val ≤ 7 → s'.rCnt.val ≤ 7) ∧ (SourceInv s → SourceInv s')

theorem ReadOk.refl (s : State) : ReadOk s s := ⟨rfl, id, id⟩

theorem ReadOk.trans {s1 s2 s3 : State} (h1 : ReadOk s1 s2) (h2 : ReadOk s2 s3) : ReadOk s1 s3 :=
  ⟨h1.1.trans h2.1, fun h => h2.2.1 (h1.2.1 h), fun h => h2.2.2 (h1.2.2 h)⟩

theorem ReadOk.tree {s s' : State} (h : ReadOk s s') : s'.tree = s.tree := h.1.tree

/-- The value that bits read one after the other spell (R175). -/
def bitsValue (lit : Nat) (bits : List Bool) : Nat := bits.foldl (fun v b => 2 * v + (if b then 1 else 0)) lit

/-- R175: `n` bits read, or the end of the input met with all bits gone. -/
theorem readLiteral_cases (n lit : Nat) (s : State) :
    (∃ bits rest s', bits.length = n ∧ bitsIn s = bits ++ rest ∧ readLiteral n lit s = (some (bitsValue lit bits), s') ∧
      bitsIn s' = rest ∧ ReadOk s s') ∨
    (∃ s', (bitsIn s).length < n ∧ readLiteral n lit s = (none, s') ∧ bitsIn s' = [] ∧ ReadOk s s') := by
  induction n generalizing lit s with
  | zero => exact .inl ⟨[], bitsIn s, s, rfl, rfl, rfl, rfl, ReadOk.refl s⟩
  | succ n ih =>
    rcases readBit_cases s with ⟨hb, hr⟩ | ⟨b, rest, s1, hb, hr, h1, hsame, hcnt, hsrc⟩
    · right
      exact ⟨s, by rw [hb]; exact Nat.succ_pos n, by simp only [readLiteral, hr], hb, ReadOk.refl s⟩
    · have hok : ReadOk s s1 := ⟨hsame, fun _ => hcnt, hsrc⟩
      have hstep : readLiteral (n + 1) lit s = readLiteral n (2 * lit + (if b then 1 else 0)) s1 := by
        simp only [readLiteral, hr]
      rcases ih (2 * lit + (if b then 1 else 0)) s1 with ⟨bits, rest', s2, hl, hb1, hr1, h2, hok2⟩ | ⟨s2, hl, hr1, h2, hok2⟩
      · left
        exact ⟨b :: bits, rest', s2, by rw [List.length_cons, hl], by rw [hb, ← h1, hb1]; rfl,
          by rw [hstep, hr1]; rfl, h2, hok.trans hok2⟩
      · right
        exact ⟨s2, by rw [hb, List.length_cons, ← h1]; omega, by rw [hstep, hr1], h2, hok.trans hok2⟩

/-- R161, R175: the nine literal bits spell the symbol. -/
theorem bitsValue_literalBits : ∀ sym : Symbol, bitsValue 0 (literalBits sym) = sym.val := by decide +kernel

/-- R176: nine bits spell a number below 512, and a number up to 256 is spelt by its literal only. -/
theorem literalBits_of_value (bits : List Bool) (h9 : bits.length = 9) (hv : bitsValue 0 bits < 257) :
    bits = literalBits ⟨bitsValue 0 bits, hv⟩ := by
  match bits, h9 with
  | [b8, b7, b6, b5, b4, b3, b2, b1, b0], _ =>
    revert hv
    revert b0 b1 b2 b3 b4 b5 b6 b7 b8
    decide +kernel

/-! ### The descent -/

/-- One turn of the decoder at an internal node with a bit to read (R174). -/
theorem decodeLoop_bit {s : State} {fuel i j : Nat} {b : Bool} {rest : List Bool} (h : TreeShape c s.tree)
    (hi : i < s.tree.nLive) (hj : (if b then (s.tree.N i).right else (s.tree.N i).left) = some j)
    (hb : bitsIn s = b :: rest) :
    ∃ s', bitsIn s' = rest ∧ ReadOk s s' ∧ decodeLoop c (fuel + 1) i s = decodeLoop c fuel j s' := by
  obtain ⟨s', hr, h1, hsame, hcnt, hsrc⟩ := readBit_bit hb
  have hn : (s.tree.N i).left ≠ none := by
    intro e
    rw [h.child_none hi e b] at hj; cases hj
  refine ⟨s', h1, ⟨hsame, fun _ => hcnt, hsrc⟩, ?_⟩
  have hch : childOf s'.tree i b = .ok j := by rw [hsame.tree]; exact TreeShape.childOf_ok hi hj
  conv_lhs => unfold decodeLoop
  simp only [nodeAt_of_live hi, if_neg hn, hr, hch]

/-- The decoder follows a path of the tree, one turn a bit (R174). -/
theorem decodeLoop_path {s : State} {i n : Nat} (path rest : List Bool) (fuel : Nat) (h : TreeShape c s.tree)
    (hi : i < s.tree.nLive) (hd : descend s.tree i path = some n) (hb : bitsIn s = path ++ rest) :
    ∃ s', bitsIn s' = rest ∧ ReadOk s s' ∧ decodeLoop c (path.length + fuel) i s = decodeLoop c fuel n s' := by
  induction path generalizing i s with
  | nil => cases hd; exact ⟨s, hb, ReadOk.refl s, by rw [List.length_nil, Nat.zero_add]⟩
  | cons b path ih =>
    cases hch : (if b then (s.tree.N i).right else (s.tree.N i).left) with
    | none => simp only [descend, hch] at hd; cases hd
    | some j =>
      rw [descend_cons_some hch] at hd
      obtain ⟨s1, h1, hok, he⟩ := decodeLoop_bit (fuel := path.length + fuel) h hi hch (by rw [hb]; rfl)
      have hjl := (h.child_live hi hch).1
      obtain ⟨s2, h2, hok2, he2⟩ := ih (by rw [hok.tree]; exact h) (by rw [hok.tree]; exact hjl)
        (by rw [hok.tree]; exact hd) h1
      refine ⟨s2, h2, hok.trans hok2, ?_⟩
      rw [List.length_cons, show path.length + 1 + fuel = path.length + fuel + 1 by omega, he, he2]

/-- The decoder at a leaf (R173). -/
theorem decodeLoop_leaf {s : State} {i : Nat} (fuel : Nat) (hi : i < s.tree.nLive) (hl : (s.tree.N i).left = none) :
    decodeLoop c (fuel + 1) i s =
      match resolveLeaf i (s.tree.N i) s with
      | .stuck f => .stuck f
      | .ended s => .ended s
      | .symbol sym s => (emitSymbol c sym s).andThen fun s => decodeLoop c fuel s.tree.root s := by
  conv_lhs => unfold decodeLoop
  simp only [nodeAt_of_live hi, if_pos hl]
  all_goals rfl

/-- R179: no bit left at an internal node. -/
theorem decodeLoop_eoi {s : State} {i : Nat} (fuel : Nat) (hi : i < s.tree.nLive) (hn : (s.tree.N i).left ≠ none)
    (hb : bitsIn s = []) : decodeLoop c (fuel + 1) i s = .ended (stopDecoding .eoiDescent s) := by
  conv_lhs => unfold decodeLoop
  simp only [nodeAt_of_live hi, if_neg hn, readBit_eoi hb]

/-- R175, R176, R179: the NYT leaf. -/
theorem resolveLeaf_nyt (n : Node) (s : State) :
    (∃ sym rest s', bitsIn s = literalBits sym ++ rest ∧ bitsIn s' = rest ∧ ReadOk s s' ∧
      resolveLeaf s.tree.nyt n s = .symbol sym s') ∨
    (∃ s', (bitsIn s).length < 9 ∧ bitsIn s' = [] ∧ ReadOk s s' ∧
      resolveLeaf s.tree.nyt n s = .ended (stopDecoding .eoiLiteral s')) ∨
    (∃ bits rest s', bits.length = 9 ∧ 257 ≤ bitsValue 0 bits ∧ bitsIn s = bits ++ rest ∧ bitsIn s' = rest ∧
      ReadOk s s' ∧ resolveLeaf s.tree.nyt n s = .ended (raiseFault .badLiteral s')) := by
  unfold resolveLeaf
  rw [if_pos rfl]
  rcases readLiteral_cases 9 0 s with ⟨bits, rest, s', hl, hb, hr, h1, hok⟩ | ⟨s', hl, hr, h1, hok⟩
  · rw [hr]
    by_cases hv : bitsValue 0 bits < 257
    · left
      refine ⟨⟨bitsValue 0 bits, hv⟩, rest, s', ?_, h1, hok, ?_⟩
      · rw [← literalBits_of_value bits hl hv]; exact hb
      · dsimp only; rw [dif_pos hv]
    · right; right
      refine ⟨bits, rest, s', hl, by omega, hb, h1, hok, ?_⟩
      dsimp only; rw [dif_neg hv]
  · right; left
    exact ⟨s', hl, h1, hok, by rw [hr]⟩

/-- R175: the NYT leaf with a literal before it. -/
theorem resolveLeaf_literal {n : Node} {s : State} {sym : Symbol} {rest : List Bool}
    (hb : bitsIn s = literalBits sym ++ rest) :
    ∃ s', bitsIn s' = rest ∧ ReadOk s s' ∧ resolveLeaf s.tree.nyt n s = .symbol sym s' := by
  unfold resolveLeaf
  rw [if_pos rfl]
  rcases readLiteral_cases 9 0 s with ⟨bits, rest', s', hl, hb', hr, h1, hok⟩ | ⟨s', hl, -, -, -⟩
  · rw [hb] at hb'
    obtain ⟨e1, e2⟩ := List.append_inj hb' (by rw [literalBits_length, hl])
    subst e1 e2
    refine ⟨s', h1, hok, ?_⟩
    rw [hr, bitsValue_literalBits]
    dsimp only
    rw [dif_pos sym.isLt]
  · rw [hb, List.length_append, literalBits_length] at hl
    omega

/-- R172: a symbol's leaf. -/
theorem resolveLeaf_bound {s : State} {i : Nat} {sym : Symbol} (hi : i ≠ s.tree.nyt)
    (hs : (s.tree.N i).symbol = some sym) : resolveLeaf i (s.tree.N i) s = .symbol sym s := by
  unfold resolveLeaf
  rw [if_neg hi, hs]

/-! ### One unit -/

/-- R194: a leaf of the root's path is the NYT node of the one-node tree: a bound symbol's leaf is never the root. -/
theorem TreeShape.bound_leaf_not_root (h : TreeShape c t) (hc : c.Valid) {sym : Symbol} {leaf : Nat}
    (hs : t.sym2leaf[sym.val] = some leaf) : leaf ≠ 0 := by
  obtain ⟨hl, hleaf, hsym⟩ := (h.sym2leaf_iff sym leaf).1 hs
  have hin : leaf ≠ t.nyt := by rintro rfl; rw [h.nyt_unbound] at hsym; cases hsym
  rintro rfl
  have hodd := h.odd
  have hnyt := h.nyt_last
  have hlt : 1 < t.nLive := by omega
  obtain ⟨q, -, -, hq⟩ := h.pathOf_spec hc hlt
  have := h.leaf_path_maximal (xs := []) (descend_nil t 0) hleaf hq
  subst this
  cases hq

/-- R165, R194: a unit has at least one bit. -/
theorem TreeShape.unit_pos (h : TreeShape c t) (hc : c.Valid) {sym : Symbol} {unit : List Bool}
    (hu : IsUnit c t sym unit) : 0 < unit.length := by
  rcases hu with ⟨leaf, hs, hp⟩ | ⟨path, hp, rfl⟩
  · obtain ⟨bits, hp', -, hd⟩ := h.pathOf_spec hc ((h.sym2leaf_iff sym leaf).1 hs).1
    rw [hp] at hp'; cases hp'
    exact List.length_pos_iff.2 fun e => h.bound_leaf_not_root hc hs ((h.path_nil_iff hd).1 e)
  · rw [List.length_append, literalBits_length]; omega

/-- The decoder reads one unit from the root: it has the unit's symbol, and of the turns it may take at least two are left for
each bit not consumed (R171, R182). -/
theorem decodeLoop_unit (hc : c.Valid) {s : State} {sym : Symbol} {unit rest : List Bool} {fuel : Nat}
    (inv : TreeShape c s.tree) (hu : IsUnit c s.tree sym unit) (hb : bitsIn s = unit ++ rest)
    (hf : 2 * (bitsIn s).length + 2 ≤ fuel) :
    ∃ s' fuel', bitsIn s' = rest ∧ ReadOk s s' ∧ 2 * rest.length + 2 ≤ fuel' ∧
      decodeLoop c fuel s.tree.root s = (emitSymbol c sym s').andThen fun s => decodeLoop c fuel' s.tree.root s := by
  have hroot := inv.root_live
  have hpos := inv.unit_pos hc hu
  rw [hb, List.length_append] at hf
  rw [inv.root_zero]
  rcases hu with ⟨leaf, hs, hp⟩ | ⟨path, hp, rfl⟩
  · obtain ⟨hl, hleaf, hsym⟩ := (inv.sym2leaf_iff sym leaf).1 hs
    have hin : leaf ≠ s.tree.nyt := by rintro rfl; rw [inv.nyt_unbound] at hsym; cases hsym
    obtain ⟨bits, hp', -, hd⟩ := inv.pathOf_spec hc hl
    rw [hp] at hp'; cases hp'
    obtain ⟨s', h1, hok, he⟩ := decodeLoop_path unit rest (fuel - unit.length) inv hroot hd hb
    have hl' : leaf < s'.tree.nLive := by rw [hok.tree]; exact hl
    have hres : resolveLeaf leaf (s'.tree.N leaf) s' = .symbol sym s' :=
      resolveLeaf_bound (by rw [hok.tree]; exact hin) (by rw [hok.tree]; exact hsym)
    refine ⟨s', fuel - unit.length - 1, h1, hok, by omega, ?_⟩
    rw [show fuel = unit.length + (fuel - unit.length) by omega, he,
      show fuel - unit.length = (fuel - unit.length - 1) + 1 by omega,
      decodeLoop_leaf _ hl' (by rw [hok.tree]; exact hleaf), hres]
    simp
  · obtain ⟨bits, hp', -, hd⟩ := inv.pathOf_spec hc inv.nyt_live
    rw [hp] at hp'; cases hp'
    simp only [List.length_append, literalBits_length] at hf
    obtain ⟨s1, h1, hok, he⟩ := decodeLoop_path path (literalBits sym ++ rest) (fuel - path.length) inv hroot hd
      (by rw [hb, List.append_assoc])
    have hnyt : s1.tree.nyt = s.tree.nyt := by rw [hok.tree]
    obtain ⟨s2, h2, hok2, hres⟩ := resolveLeaf_literal (n := s1.tree.N s.tree.nyt) h1
    refine ⟨s2, fuel - path.length - 1, h2, hok.trans hok2, by omega, ?_⟩
    rw [show fuel = path.length + (fuel - path.length) by omega, he,
      show fuel - path.length = (fuel - path.length - 1) + 1 by omega,
      decodeLoop_leaf _ (by rw [hok.tree]; exact inv.nyt_live) (by rw [hok.tree]; exact inv.nyt_leaf)]
    rw [hnyt] at hres
    rw [hres]
    simp

/-! ### The encoder's unit -/

/-- `encode` on a tree that meets the invariants: the unit is written; then the tree is updated, or a fault is raised with the
bits kept and the tree as it was (R161, R164). -/
theorem encodeSymbol_cases (hc : c.Valid) (sym : Symbol) {s : State} (inv : TreeInv c s.tree) :
    ∃ unit, codeBits c s.tree sym = .ok unit ∧ IsUnit c s.tree sym unit ∧
      ((∃ t', update c s.tree sym = .ok t' ∧ Updated c sym s.tree t' ∧
          encodeSymbol c sym s = .go (setTree t' (writeBits unit s))) ∨
       (∃ code, code ≠ .none ∧ update c s.tree sym = .error (.raise code) ∧
          encodeSymbol c sym s = .ended (raiseFault code (writeBits unit s)))) := by
  obtain ⟨unit, hcode, hu, -⟩ := codeBits_spec hc inv.toTreeShape sym
  refine ⟨unit, hcode, hu, ?_⟩
  have ht := (writeBits_same unit s).tree
  rw [encodeSymbol_eq hcode]
  unfold updateTree
  rw [ht]
  rcases update_cases hc inv sym with ⟨-, t', h, U⟩ | ⟨-, h⟩ | ⟨-, -, -, h⟩
  · exact .inl ⟨t', h, U, by rw [h]⟩
  · exact .inr ⟨_, by decide, h, by rw [h]⟩
  · exact .inr ⟨_, by decide, h, by rw [h]⟩

end Sys2Proof.Machine
end

