-- ==== Sys2Proof/Laws/Count.lean ====
section
/-! SUPPORT. The node count of a tree with `k` bound symbols (44_invariants_and_properties.md R191): the children are twice
the internal nodes, the leaves are the bound symbols' and the NYT node. -/

namespace Sys2Proof.Machine

open Sys2Proof

variable {c : Config} {t : CodeTree}

theorem boundCount_eq_card (t : CodeTree) :
    t.boundCount = (Finset.univ.filter fun s : Symbol => t.sym2leaf[s.val].isSome = true).card := by
  unfold CodeTree.boundCount
  rw [List.countP_eq_length_filter, ← List.toFinset_card_of_nodup ((List.nodup_finRange 257).filter _)]
  congr 1
  ext s
  simp

/-- The live internal nodes. -/
def internals (t : CodeTree) : Finset Nat := (Finset.range t.nLive).filter fun i => (t.N i).left ≠ none

/-- The live leaves. -/
def leaves (t : CodeTree) : Finset Nat := (Finset.range t.nLive).filter fun i => (t.N i).left = none

theorem leaves_add_internals (t : CodeTree) : (leaves t).card + (internals t).card = t.nLive := by
  have := Finset.card_filter_add_card_filter_not (s := Finset.range t.nLive) (fun i => (t.N i).left = none)
  rw [Finset.card_range] at this
  exact this

/-- R191: every live node but the root is one of the two children of an internal node. -/
theorem TreeShape.twice_internals (h : TreeShape c t) : t.nLive = 2 * (internals t).card + 1 := by
  have hroot := h.root_live
  have hmaps : ∀ i ∈ (Finset.range t.nLive).erase 0, ((t.N i).parent.getD 0) ∈ internals t := by
    intro i hi
    obtain ⟨hi0, hil⟩ := Finset.mem_erase.1 hi
    have hil := Finset.mem_range.1 hil
    cases hp : (t.N i).parent with
    | none => exact absurd ((h.parent_none i hil).1 hp) hi0
    | some p =>
      obtain ⟨h1, h2⟩ := h.parent_internal hil hp
      exact Finset.mem_filter.2 ⟨Finset.mem_range.2 h1, h2⟩
  have hcard := Finset.card_eq_sum_card_fiberwise hmaps
  have hfib : ∀ p ∈ internals t,
      (((Finset.range t.nLive).erase 0).filter fun i => (t.N i).parent.getD 0 = p).card = 2 := by
    intro p hp
    obtain ⟨hpl, hpi⟩ := Finset.mem_filter.1 hp
    have hpl := Finset.mem_range.1 hpl
    obtain ⟨l, r, hl, hr⟩ := h.children hpl hpi
    have hset : (((Finset.range t.nLive).erase 0).filter fun i => (t.N i).parent.getD 0 = p) = {l, r} := by
      ext i
      simp only [Finset.mem_filter, Finset.mem_erase, Finset.mem_range, Finset.mem_insert, Finset.mem_singleton]
      constructor
      · rintro ⟨⟨hi0, hil⟩, hip⟩
        cases hq : (t.N i).parent with
        | none => exact absurd ((h.parent_none i hil).1 hq) hi0
        | some q =>
          rw [hq] at hip
          have hqp : q = p := hip
          subst hqp
          rcases (h.child_of_parent i hil q hq).2 with e | e
          · rw [hl] at e; exact .inl (Option.some.inj e).symm
          · rw [hr] at e; exact .inr (Option.some.inj e).symm
      · have key : ∀ x, x < t.nLive ∧ (t.N x).parent = some p →
            (x ≠ 0 ∧ x < t.nLive) ∧ (t.N x).parent.getD 0 = p := by
          rintro x ⟨hx, hxp⟩
          refine ⟨⟨?_, hx⟩, by rw [hxp]; rfl⟩
          rintro rfl
          rw [(h.parent_none 0 hx).2 rfl] at hxp; cases hxp
        rintro (rfl | rfl)
        · exact key _ (h.left_child p hpl _ hl)
        · exact key _ (h.right_child p hpl _ hr)
    rw [hset]
    exact Finset.card_pair (h.left_right_ne hpl hl hr)
  rw [Finset.sum_congr rfl hfib, Finset.sum_const, Finset.card_erase_of_mem (Finset.mem_range.2 hroot),
    Finset.card_range, smul_eq_mul] at hcard
  omega

/-- R201: every leaf but the NYT node is one bound symbol's. -/
theorem TreeShape.leaves_card (h : TreeShape c t) : (leaves t).card = t.boundCount + 1 := by
  have hnyt : t.nyt ∈ leaves t := Finset.mem_filter.2 ⟨Finset.mem_range.2 h.nyt_live, h.nyt_leaf⟩
  have hb : t.boundCount = ((leaves t).erase t.nyt).card := by
    rw [boundCount_eq_card]
    refine Finset.card_bij (fun s _ => (t.sym2leaf[s.val]).getD 0) ?_ ?_ ?_
    · intro s hs
      obtain ⟨i, hi⟩ := Option.isSome_iff_exists.1 (Finset.mem_filter.1 hs).2
      obtain ⟨h1, h2, h3⟩ := (h.sym2leaf_iff s i).1 hi
      rw [hi]
      refine Finset.mem_erase.2 ⟨?_, Finset.mem_filter.2 ⟨Finset.mem_range.2 h1, h2⟩⟩
      rintro rfl
      have hu : (t.N t.nyt).symbol = some s := h3
      rw [h.nyt_unbound] at hu; cases hu
    · intro s hs s' hs' e
      obtain ⟨i, hi⟩ := Option.isSome_iff_exists.1 (Finset.mem_filter.1 hs).2
      obtain ⟨j, hj⟩ := Option.isSome_iff_exists.1 (Finset.mem_filter.1 hs').2
      rw [hi, hj] at e
      have e' : i = j := e
      subst e'
      have h1 := ((h.sym2leaf_iff s i).1 hi).2.2
      have h2 := ((h.sym2leaf_iff s' i).1 hj).2.2
      rw [h1] at h2
      exact Option.some.inj h2
    · intro i hi
      obtain ⟨hin, hil⟩ := Finset.mem_erase.1 hi
      obtain ⟨hil, hleaf⟩ := Finset.mem_filter.1 hil
      have hil := Finset.mem_range.1 hil
      obtain ⟨s, hs⟩ := Option.ne_none_iff_exists'.1 (h.leaf_bound i hil hleaf hin)
      have hm := (h.sym2leaf_iff s i).2 ⟨hil, hleaf, hs⟩
      exact ⟨s, Finset.mem_filter.2 ⟨Finset.mem_univ _, by rw [hm]; rfl⟩, by rw [hm]; rfl⟩
  rw [hb, Finset.card_erase_add_one hnyt]

/-- R191: `N_LIVE = 2k + 1`. -/
theorem TreeShape.nLive_eq (h : TreeShape c t) : t.nLive = 2 * t.boundCount + 1 := by
  have h1 := h.twice_internals
  have h2 := h.leaves_card
  have h3 := leaves_add_internals t
  omega

theorem card_le_of_not {n : Nat} (p : Fin n → Bool) (l : List (Fin n)) (hl : l.Nodup) (hp : ∀ x ∈ l, p x = false) :
    (Finset.univ.filter fun x => p x = true).card + l.length ≤ n := by
  have hdis : Disjoint (Finset.univ.filter fun x => p x = true) l.toFinset := by
    rw [Finset.disjoint_left]
    intro x hx hm
    have hx := (Finset.mem_filter.1 hx).2
    rw [hp x (List.mem_toFinset.1 hm)] at hx
    cases hx
  have := Finset.card_le_univ ((Finset.univ.filter fun x => p x = true) ∪ l.toFinset)
  rwa [Finset.card_union_of_disjoint hdis, List.toFinset_card_of_nodup hl, Fintype.card_fin] at this

/-- A symbol without a leaf is not counted. -/
theorem boundCount_lt_of_unbound (t : CodeTree) (s : Symbol) (hs : t.sym2leaf[s.val] = none) : t.boundCount ≤ 256 := by
  have := card_le_of_not (fun s : Symbol => t.sym2leaf[s.val].isSome) [s] (by simp) (by simp [hs])
  rw [← boundCount_eq_card, List.length_singleton] at this
  omega

/-- Two symbols without leaves leave room for two more nodes in an arena of 513 (R222, 42_codec.md R180 (f)). -/
theorem boundCount_lt_of_two_unbound (t : CodeTree) {s s' : Symbol} (hne : s ≠ s') (hs : t.sym2leaf[s.val] = none)
    (hs' : t.sym2leaf[s'.val] = none) : t.boundCount ≤ 255 := by
  have := card_le_of_not (fun s : Symbol => t.sym2leaf[s.val].isSome) [s, s'] (by simpa using hne) (by simp [hs, hs'])
  rw [← boundCount_eq_card, List.length_cons, List.length_singleton] at this
  omega

end Sys2Proof.Machine
end

