-- ==== Sys2Proof/Laws/PerInstr.lean ====
section
/-! SUPPORT. The fields of a command word (30_encoding.md R80), and, command by command, what `encode` puts in them. -/

namespace Sys2Proof

/-- A word is its three fields. -/
theorem word_of_fields (w : Word) : opcField w ++ rsvField w ++ argField w = w := by
  apply BitVec.eq_of_getLsbD_eq
  intro i hi
  simp only [opcField, rsvField, argField, BitVec.getLsbD_append, BitVec.getLsbD_extractLsb']
  by_cases h1 : i < 10
  · simp [h1]
  · by_cases h2 : i - 10 < 2
    · rw [show 10 + (i - 10) = i by omega]; simp [h1, h2]
    · rw [show 12 + (i - 10 - 2) = i by omega]; simp [h1, h2, show i - 10 - 2 < 4 by omega]

theorem fields_append (o : BitVec 4) (r : BitVec 2) (a : Arg) :
    opcField (o ++ r ++ a) = o ∧ rsvField (o ++ r ++ a) = r ∧ argField (o ++ r ++ a) = a := by
  refine ⟨?_, ?_, ?_⟩ <;> apply BitVec.eq_of_getLsbD_eq <;> intro i hi
  · simp only [opcField, BitVec.getLsbD_append, BitVec.getLsbD_extractLsb']
    rw [show 12 + i - 10 - 2 = i by omega]
    simp [hi, show ¬ (12 + i < 10) by omega, show ¬ (12 + i - 10 < 2) by omega]
  · simp only [rsvField, BitVec.getLsbD_append, BitVec.getLsbD_extractLsb']
    rw [show 10 + i - 10 = i by omega]
    simp [hi]
  · simp only [argField, BitVec.getLsbD_append, BitVec.getLsbD_extractLsb']
    simp [hi]

namespace Laws.EncodeFields

/-- The word of a command has its opcode, zeros and its operand in the three fields (R80, R83). -/
def Statement (i : Instr) : Prop :=
  opcField (encode i) = i.opcode ∧ rsvField (encode i) = 0 ∧ argField (encode i) = i.argument

theorem treset : Statement .treset := fields_append ..
theorem pathof (n : Arg) : Statement (.pathof n) := fields_append ..
theorem update (s : Arg) : Statement (.update s) := fields_append ..
theorem wrbit (b : Arg) : Statement (.wrbit b) := fields_append ..
theorem wflush : Statement .wflush := fields_append ..
theorem rdbit : Statement .rdbit := fields_append ..
theorem encode (s : Arg) : Statement (.encode s) := fields_append ..
theorem encstream : Statement .encstream := fields_append ..
theorem decstream : Statement .decstream := fields_append ..

end Laws.EncodeFields

end Sys2Proof
end

