-- ==== Sys2Proof/Laws/Exec.lean ====
section
/-! SUPPORT. `exec` and `runWord` without their tests: what R87's tests make of a command, said once, so that no later proof unfolds
`guarded` or the decoder. -/

namespace Sys2Proof.Machine

open Sys2Proof

/-! ### The operand forms (R84) -/

theorem symbolOperand_some {a : Arg} {sym : Symbol} (h : a.toNat = sym.val) : symbolOperand a = some sym := by
  have hlt : a.toNat < 257 := h ▸ sym.isLt
  unfold symbolOperand
  rw [dif_pos hlt]
  exact congrArg some (Fin.ext h)

theorem symbolOperand_none {a : Arg} (h : 256 < a.toNat) : symbolOperand a = none := dif_neg (by omega)

theorem nodeOperand_some {t : CodeTree} {a : Arg} (h : a.toNat < t.nLive) : nodeOperand t a = some a.toNat := if_pos h

theorem nodeOperand_none {t : CodeTree} {a : Arg} (h : t.nLive ≤ a.toNat) : nodeOperand t a = none := if_neg (by omega)

theorem bitOperand_none {b : Arg} (h : 1 < b.toNat) : bitOperand b = none := by
  unfold bitOperand
  rw [if_neg (by rintro rfl; simp at h), if_neg (by rintro rfl; simp at h)]

theorem bitOperand_some {b : Arg} (h : b.toNat ≤ 1) : bitOperand b = some (b.getLsbD 0) ∧ bitByte (b.getLsbD 0) = b.setWidth 8 := by
  have : b = 0 ∨ b = 1 := by
    rcases Nat.le_one_iff_eq_zero_or_eq_one.1 h with h | h
    · exact .inl (BitVec.eq_of_toNat_eq h)
    · exact .inr (BitVec.eq_of_toNat_eq h)
  rcases this with rfl | rfl <;> exact ⟨rfl, rfl⟩

/-! ### `exec` (R87, R231) -/

theorem guarded_some {α : Type} (a : α) (body : α → State → Flow) {s : State} (hf : s.fault = false) :
    guarded (some a) body s = (body a s).outcome := by
  unfold guarded; rw [if_neg (by rw [hf]; exact Bool.false_ne_true)]

theorem guarded_none {α : Type} (body : α → State → Flow) {s : State} (hf : s.fault = false) :
    guarded none body s = .next (refuse .operandRange s) := by
  unfold guarded; rw [if_neg (by rw [hf]; exact Bool.false_ne_true)]

theorem guarded_fault {α : Type} (o : Option α) (body : α → State → Flow) {s : State} (hf : s.fault = true) :
    guarded o body s = .next (refuse .faultLatched s) := if_pos hf

theorem exec_fault (i : Instr) {s : State} (hf : s.fault = true) : exec i s = .next (refuse .faultLatched s) := by
  cases i with
  | treset => exact guarded_fault noOperand (runTreset Config.ahte) hf
  | pathof n => exact guarded_fault (nodeOperand s.tree n) (runPathof Config.ahte) hf
  | update a => exact guarded_fault (symbolOperand a) (runUpdate Config.ahte) hf
  | wrbit b => exact guarded_fault (bitOperand b) runWrbit hf
  | wflush => exact guarded_fault noOperand runWflush hf
  | rdbit => exact guarded_fault noOperand runRdbit hf
  | encode a => exact guarded_fault (symbolOperand a) (runEncode Config.ahte) hf
  | encstream => exact guarded_fault noOperand (runEncstream Config.ahte) hf
  | decstream => exact guarded_fault noOperand (runDecstream Config.ahte) hf

theorem exec_treset {s : State} (hf : s.fault = false) : exec .treset s = (runTreset Config.ahte () s).outcome :=
  guarded_some () _ hf

theorem exec_pathof {s : State} {a : Arg} (hf : s.fault = false) (h : a.toNat < s.tree.nLive) :
    exec (.pathof a) s = (runPathof Config.ahte a.toNat s).outcome := by
  show guarded (nodeOperand s.tree a) _ s = _
  rw [nodeOperand_some h, guarded_some _ _ hf]

theorem exec_update {s : State} {a : Arg} {sym : Symbol} (hf : s.fault = false) (h : a.toNat = sym.val) :
    exec (.update a) s = (runUpdate Config.ahte sym s).outcome := by
  show guarded (symbolOperand a) _ s = _
  rw [symbolOperand_some h, guarded_some _ _ hf]

theorem exec_wrbit {s : State} {b : Arg} (hf : s.fault = false) (h : b.toNat ≤ 1) :
    exec (.wrbit b) s = (runWrbit (b.getLsbD 0) s).outcome := by
  show guarded (bitOperand b) _ s = _
  rw [(bitOperand_some h).1, guarded_some _ _ hf]

theorem exec_wflush {s : State} (hf : s.fault = false) : exec .wflush s = (runWflush () s).outcome := guarded_some () _ hf

theorem exec_rdbit {s : State} (hf : s.fault = false) : exec .rdbit s = (runRdbit () s).outcome := guarded_some () _ hf

theorem exec_encode {s : State} {a : Arg} {sym : Symbol} (hf : s.fault = false) (h : a.toNat = sym.val) :
    exec (.encode a) s = (runEncode Config.ahte sym s).outcome := by
  show guarded (symbolOperand a) _ s = _
  rw [symbolOperand_some h, guarded_some _ _ hf]

theorem exec_encstream {s : State} (hf : s.fault = false) : exec .encstream s = (runEncstream Config.ahte () s).outcome :=
  guarded_some () _ hf

theorem exec_decstream {s : State} (hf : s.fault = false) : exec .decstream s = (runDecstream Config.ahte () s).outcome :=
  guarded_some () _ hf

/-- An operand outside its range (R84). -/
theorem exec_out_of_range {s : State} (hf : s.fault = false) (a : Arg) :
    (s.tree.nLive ≤ a.toNat → exec (.pathof a) s = .next (refuse .operandRange s)) ∧
    (256 < a.toNat → exec (.update a) s = .next (refuse .operandRange s)) ∧
    (256 < a.toNat → exec (.encode a) s = .next (refuse .operandRange s)) ∧
    (1 < a.toNat → exec (.wrbit a) s = .next (refuse .operandRange s)) := by
  refine ⟨fun h => ?_, fun h => ?_, fun h => ?_, fun h => ?_⟩
  · show guarded (nodeOperand s.tree a) _ s = _
    rw [nodeOperand_none h, guarded_none _ hf]
  · show guarded (symbolOperand a) _ s = _
    rw [symbolOperand_none h, guarded_none _ hf]
  · show guarded (symbolOperand a) _ s = _
    rw [symbolOperand_none h, guarded_none _ hf]
  · show guarded (bitOperand a) _ s = _
    rw [bitOperand_none h, guarded_none _ hf]

/-! ### `runWord` (R87) -/

theorem opcField_toNat (w : Word) : (opcField w).toNat = w.toNat / 4096 := by
  have := w.isLt
  simp only [opcField, BitVec.extractLsb'_toNat, Nat.shiftRight_eq_div_pow]
  omega

theorem rsvField_toNat (w : Word) : (rsvField w).toNat = w.toNat / 1024 % 4 := by
  simp only [rsvField, BitVec.extractLsb'_toNat, Nat.shiftRight_eq_div_pow]

theorem argField_toNat (w : Word) : (argField w).toNat = w.toNat % 1024 := by
  simp only [argField, BitVec.extractLsb'_toNat, Nat.shiftRight_eq_div_pow]
  omega

theorem runWord_illegal {w : Word} {s : State} (h : selectRow (opcField w) (argField w) = none) (hf : s.fault = false) :
    runWord w s = .next (refuse .illegalOpcode s) := by
  unfold runWord decode
  rw [h]
  dsimp only
  rw [if_neg (by rw [hf]; exact Bool.false_ne_true)]
  rfl

/-- R87 after a row is selected: the reserved bits, the operand that must be 0, then the execution. -/
theorem runWord_row {w : Word} {i : Instr} {s : State} (hs : selectRow (opcField w) (argField w) = some i)
    (hf : s.fault = false) :
    (rsvField w ≠ 0 → runWord w s = .next (refuse .reservedNonzero s)) ∧
    (rsvField w = 0 → i.takesNoOperand = true → argField w ≠ 0 → runWord w s = .next (refuse .reservedNonzero s)) ∧
    (rsvField w = 0 → (i.takesNoOperand = true → argField w = 0) → runWord w s = exec i s) := by
  have hnf : ¬ s.fault = true := by rw [hf]; exact Bool.false_ne_true
  refine ⟨fun h => ?_, fun h h1 h2 => ?_, fun h h1 => ?_⟩ <;> unfold runWord decode <;> rw [hs] <;> dsimp only
  · rw [if_pos h]; dsimp only; rw [if_neg hnf]; rfl
  · rw [if_neg (not_not.2 h), if_pos (by simpa [h1] using h2)]; dsimp only; rw [if_neg hnf]; rfl
  · rw [if_neg (not_not.2 h), if_neg]
    rw [Bool.and_eq_true]
    rintro ⟨h2, h3⟩
    exact absurd (h1 h2) (by simpa using h3)

theorem runWord_fault (w : Word) {s : State} (hf : s.fault = true) : runWord w s = .next (refuse .faultLatched s) := by
  unfold runWord
  cases decode w with
  | ok i => exact exec_fault i hf
  | error r => dsimp only; rw [if_pos hf]

/-- A refusal, its word written out (R88, R230). -/
theorem refuse_eq (r : RefuseReason) (s : State) :
    refuse r s = { s with rsp := BitVec.ofNat 16 (0x2000 + r.code.toNat), busy := false } := by
  cases r <;> rfl

end Sys2Proof.Machine
end

