-- ==== Sys2Proof/Laws/Frame.lean ====
section
/-! SUPPORT. What the parts of a command can change, from any state, whether or not it meets the invariants: the writing side of a
command and its reading side (41_bitchannel.md R140, R149). -/

namespace Sys2Proof.Machine

open Sys2Proof

/-- What a command that writes bits leaves unchanged (R140, R149): the host, the source, the read side, the path registers, the
stop reason; bytes are only added to the sink and the position only grows. -/
structure WriteFrame (s s' : State) : Prop where
  host : s'.host = s.host
  source : s'.source = s.source
  cuts : s'.cuts = s.cuts
  rAcc : s'.rAcc = s.rAcc
  rCnt : s'.rCnt = s.rCnt
  pathLen : s'.pathLen = s.pathLen
  pathBits : s'.pathBits = s.pathBits
  stopReason : s'.stopReason = s.stopReason
  pos : s.pos ≤ s'.pos
  sink : s.sink <+: s'.sink

theorem WriteFrame.refl (s : State) : WriteFrame s s :=
  ⟨rfl, rfl, rfl, rfl, rfl, rfl, rfl, rfl, Nat.le_refl _, List.prefix_refl _⟩

theorem WriteFrame.trans {s1 s2 s3 : State} (h1 : WriteFrame s1 s2) (h2 : WriteFrame s2 s3) : WriteFrame s1 s3 :=
  ⟨h2.host.trans h1.host, h2.source.trans h1.source, h2.cuts.trans h1.cuts, h2.rAcc.trans h1.rAcc, h2.rCnt.trans h1.rCnt,
    h2.pathLen.trans h1.pathLen, h2.pathBits.trans h1.pathBits, h2.stopReason.trans h1.stopReason,
    h1.pos.trans h2.pos, h1.sink.trans h2.sink⟩

/-- What a command that reads bits leaves unchanged (R140, R149): the host, the source, the write side, the path registers;
bytes are only added to the sink and the position only grows. -/
structure ReadFrame (s s' : State) : Prop where
  host : s'.host = s.host
  source : s'.source = s.source
  cuts : s'.cuts = s.cuts
  wAcc : s'.wAcc = s.wAcc
  wCnt : s'.wCnt = s.wCnt
  pathLen : s'.pathLen = s.pathLen
  pathBits : s'.pathBits = s.pathBits
  pos : s.pos ≤ s'.pos
  sink : s.sink <+: s'.sink

theorem ReadFrame.refl (s : State) : ReadFrame s s :=
  ⟨rfl, rfl, rfl, rfl, rfl, rfl, rfl, Nat.le_refl _, List.prefix_refl _⟩

theorem ReadFrame.trans {s1 s2 s3 : State} (h1 : ReadFrame s1 s2) (h2 : ReadFrame s2 s3) : ReadFrame s1 s3 :=
  ⟨h2.host.trans h1.host, h2.source.trans h1.source, h2.cuts.trans h1.cuts, h2.wAcc.trans h1.wAcc, h2.wCnt.trans h1.wCnt,
    h2.pathLen.trans h1.pathLen, h2.pathBits.trans h1.pathBits, h1.pos.trans h2.pos, h1.sink.trans h2.sink⟩

/-- A flow whose state, if it has one, stands in the relation to `s`. -/
def Flow.Within (R : State → State → Prop) (s : State) : Flow → Prop
  | .go s' => R s s'
  | .ended s' => R s s'
  | .stuck _ => True

theorem Flow.Within.mono {R : State → State → Prop} (htr : ∀ a b c, R a b → R b c → R a c) {s s1 : State} {f : Flow}
    (h : R s s1) (hf : f.Within R s1) : f.Within R s := by
  cases f with
  | go s' => exact htr _ _ _ h hf
  | ended s' => exact htr _ _ _ h hf
  | stuck e => trivial

theorem Flow.Within.andThen {R : State → State → Prop} (htr : ∀ a b c, R a b → R b c → R a c) {s : State} {f : Flow}
    {k : State → Flow} (h : f.Within R s) (hk : ∀ s', (k s').Within R s') : (f.andThen k).Within R s := by
  cases f with
  | go s' => exact Flow.Within.mono htr h (hk s')
  | ended s' => exact h
  | stuck e => trivial

theorem Flow.Within.outcome {R : State → State → Prop} {s s' : State} {f : Flow} (h : f.Within R s)
    (ho : f.outcome = .next s') : R s s' := by
  cases f with
  | go t => cases ho; exact h
  | ended t => cases ho; exact h
  | stuck e => cases ho

/-! ### The writing side -/

theorem writeBit_frame (b : Bool) (s : State) : WriteFrame s (writeBit b s) := by
  unfold writeBit
  dsimp only
  split
  · exact ⟨rfl, rfl, rfl, rfl, rfl, rfl, rfl, rfl, Nat.le_refl _, List.prefix_refl _⟩
  · exact ⟨rfl, rfl, rfl, rfl, rfl, rfl, rfl, rfl, Nat.le_refl _, List.prefix_append _ _⟩

theorem writeBits_frame (bits : List Bool) (s : State) : WriteFrame s (writeBits bits s) := by
  induction bits generalizing s with
  | nil => exact WriteFrame.refl s
  | cons b bits ih => exact (writeBit_frame b s).trans (ih (writeBit b s))

theorem flush_frame (s : State) : WriteFrame s (flush s) := by
  unfold flush
  split
  · exact WriteFrame.refl s
  · exact ⟨rfl, rfl, rfl, rfl, rfl, rfl, rfl, rfl, Nat.le_refl _, List.prefix_append _ _⟩

/-- R105 to R117, R228: an update changes the tree, or raises a fault. -/
theorem updateTree_shape (c : Config) (sym : Symbol) (s : State) :
    (∃ t, updateTree c sym s = .go (setTree t s)) ∨ (∃ code, updateTree c sym s = .ended (raiseFault code s)) ∨
    ∃ f, updateTree c sym s = .stuck f := by
  unfold updateTree
  split
  · exact .inl ⟨_, rfl⟩
  · exact .inr (.inl ⟨_, rfl⟩)
  · exact .inr (.inr ⟨_, rfl⟩)

theorem updateTree_writes (c : Config) (sym : Symbol) (s : State) : (updateTree c sym s).Within WriteFrame s := by
  rcases updateTree_shape c sym s with ⟨t, h⟩ | ⟨code, h⟩ | ⟨f, h⟩
  all_goals rw [h]
  · exact ⟨rfl, rfl, rfl, rfl, rfl, rfl, rfl, rfl, Nat.le_refl _, List.prefix_refl _⟩
  · exact ⟨rfl, rfl, rfl, rfl, rfl, rfl, rfl, rfl, Nat.le_refl _, List.prefix_refl _⟩
  · trivial

theorem encodeSymbol_writes (c : Config) (sym : Symbol) (s : State) : (encodeSymbol c sym s).Within WriteFrame s := by
  unfold encodeSymbol
  split
  · trivial
  · exact Flow.Within.mono (R := WriteFrame) (fun _ _ _ => WriteFrame.trans) (writeBits_frame _ s) (updateTree_writes c sym _)

theorem encodeBytes_writes (c : Config) (n : Nat) (s : State) : (encodeBytes c n s).Within WriteFrame s := by
  induction n generalizing s with
  | zero => exact WriteFrame.refl s
  | succ n ih =>
    unfold encodeBytes
    rcases srcNext_cases s with ⟨-, h⟩ | ⟨v, -, -, h⟩
    · rw [h]; exact WriteFrame.refl s
    · rw [h]
      exact Flow.Within.mono (R := WriteFrame) (s1 := { s with pos := s.pos + 1 }) (fun _ _ _ => WriteFrame.trans)
        ⟨rfl, rfl, rfl, rfl, rfl, rfl, rfl, rfl, Nat.le_succ _, List.prefix_refl _⟩
        (Flow.Within.andThen (R := WriteFrame) (fun _ _ _ => WriteFrame.trans) (encodeSymbol_writes c _ _) (ih ·))

theorem complete_writes (v : BitVec 10) (s : State) : (complete v s).Within WriteFrame s :=
  ⟨rfl, rfl, rfl, rfl, rfl, rfl, rfl, rfl, Nat.le_refl _, List.prefix_refl _⟩

theorem runEncode_writes (c : Config) (sym : Symbol) (s : State) : (runEncode c sym s).Within WriteFrame s :=
  Flow.Within.andThen (R := WriteFrame) (fun _ _ _ => WriteFrame.trans) (encodeSymbol_writes c sym s) (complete_writes 0)

theorem runEncstream_writes (c : Config) (s : State) : (runEncstream c () s).Within WriteFrame s := by
  unfold runEncstream
  refine Flow.Within.mono (R := WriteFrame) (fun _ _ _ => WriteFrame.trans) (s1 := clearWrite (setTree (treeReset c) s))
    ⟨rfl, rfl, rfl, rfl, rfl, rfl, rfl, rfl, Nat.le_refl _, List.prefix_refl _⟩ ?_
  refine Flow.Within.andThen (R := WriteFrame) (fun _ _ _ => WriteFrame.trans)
    (Flow.Within.andThen (R := WriteFrame) (fun _ _ _ => WriteFrame.trans) (encodeBytes_writes c _ _)
    (encodeSymbol_writes c Symbol.eot)) fun s' => ?_
  exact Flow.Within.mono (R := WriteFrame) (fun _ _ _ => WriteFrame.trans) (flush_frame s') (complete_writes 0 _)

/-! ### The reading side -/

theorem readBit_frame {s s' : State} {b : Bool} (h : readBit s = some (b, s')) : ReadFrame s s' := by
  unfold readBit refill at h
  split at h
  · cases h
  · next s1 h1 =>
    cases h
    split at h1
    · unfold srcNext at h1
      split at h1
      · cases h1
      · next v s2 h2 =>
        cases h1
        split at h2
        · cases h2
          exact ⟨rfl, rfl, rfl, rfl, rfl, rfl, rfl, Nat.le_succ _, List.prefix_refl _⟩
        · cases h2
    · cases h1
      exact ⟨rfl, rfl, rfl, rfl, rfl, rfl, rfl, Nat.le_refl _, List.prefix_refl _⟩

theorem readLiteral_frame (n lit : Nat) (s : State) : ReadFrame s (readLiteral n lit s).2 := by
  induction n generalizing lit s with
  | zero => exact ReadFrame.refl s
  | succ n ih =>
    unfold readLiteral
    split
    · exact ReadFrame.refl s
    · next h => exact (readBit_frame h).trans (ih _ _)

theorem stopDecoding_frame (r : StopReason) (s : State) : ReadFrame s (stopDecoding r s) :=
  ⟨rfl, rfl, rfl, rfl, rfl, rfl, rfl, Nat.le_refl _, List.prefix_refl _⟩

theorem raiseFault_frame (code : FaultCode) (s : State) : ReadFrame s (raiseFault code s) :=
  ⟨rfl, rfl, rfl, rfl, rfl, rfl, rfl, Nat.le_refl _, List.prefix_refl _⟩

theorem emitSymbol_reads (c : Config) (sym : Symbol) (s : State) : (emitSymbol c sym s).Within ReadFrame s := by
  unfold emitSymbol
  split
  · exact stopDecoding_frame _ s
  · refine Flow.Within.mono (R := ReadFrame) (fun _ _ _ => ReadFrame.trans) (s1 := sinkPut (BitVec.ofNat 8 sym.val) s)
      ⟨rfl, rfl, rfl, rfl, rfl, rfl, rfl, Nat.le_refl _, List.prefix_append _ _⟩ ?_
    rcases updateTree_shape c sym (sinkPut (BitVec.ofNat 8 sym.val) s) with ⟨t, h⟩ | ⟨code, h⟩ | ⟨f, h⟩
    all_goals rw [h]
    · exact ⟨rfl, rfl, rfl, rfl, rfl, rfl, rfl, Nat.le_refl _, List.prefix_refl _⟩
    · exact raiseFault_frame code _
    · trivial

/-- What a leaf's resolution leaves unchanged, in either of its two ends. -/
def Resolved.Within (s : State) : Resolved → Prop
  | .symbol _ s' => ReadFrame s s'
  | .ended s' => ReadFrame s s'
  | .stuck _ => True

theorem resolveLeaf_reads (dcur : Nat) (n : Node) (s : State) : (resolveLeaf dcur n s).Within s := by
  unfold resolveLeaf
  have hf := readLiteral_frame 9 0 s
  split
  · split
    · next h => rw [h] at hf; exact hf.trans (stopDecoding_frame _ _)
    · next h =>
      rw [h] at hf
      split
      · exact hf
      · exact hf.trans (raiseFault_frame _ _)
  · split
    · exact ReadFrame.refl s
    · trivial

theorem decodeLoop_frame (c : Config) (fuel dcur : Nat) (s : State) : (decodeLoop c fuel dcur s).Within ReadFrame s := by
  induction fuel generalizing dcur s with
  | zero => trivial
  | succ fuel ih =>
    unfold decodeLoop
    split
    · trivial
    · next n _ =>
      split
      · have hr := resolveLeaf_reads dcur n s
        split
        · trivial
        · next h => rw [h] at hr; exact hr
        · next h =>
          rw [h] at hr
          exact Flow.Within.mono (R := ReadFrame) (fun _ _ _ => ReadFrame.trans) hr
            (Flow.Within.andThen (R := ReadFrame) (fun _ _ _ => ReadFrame.trans)
              (emitSymbol_reads c _ _) fun s' => ih _ s')
      · split
        · exact stopDecoding_frame _ s
        · next h =>
          split
          · trivial
          · exact Flow.Within.mono (R := ReadFrame) (fun _ _ _ => ReadFrame.trans) (readBit_frame h) (ih _ _)

theorem runDecstream_reads (c : Config) (s : State) : (runDecstream c () s).Within ReadFrame s :=
  Flow.Within.mono (R := ReadFrame) (fun _ _ _ => ReadFrame.trans) (s1 := { clearRead (setTree (treeReset c) s) with stopReason := .none })
    ⟨rfl, rfl, rfl, rfl, rfl, rfl, rfl, Nat.le_refl _, List.prefix_refl _⟩ (decodeLoop_frame c _ _ _)

/-! ### A command's tests -/

/-- R87, R230: a command is refused, with `RSP` and `BUSY` alone written, or its statements run. -/
theorem guarded_cases {α : Type} {o : Option α} {body : α → State → Flow} {s s' : State} (h : guarded o body s = .next s') :
    (∃ r, s' = refuse r s) ∨ ∃ a, o = some a ∧ s.fault = false ∧ (body a s).outcome = .next s' := by
  unfold guarded at h
  split at h
  · cases h; exact .inl ⟨_, rfl⟩
  · next hf =>
    split at h
    · cases h; exact .inl ⟨_, rfl⟩
    · next a => exact .inr ⟨a, rfl, by simpa using hf, h⟩

/-- What `exec` does when it answers a next state (R87): it has refused, or it has run that command's statements on its operand. -/
theorem exec_cases {i : Instr} {s s' : State} (h : exec i s = .next s') :
    (∃ r, s' = refuse r s) ∨ (s.fault = false ∧ (
      (i = .treset ∧ s' = respond .ok 0 (setTree (treeReset Config.ahte) s)) ∨
      (∃ n bits, i = .pathof n ∧ pathOf Config.ahte s.tree n.toNat = .ok bits ∧ 
        s' = respond .ok (BitVec.ofNat 10 bits.length)
          { s with pathLen := bits.length, pathBits := padPath Config.ahte bits }) ∨
      (∃ a sym, i = .update a ∧ (runUpdate Config.ahte sym s).outcome = .next s') ∨
      (∃ a b, i = .wrbit a ∧ s' = respond .ok 0 (writeBit b s)) ∨
      (i = .wflush ∧ s' = respond .ok 0 (flush s)) ∨
      (i = .rdbit ∧ (runRdbit () s).outcome = .next s') ∨
      (∃ a sym, i = .encode a ∧ (runEncode Config.ahte sym s).outcome = .next s') ∨
      (i = .encstream ∧ (runEncstream Config.ahte () s).outcome = .next s') ∨
      (i = .decstream ∧ (runDecstream Config.ahte () s).outcome = .next s'))) := by
  cases i with
  | treset =>
    rcases guarded_cases (o := noOperand) h with h | ⟨a, ha, hf, h⟩
    · exact .inl h
    · cases h; exact .inr ⟨hf, .inl ⟨rfl, rfl⟩⟩
  | pathof n =>
    rcases guarded_cases (o := nodeOperand s.tree n) h with h | ⟨a, ha, hf, h⟩
    · exact .inl h
    · have : a = n.toNat := by unfold nodeOperand at ha; split at ha <;> cases ha; rfl
      subst this
      unfold runPathof at h; split at h
      · cases h
      · cases h; exact .inr ⟨hf, .inr (.inl ⟨n, _, rfl, by assumption, rfl⟩)⟩
  | update a =>
    rcases guarded_cases (o := symbolOperand a) h with h | ⟨x, ha, hf, h⟩
    · exact .inl h
    · exact .inr ⟨hf, .inr (.inr (.inl ⟨a, x, rfl, h⟩))⟩
  | wrbit b =>
    rcases guarded_cases (o := bitOperand b) h with h | ⟨x, ha, hf, h⟩
    · exact .inl h
    · cases h; exact .inr ⟨hf, .inr (.inr (.inr (.inl ⟨b, x, rfl, rfl⟩)))⟩
  | wflush =>
    rcases guarded_cases (o := noOperand) h with h | ⟨x, ha, hf, h⟩
    · exact .inl h
    · cases h; exact .inr ⟨hf, .inr (.inr (.inr (.inr (.inl ⟨rfl, rfl⟩))))⟩
  | rdbit =>
    rcases guarded_cases (o := noOperand) h with h | ⟨x, ha, hf, h⟩
    · exact .inl h
    · exact .inr ⟨hf, .inr (.inr (.inr (.inr (.inr (.inl ⟨rfl, h⟩)))))⟩
  | encode a =>
    rcases guarded_cases (o := symbolOperand a) h with h | ⟨x, ha, hf, h⟩
    · exact .inl h
    · exact .inr ⟨hf, .inr (.inr (.inr (.inr (.inr (.inr (.inl ⟨a, x, rfl, h⟩))))))⟩
  | encstream =>
    rcases guarded_cases (o := noOperand) h with h | ⟨x, ha, hf, h⟩
    · exact .inl h
    · exact .inr ⟨hf, .inr (.inr (.inr (.inr (.inr (.inr (.inr (.inl ⟨rfl, h⟩)))))))⟩
  | decstream =>
    rcases guarded_cases (o := noOperand) h with h | ⟨x, ha, hf, h⟩
    · exact .inl h
    · exact .inr ⟨hf, .inr (.inr (.inr (.inr (.inr (.inr (.inr (.inr ⟨rfl, h⟩)))))))⟩

/-- R147: the two ends of `RDBIT`. -/
theorem runRdbit_cases {s s' : State} (h : (runRdbit () s).outcome = .next s') :
    (s' = respond .eoi 0 s) ∨ ∃ b s1, readBit s = some (b, s1) ∧ s' = respond .ok (if b then 1 else 0) s1 := by
  unfold runRdbit at h
  split at h
  · cases h; exact .inl rfl
  · next b s1 hr => cases h; exact .inr ⟨b, s1, hr, rfl⟩

/-- R146: the bit answered is the one the read side now points at. -/
theorem readBit_bit_at {s s1 : State} {b : Bool} (h : readBit s = some (b, s1)) :
    SameButRead s s1 ∧ b = s1.rAcc.getLsbD s1.rCnt.val := by
  unfold readBit refill at h
  split at h
  · cases h
  · next s2 h1 =>
    cases h
    split at h1
    · unfold srcNext at h1
      split at h1
      · cases h1
      · next v s2 h2 =>
        cases h1
        split at h2
        · cases h2; exact ⟨rfl, rfl⟩
        · cases h2
    · cases h1; exact ⟨rfl, rfl⟩

/-- R117: the two ends of `UPDATE`. -/
theorem runUpdate_cases {sym : Symbol} {s s' : State} (h : (runUpdate Config.ahte sym s).outcome = .next s') :
    (∃ t, s' = respond .ok 0 (setTree t s)) ∨ ∃ code, s' = raiseFault code s := by
  unfold runUpdate at h
  rcases updateTree_shape Config.ahte sym s with ⟨t, he⟩ | ⟨code, he⟩ | ⟨f, he⟩
  all_goals rw [he] at h
  · cases h; exact .inl ⟨t, rfl⟩
  · cases h; exact .inr ⟨code, rfl⟩
  · cases h

/-- R164: the two ends of `ENCODE`. -/
theorem runEncode_cases {sym : Symbol} {s s' : State} (h : (runEncode Config.ahte sym s).outcome = .next s') :
    (∃ t bits, s' = respond .ok 0 (setTree t (writeBits bits s))) ∨
    ∃ code bits, s' = raiseFault code (writeBits bits s) := by
  unfold runEncode encodeSymbol at h
  split at h
  · cases h
  · next bits _ =>
    rcases updateTree_shape Config.ahte sym (writeBits bits s) with ⟨t, he⟩ | ⟨code, he⟩ | ⟨f, he⟩
    all_goals rw [he] at h
    · cases h; exact .inl ⟨t, bits, rfl⟩
    · cases h; exact .inr ⟨code, bits, rfl⟩
    · cases h

end Sys2Proof.Machine
end

