-- ==== Sys2Proof/Laws/Stream.lean ====
section
/-! SUPPORT. The two stream commands: sequences of units written and read (42_codec.md R166 to R179, R205). -/

namespace Sys2Proof.Machine

open Sys2Proof

variable {c : Config} {t t' : CodeTree}

/-! ### Sequences of units -/

theorem codeBits_isUnit (hc : c.Valid) (h : TreeShape c t) {sym : Symbol} {unit : List Bool}
    (hu : codeBits c t sym = .ok unit) : IsUnit c t sym unit := by
  obtain ⟨bits, hb, hi, -⟩ := codeBits_spec hc h sym
  rw [hu] at hb; cases hb; exact hi

theorem update_inv (hc : c.Valid) (inv : TreeInv c t) {sym : Symbol} (hu : update c t sym = .ok t') :
    Updated c sym t t' := by
  rcases update_cases hc inv sym with ⟨-, t1, h, U⟩ | ⟨-, h⟩ | ⟨-, -, -, h⟩
  · rw [hu] at h; cases h; exact U
  · rw [hu] at h; cases h
  · rw [hu] at h; cases h

/-- What the encoder writes the decoder can read. -/
theorem Writes.reads (hc : c.Valid) {syms : List Symbol} {bits : List Bool} (inv : TreeInv c t)
    (hw : Writes c t syms bits t') : Reads c t syms bits t' := by
  induction syms generalizing t bits with
  | nil => exact hw
  | cons sym syms ih =>
    obtain ⟨unit, more, t1, hcode, hu, hrest, hb⟩ := hw
    exact ⟨unit, more, t1, codeBits_isUnit hc inv.toTreeShape hcode, hu, ih (update_inv hc inv hu).inv hrest, hb⟩

theorem Reads.inv (hc : c.Valid) {syms : List Symbol} {bits : List Bool} (inv : TreeInv c t)
    (hr : Reads c t syms bits t') : TreeInv c t' := by
  induction syms generalizing t bits with
  | nil => obtain ⟨-, rfl⟩ := hr; exact inv
  | cons sym syms ih =>
    obtain ⟨unit, more, t1, -, hu, hrest, -⟩ := hr
    exact ih (update_inv hc inv hu).inv hrest

theorem Updated.bound_iff {sym : Symbol} (U : Updated c sym t t') (s : Symbol) :
    t'.Bound s ↔ t.Bound s ∨ s = sym := by
  by_cases h : s = sym
  · subst h
    exact ⟨fun _ => .inr rfl, fun _ => U.now_bound⟩
  · show t'.sym2leaf[s.val] ≠ none ↔ _
    rw [U.sym2leaf s h]
    exact ⟨.inl, fun e => e.resolve_right h⟩

/-- R191: after the units exactly their symbols have gained leaves. -/
theorem Reads.bound_iff (hc : c.Valid) {syms : List Symbol} {bits : List Bool} (inv : TreeInv c t)
    (hr : Reads c t syms bits t') (s : Symbol) : t'.Bound s ↔ t.Bound s ∨ s ∈ syms := by
  induction syms generalizing t bits with
  | nil => obtain ⟨-, rfl⟩ := hr; simp
  | cons sym syms ih =>
    obtain ⟨unit, more, t1, -, hu, hrest, -⟩ := hr
    have U := update_inv hc inv hu
    rw [ih U.inv hrest, U.bound_iff, List.mem_cons, or_assoc]

/-- R196: the root's weight counts the updates. -/
theorem Reads.root_weight (hc : c.Valid) {syms : List Symbol} {bits : List Bool} (inv : TreeInv c t)
    (hr : Reads c t syms bits t') : (t'.N 0).weight = (t.N 0).weight + syms.length := by
  induction syms generalizing t bits with
  | nil => obtain ⟨-, rfl⟩ := hr; rfl
  | cons sym syms ih =>
    obtain ⟨unit, more, t1, -, hu, hrest, -⟩ := hr
    have U := update_inv hc inv hu
    rw [ih U.inv hrest, U.root_weight, List.length_cons]
    omega

/-- A unit sequence extended by one more unit. -/
theorem Writes.snoc {syms : List Symbol} {bits : List Bool} (hw : Writes c t syms bits t') {sym : Symbol}
    {unit : List Bool} {t'' : CodeTree} (hcode : codeBits c t' sym = .ok unit) (hu : update c t' sym = .ok t'') :
    Writes c t (syms ++ [sym]) (bits ++ unit) t'' := by
  induction syms generalizing t bits with
  | nil =>
    obtain ⟨rfl, rfl⟩ := hw
    exact ⟨unit, [], t'', hcode, hu, ⟨rfl, rfl⟩, by simp⟩
  | cons s syms ih =>
    obtain ⟨unit1, more, t1, hc1, hu1, hrest, rfl⟩ := hw
    exact ⟨unit1, more ++ unit, t1, hc1, hu1, ih hrest, by rw [List.append_assoc]⟩

/-- R204: the units of a symbol sequence, and the tree after them, are determined. -/
theorem Writes.unique {syms : List Symbol} {bits bits' : List Bool} {t1 t2 : CodeTree}
    (h1 : Writes c t syms bits t1) (h2 : Writes c t syms bits' t2) : bits = bits' ∧ t1 = t2 := by
  induction syms generalizing t bits bits' with
  | nil => obtain ⟨rfl, rfl⟩ := h1; obtain ⟨rfl, rfl⟩ := h2; exact ⟨rfl, rfl⟩
  | cons sym syms ih =>
    obtain ⟨u1, m1, a1, hc1, hu1, hr1, rfl⟩ := h1
    obtain ⟨u2, m2, a2, hc2, hu2, hr2, rfl⟩ := h2
    rw [hc1] at hc2; cases hc2
    rw [hu1] at hu2; cases hu2
    obtain ⟨rfl, e⟩ := ih hr1 hr2
    exact ⟨rfl, e⟩

/-- The bound symbols of a tree. -/
def boundSet (t : CodeTree) : Finset Symbol := Finset.univ.filter fun s => t.sym2leaf[s.val].isSome = true

theorem mem_boundSet {s : Symbol} : s ∈ boundSet t ↔ t.Bound s := by
  simp [boundSet, CodeTree.Bound, Option.isSome_iff_ne_none]

/-- R191, R33: `NEXT_ORDER = ORDER_MAX − 2k − 1`. -/
theorem TreeShape.nextOrder_eq (h : TreeShape c t) :
    t.nextOrder = (c.orderMax : Int) - 2 * (boundSet t).card - 1 := by
  have h1 := h.next
  have h2 := h.nLive_eq
  rw [boundCount_eq_card] at h2
  unfold boundSet
  omega

/-- Room for a symbol: all bound symbols and the new one fit (R222). -/
theorem TreeInv.hasRoom_of_fits (hc : c.Valid) (inv : TreeInv c t) {sym : Symbol} {B : Finset Symbol}
    (hB : boundSet t ⊆ B) (hs : sym ∈ B) (hfit : 2 * B.card + 1 ≤ c.nodeCap)
    (hw : (t.N 0).weight ≠ c.weightMax) : t.HasRoom c sym := by
  refine ⟨by rw [inv.root_zero]; exact hw, ?_⟩
  by_cases hb : t.Bound sym
  · exact .inl hb
  · right
    have hlt : (boundSet t).card < B.card :=
      Finset.card_lt_card (Finset.ssubset_iff_subset_ne.2 ⟨hB, fun e => hb (mem_boundSet.1 (e ▸ hs))⟩)
    have := inv.toTreeShape.nextOrder_eq
    have h3 := hc.2.1
    unfold Config.orderMax at this
    omega

/-- R205: symbols that fit can all be written. -/
theorem writes_exists (hc : c.Valid) (syms : List Symbol) (inv : TreeInv c t) {B : Finset Symbol}
    (hB : boundSet t ⊆ B) (hs : ∀ s ∈ syms, s ∈ B) (hfit : 2 * B.card + 1 ≤ c.nodeCap)
    (hw : (t.N 0).weight + syms.length ≤ c.weightMax) : ∃ bits t', Writes c t syms bits t' := by
  induction syms generalizing t with
  | nil => exact ⟨[], t, rfl, rfl⟩
  | cons sym syms ih =>
    rw [List.length_cons] at hw
    obtain ⟨t1, hu, U⟩ := update_ok hc inv sym (inv.hasRoom_of_fits hc hB (hs sym (by simp)) hfit (by omega))
    obtain ⟨unit, hcode, -⟩ := codeBits_spec hc inv.toTreeShape sym
    have hB1 : boundSet t1 ⊆ B := by
      intro s hm
      rcases (U.bound_iff s).1 (mem_boundSet.1 hm) with h | rfl
      · exact hB (mem_boundSet.2 h)
      · exact hs s (by simp)
    obtain ⟨more, t', hrest⟩ := ih U.inv hB1 (fun s h => hs s (List.mem_cons_of_mem _ h))
      (by rw [U.root_weight]; omega)
    exact ⟨unit ++ more, t', unit, more, t1, hcode, hu, hrest, rfl⟩

/-! ### The byte loop of `ENCSTREAM` -/

theorem writeBit_with (b : Bool) (s : State) (t : CodeTree) (p : Nat) :
    writeBit b { s with tree := t, pos := p } = { writeBit b s with tree := t, pos := p } := by
  unfold writeBit
  dsimp only
  split <;> rfl

theorem writeBits_with (bits : List Bool) (s : State) (t : CodeTree) (p : Nat) :
    writeBits bits { s with tree := t, pos := p } = { writeBits bits s with tree := t, pos := p } := by
  induction bits generalizing s with
  | nil => rfl
  | cons b bits ih => rw [writeBits_cons, writeBit_with, ih]; rfl

/-- R167, R169: every byte is encoded, or the loop ends with the fault of the first that cannot be. -/
theorem encodeBytes_cases (hc : c.Valid) (l : List Byte) {s : State} (inv : TreeInv c s.tree)
    (hl : s.source.drop s.pos = l) :
    (∃ bits t', Writes c s.tree (l.map Symbol.ofByte) bits t' ∧
      encodeBytes c l.length s = .go { writeBits bits s with tree := t', pos := s.pos + l.length }) ∨
    (∃ l1 v l2 bits unit t1 code, l = l1 ++ v :: l2 ∧ Writes c s.tree (l1.map Symbol.ofByte) bits t1 ∧
      codeBits c t1 (Symbol.ofByte v) = .ok unit ∧ update c t1 (Symbol.ofByte v) = .error (.raise code) ∧
      code ≠ .none ∧ encodeBytes c l.length s =
        .ended (raiseFault code { writeBits (bits ++ unit) s with tree := t1, pos := s.pos + l1.length + 1 })) := by
  induction l generalizing s with
  | nil => exact .inl ⟨[], s.tree, ⟨rfl, rfl⟩, rfl⟩
  | cons v l ih =>
    rcases srcNext_cases s with ⟨hd, -⟩ | ⟨v', hd, -, hn⟩
    · rw [hl] at hd; cases hd
    rw [hl] at hd
    obtain ⟨rfl, hl1⟩ := List.cons.inj hd
    have hstep : encodeBytes c (v :: l).length s =
        (encodeSymbol c (Symbol.ofByte v) { s with pos := s.pos + 1 }).andThen (encodeBytes c l.length) := by
      rw [List.length_cons]
      conv_lhs => unfold encodeBytes
      rw [hn]
    have hwith : ∀ bits, writeBits bits { s with pos := s.pos + 1 } = { writeBits bits s with pos := s.pos + 1 } := by
      intro bits
      have := writeBits_with bits s s.tree (s.pos + 1)
      rw [show ({ s with tree := s.tree, pos := s.pos + 1 } : State) = { s with pos := s.pos + 1 } from rfl] at this
      rw [this, ← (writeBits_same bits s).tree]
    obtain ⟨unit, hcode, hu, h | h⟩ := encodeSymbol_cases hc (Symbol.ofByte v) (s := { s with pos := s.pos + 1 }) inv
    · obtain ⟨t1, hup, U, he⟩ := h
      have hs1 : setTree t1 (writeBits unit { s with pos := s.pos + 1 }) =
          { writeBits unit s with tree := t1, pos := s.pos + 1 } := by rw [hwith]; rfl
      have hsrc : (setTree t1 (writeBits unit { s with pos := s.pos + 1 })).source.drop
          (setTree t1 (writeBits unit { s with pos := s.pos + 1 })).pos = l := by
        rw [hs1]
        show (writeBits unit s).source.drop (s.pos + 1) = l
        rw [(writeBits_same unit s).source, ← hl1]
      rw [hstep, he, andThen_go]
      rcases ih (s := setTree t1 (writeBits unit { s with pos := s.pos + 1 })) U.inv hsrc with
        ⟨bits, t', hw, he'⟩ | ⟨l1, w, l2, bits, unit', t2, code, hl2, hw, hc2, hu2, hne, he'⟩
      · left
        refine ⟨unit ++ bits, t', ⟨unit, bits, t1, hcode, hup, hw, rfl⟩, ?_⟩
        rw [he', hs1, writeBits_with, writeBits_append, List.length_cons]
        simp only [Nat.add_assoc, Nat.add_comm 1]
      · right
        refine ⟨v :: l1, w, l2, unit ++ bits, unit', t2, code, by rw [hl2]; rfl,
          ⟨unit, bits, t1, hcode, hup, hw, rfl⟩, hc2, hu2, hne, ?_⟩
        rw [he', hs1, writeBits_with, List.append_assoc, writeBits_append unit, List.length_cons]
        simp only [Nat.add_assoc, Nat.add_comm 1]
    · obtain ⟨code, hne, hup, he⟩ := h
      right
      refine ⟨[], v, l, [], unit, s.tree, code, rfl, ⟨rfl, rfl⟩, hcode, hup, hne, ?_⟩
      rw [hstep, he, andThen_ended, hwith, List.nil_append, ← (writeBits_same unit s).tree]
      rfl

/-! ### `ENCSTREAM` -/

/-- What `ENCSTREAM` does (R166 to R169): every byte and EOT are encoded and the write side is flushed; or it ends with the fault
of a byte's update; or with that of EOT's. -/
theorem encstream_run {c : Config} (hc : c.Valid) (s : State) :
    (∃ bits t' , Writes c (CodeTree.fresh c) ((s.source.drop s.pos).map Symbol.ofByte ++ [Symbol.eot]) bits t' ∧
      runEncstream c () s = .ended (respond .ok 0 (flush { writeBits bits (clearWrite s) with tree := t', pos := s.pos + (s.source.drop s.pos).length }))) ∨
    (∃ l1 v l2 bits unit t1 code, s.source.drop s.pos = l1 ++ v :: l2 ∧ Writes c (CodeTree.fresh c) (l1.map Symbol.ofByte) bits t1 ∧
      codeBits c t1 (Symbol.ofByte v) = .ok unit ∧ update c t1 (Symbol.ofByte v) = .error (.raise code) ∧ code ≠ .none ∧
      runEncstream c () s = .ended (raiseFault code { writeBits (bits ++ unit) (clearWrite s) with tree := t1, pos := s.pos + l1.length + 1 })) ∨
    (∃ bits unit t1 code, Writes c (CodeTree.fresh c) ((s.source.drop s.pos).map Symbol.ofByte) bits t1 ∧
      codeBits c t1 Symbol.eot = .ok unit ∧ update c t1 Symbol.eot = .error (.raise code) ∧ code ≠ .none ∧
      runEncstream c () s = .ended (raiseFault code { writeBits (bits ++ unit) (clearWrite s) with tree := t1, pos := s.pos + (s.source.drop s.pos).length })) := by
  have inv := fresh_inv hc
  have hstart : clearWrite (setTree (treeReset c) s) = { clearWrite s with tree := CodeTree.fresh c } := by
    rw [treeReset_eq_fresh]; rfl
  have hrun : runEncstream c () s = ((encodeBytes c (s.source.drop s.pos).length { clearWrite s with tree := CodeTree.fresh c }).andThen
      (encodeSymbol c Symbol.eot)).andThen fun s => complete 0 (flush s) := by
    unfold runEncstream
    dsimp only
    rw [hstart]
    have : bytesLeft { clearWrite s with tree := CodeTree.fresh c } = (s.source.drop s.pos).length := by
      simp [bytesLeft]
    rw [this]
  have hwb : ∀ bits p t, ({ writeBits bits { clearWrite s with tree := CodeTree.fresh c } with tree := t, pos := p } : State) =
      { writeBits bits (clearWrite s) with tree := t, pos := p } := by
    intro bits p t
    have := writeBits_with bits (clearWrite s) (CodeTree.fresh c) s.pos
    rw [show ({ clearWrite s with tree := CodeTree.fresh c, pos := s.pos } : State) = { clearWrite s with tree := CodeTree.fresh c } from rfl] at this
    rw [this]
  rcases encodeBytes_cases hc (s.source.drop s.pos) (s := { clearWrite s with tree := CodeTree.fresh c }) inv rfl with
    ⟨bits, t', hw, he⟩ | ⟨l1, v, l2, bits, unit, t1, code, hl, hw, hcode, hup, hne, he⟩
  · have hinv := (hw.reads hc inv).inv hc inv
    have he' : encodeBytes c (s.source.drop s.pos).length { clearWrite s with tree := CodeTree.fresh c } =
      .go { writeBits bits (clearWrite s) with tree := t', pos := s.pos + (s.source.drop s.pos).length } := by
      rw [he, hwb]; rfl
    obtain ⟨unit, hcode, hu, ⟨t'', hup, U, hee⟩ | ⟨code, hne, hup, hee⟩⟩ := encodeSymbol_cases hc Symbol.eot
      (s := { writeBits bits (clearWrite s) with tree := t', pos := s.pos + (s.source.drop s.pos).length }) hinv
    · left
      refine ⟨bits ++ unit, t'', hw.snoc hcode hup, ?_⟩
      rw [hrun, he', andThen_go, hee, andThen_go, writeBits_with, writeBits_append]
      rfl
    · right; right
      refine ⟨bits, unit, t', code, hw, hcode, hup, hne, ?_⟩
      rw [hrun, he', andThen_go, hee, andThen_ended, writeBits_with, writeBits_append]
  · right; left
    refine ⟨l1, v, l2, bits, unit, t1, code, hl, hw, hcode, hup, hne, ?_⟩
    rw [hrun, he, andThen_ended, andThen_ended, hwb]
    rfl

/-- What is in the sink after the bits of a stream and the flush (R145, R169). -/
theorem flush_shape {bits : List Bool} {s : State} {t : CodeTree} {p : Nat} :
    ∃ bytes : List Byte, bytes.flatMap byteBits = bits ++ List.replicate ((8 - bits.length % 8) % 8) false ∧
      flush { writeBits bits (clearWrite s) with tree := t, pos := p } =
        { s with tree := t, wAcc := 0, wCnt := 0, pos := p, sink := s.sink ++ bytes } := by
  set s1 : State := { writeBits bits (clearWrite s) with tree := t, pos := p } with hs1
  have hsame := writeBits_same bits (clearWrite s)
  have hbo : bitsOut s1 = s.sink.flatMap byteBits ++ bits := by
    show bitsOut (writeBits bits (clearWrite s)) = _
    rw [writeBits_bitsOut]; simp [bitsOut]
  have hcnt : s1.wCnt.val = bits.length % 8 := by
    show (writeBits bits (clearWrite s)).wCnt.val = _
    rw [writeBits_wCnt]; simp
  have hlow : s1.wAcc.toNat < 2 ^ s1.wCnt.val := writeBits_wAcc_low bits (s := clearWrite s) (by simp)
  have hf := flush_bitsOut s1
  rw [hbo, hcnt] at hf
  -- the sink extends
  obtain ⟨bytes, hb⟩ : ∃ bytes, (flush s1).sink = s.sink ++ bytes := by
    have h1 : ∀ (bs : List Bool) (u : State), ∃ x, (writeBits bs u).sink = u.sink ++ x := by
      intro bs
      induction bs with
      | nil => intro u; exact ⟨[], by simp⟩
      | cons b bs ih =>
        intro u
        obtain ⟨x, hx⟩ := ih (writeBit b u)
        have : ∃ y, (writeBit b u).sink = u.sink ++ y := by
          unfold writeBit; dsimp only; split
          · exact ⟨[], by simp⟩
          · exact ⟨_, rfl⟩
        obtain ⟨y, hy⟩ := this
        exact ⟨y ++ x, by rw [writeBits_cons, hx, hy, List.append_assoc]⟩
    obtain ⟨x, hx⟩ := h1 bits (clearWrite s)
    have : ∃ y, (flush s1).sink = s1.sink ++ y := by
      unfold flush; split
      · exact ⟨[], by simp⟩
      · exact ⟨_, rfl⟩
    obtain ⟨y, hy⟩ := this
    refine ⟨x ++ y, ?_⟩
    rw [hy, show s1.sink = (writeBits bits (clearWrite s)).sink from rfl, hx]
    simp
  refine ⟨bytes, ?_, ?_⟩
  · rw [hb, List.flatMap_append, List.append_assoc] at hf
    exact List.append_cancel_left hf
  · have hfs := flush_same s1
    have hw0 := flush_wAcc hlow
    have hc0 := flush_wCnt s1
    unfold SameButWrite at hfs hsame
    rw [hfs, hw0, hc0, hb, hs1, hsame]
    rfl

theorem boundSet_fresh (c : Config) : boundSet (CodeTree.fresh c) = ∅ := by
  ext s
  simp [mem_boundSet, CodeTree.Bound, CodeTree.fresh]

theorem ofByte_inj : Function.Injective Symbol.ofByte := by
  intro a b h
  have := congrArg Fin.val h
  exact BitVec.eq_of_toNat_eq this

theorem ofByte_ne_eot (v : Byte) : Symbol.ofByte v ≠ Symbol.eot := by
  intro h
  have := congrArg Fin.val h
  have h2 := v.isLt
  simp [Symbol.ofByte, Symbol.eot] at this
  omega

/-- The symbols of a byte sequence. -/
def symSet (l : List Byte) : Finset Symbol := (l.map Symbol.ofByte).toFinset

theorem symSet_card (l : List Byte) : (symSet l).card = distinctBytes l := by
  unfold symSet distinctBytes
  rw [← List.card_toFinset]
  rw [show (l.map Symbol.ofByte).toFinset = l.toFinset.image Symbol.ofByte by ext; simp]
  rw [Finset.card_image_of_injective _ ofByte_inj]

theorem fullSet_card (l : List Byte) : (insert Symbol.eot (symSet l)).card = distinctBytes l + 1 := by
  rw [Finset.card_insert_of_notMem, symSet_card]
  simp only [symSet, List.mem_toFinset, List.mem_map, not_exists, not_and]
  intro v _ h
  exact ofByte_ne_eot v h

/-- R205: a source whose symbols and EOT fit can be encoded whole. -/
theorem writes_all {c : Config} (hc : c.Valid) (l : List Byte) (hd : 2 * (distinctBytes l + 1) + 1 ≤ c.nodeCap)
    (hl : l.length < c.weightMax) :
    ∃ bits t', Writes c (CodeTree.fresh c) (l.map Symbol.ofByte ++ [Symbol.eot]) bits t' := by
  refine writes_exists hc _ (fresh_inv hc) (B := insert Symbol.eot (symSet l)) ?_ ?_ ?_ ?_
  · rw [boundSet_fresh]; exact Finset.empty_subset _
  · intro s hs
    simp only [List.mem_append, List.mem_map, List.mem_singleton] at hs
    simp only [Finset.mem_insert, symSet, List.mem_toFinset, List.mem_map]
    tauto
  · rw [fullSet_card]; exact hd
  · rw [fresh_N_zero]; simp; omega

/-- The units of a concatenation. -/
theorem Writes.split {c : Config} {t t' : CodeTree} {a b : List Symbol} {bits : List Bool} (h : Writes c t (a ++ b) bits t') :
    ∃ b1 b2 t1, Writes c t a b1 t1 ∧ Writes c t1 b b2 t' ∧ bits = b1 ++ b2 := by
  induction a generalizing t bits with
  | nil => exact ⟨[], bits, t, ⟨rfl, rfl⟩, h, rfl⟩
  | cons x a ih =>
    obtain ⟨u, m, t1, hc, hu, hr, rfl⟩ := h
    obtain ⟨b1, b2, t2, h1, h2, rfl⟩ := ih hr
    exact ⟨u ++ b1, b2, t2, ⟨u, b1, t1, hc, hu, h1, rfl⟩, h2, by rw [List.append_assoc]⟩

/-! ### The decoder over a sequence of units -/

/-- `s'` is `s` but for the tree, the read side, the position and the sink. -/
def SameButDecode (s s' : State) : Prop :=
  s' = { s with tree := s'.tree, rAcc := s'.rAcc, rCnt := s'.rCnt, pos := s'.pos, sink := s'.sink }

theorem SameButDecode.trans {s1 s2 s3 : State} (h1 : SameButDecode s1 s2) (h2 : SameButDecode s2 s3) :
    SameButDecode s1 s3 := by
  unfold SameButDecode at *
  rw [h2, h1]

/-- What decoding keeps (R38, R61). -/
def DecodeOk (s s' : State) : Prop :=
  SameButDecode s s' ∧ (s.rCnt.val ≤ 7 → s'.rCnt.val ≤ 7) ∧ (SourceInv s → SourceInv s')

theorem DecodeOk.refl (s : State) : DecodeOk s s := ⟨rfl, id, id⟩

theorem DecodeOk.trans {s1 s2 s3 : State} (h1 : DecodeOk s1 s2) (h2 : DecodeOk s2 s3) : DecodeOk s1 s3 :=
  ⟨h1.1.trans h2.1, fun h => h2.2.1 (h1.2.1 h), fun h => h2.2.2 (h1.2.2 h)⟩

theorem ReadOk.decodeOk {s s' : State} (h : ReadOk s s') : DecodeOk s s' := by
  refine ⟨?_, h.2⟩
  have := h.1
  unfold SameButRead at this
  unfold SameButDecode
  rw [this]

/-- The byte that a symbol other than EOT is emitted as (R177). -/
def symByte (sym : Symbol) : Byte := BitVec.ofNat 8 sym.val

theorem emitSymbol_eot (s : State) : emitSymbol c Symbol.eot s = .ended (stopDecoding .eot s) := if_pos rfl

theorem emitSymbol_ok {sym : Symbol} {s : State} (hne : sym ≠ Symbol.eot) (hu : update c s.tree sym = .ok t') :
    emitSymbol c sym s = .go (setTree t' (sinkPut (symByte sym) s)) := by
  unfold emitSymbol
  rw [if_neg hne]
  exact updateTree_ok hu

theorem emitSymbol_fault {sym : Symbol} {s : State} {code : FaultCode} (hne : sym ≠ Symbol.eot)
    (hu : update c s.tree sym = .error (.raise code)) :
    emitSymbol c sym s = .ended (raiseFault code (sinkPut (symByte sym) s)) := by
  unfold emitSymbol
  rw [if_neg hne]
  unfold updateTree
  rw [show (sinkPut (BitVec.ofNat 8 sym.val) s).tree = s.tree from rfl, hu]
  rfl

/-- R177, R178: a sequence of units is decoded into its symbols. -/
theorem decodeLoop_reads (hc : c.Valid) (syms : List Symbol) {s : State} {bits rest : List Bool} {fuel : Nat}
    (inv : TreeInv c s.tree) (hr : Reads c s.tree syms bits t') (hne : Symbol.eot ∉ syms)
    (hb : bitsIn s = bits ++ rest) (hf : 2 * (bitsIn s).length + 2 ≤ fuel) :
    ∃ s' fuel', bitsIn s' = rest ∧ s'.tree = t' ∧ s'.sink = s.sink ++ syms.map symByte ∧ DecodeOk s s' ∧
      2 * rest.length + 2 ≤ fuel' ∧ decodeLoop c fuel s.tree.root s = decodeLoop c fuel' s'.tree.root s' := by
  induction syms generalizing s bits fuel with
  | nil =>
    obtain ⟨rfl, rfl⟩ := hr
    refine ⟨s, fuel, hb, rfl, by simp, DecodeOk.refl s, ?_, rfl⟩
    rw [hb] at hf; exact hf
  | cons sym syms ih =>
    obtain ⟨unit, more, t1, hu, hup, hrest, rfl⟩ := hr
    have hsym : sym ≠ Symbol.eot := fun e => hne (by simp [e])
    obtain ⟨s1, fuel1, h1, hok, hf1, he⟩ := decodeLoop_unit hc inv.toTreeShape hu
      (by rw [hb, List.append_assoc]) hf
    have hem := emitSymbol_ok (s := s1) hsym (by rw [hok.tree]; exact hup)
    have hok2 : DecodeOk s1 (setTree t1 (sinkPut (symByte sym) s1)) := ⟨rfl, id, id⟩
    obtain ⟨s2, fuel2, h2, ht2, hsnk, hokd, hf2, he2⟩ := ih (s := setTree t1 (sinkPut (symByte sym) s1)) (fuel := fuel1)
      (update_inv hc inv hup).inv hrest (fun e => hne (by simp [e])) h1
      (by rw [show bitsIn (setTree t1 (sinkPut (symByte sym) s1)) = bitsIn s1 from rfl, h1]; exact hf1)
    refine ⟨s2, fuel2, h2, ht2, ?_, (hok.decodeOk.trans hok2).trans hokd, hf2, ?_⟩
    · rw [hsnk]
      simp [hok.1.sink]
    · rw [he, hem, andThen_go, he2]

/-- R178: the EOT unit stops the command. -/
theorem decodeLoop_eot (hc : c.Valid) {s : State} {unit rest : List Bool} {fuel : Nat}
    (inv : TreeShape c s.tree) (hu : IsUnit c s.tree Symbol.eot unit) (hb : bitsIn s = unit ++ rest)
    (hf : 2 * (bitsIn s).length + 2 ≤ fuel) :
    ∃ s', bitsIn s' = rest ∧ ReadOk s s' ∧ decodeLoop c fuel s.tree.root s = .ended (stopDecoding .eot s') := by
  obtain ⟨s', fuel', h1, hok, -, he⟩ := decodeLoop_unit hc inv hu hb hf
  exact ⟨s', h1, hok, by rw [he, emitSymbol_eot, andThen_ended]⟩

/-- Where `DECSTREAM` starts: the one-node tree, the read side cleared, no stop reason (R172). -/
def decodeStart (c : Config) (s : State) : State :=
  { s with tree := CodeTree.fresh c, rAcc := 0, rCnt := 0, stopReason := .none }

theorem decodeStart_bitsIn (c : Config) (s : State) :
    bitsIn (decodeStart c s) = (s.source.drop s.pos).flatMap byteBits := rfl

theorem runDecstream_eq (c : Config) (s : State) :
    runDecstream c () s = decodeLoop c (2 * (bitsIn (decodeStart c s)).length + 2) (decodeStart c s).tree.root
      (decodeStart c s) := by
  have h : ({ clearRead (setTree (treeReset c) s) with stopReason := .none } : State) = decodeStart c s := by
    rw [treeReset_eq_fresh]; rfl
  unfold runDecstream
  dsimp only
  rw [h, bitsIn_length]
  rfl

/-- The state in which a decoding ends, before its response: what units and a last reading leave (R172). -/
theorem decoded_state {s s1 s2 : State} {syms : List Symbol} (hok : DecodeOk (decodeStart c s) s1)
    (hr : ReadOk s1 s2) (ht : s1.tree = t)
    (hs : s1.sink = (decodeStart c s).sink ++ syms.map symByte) :
    s2 = { s with tree := t, rAcc := s2.rAcc, rCnt := s2.rCnt, pos := s2.pos, sink := s.sink ++ syms.map symByte,
                  stopReason := .none } := by
  have h1 := hr.1
  have h2 := hok.1
  unfold SameButRead at h1
  unfold SameButDecode at h2
  rw [ht, hs] at h2
  rw [h1, h2]
  rfl

/-- R176: the literals out of range are those that spell no symbol. -/
theorem badLiteral_iff {lit : List Bool} (h9 : lit.length = 9) :
    (∀ sym : Symbol, lit ≠ literalBits sym) ↔ 257 ≤ bitsValue 0 lit := by
  constructor
  · intro h
    by_contra hlt
    exact h _ (literalBits_of_value lit h9 (by omega))
  · rintro h sym rfl
    rw [bitsValue_literalBits] at h
    have := sym.isLt; omega

/-! ### The decoder on any input -/

/-- From a live node the bits lead to a leaf on the way, or end at an internal node. -/
theorem TreeShape.descent_cases (h : TreeShape c t) (bits : List Bool) {i : Nat} (hi : i < t.nLive) :
    (∃ j, descend t i bits = some j ∧ j < t.nLive ∧ (t.N j).left ≠ none) ∨
    (∃ p q l, bits = p ++ q ∧ descend t i p = some l ∧ l < t.nLive ∧ (t.N l).left = none) := by
  by_cases hl : (t.N i).left = none
  · exact .inr ⟨[], bits, i, rfl, rfl, hi, hl⟩
  induction bits generalizing i with
  | nil => exact .inl ⟨i, rfl, hi, hl⟩
  | cons b bits ih =>
    obtain ⟨j, hj⟩ := h.child_some hi hl b
    have hjl := (h.child_live hi hj).1
    by_cases hjleaf : (t.N j).left = none
    · exact .inr ⟨[b], bits, j, rfl, by rw [descend_cons_some hj]; rfl, hjl, hjleaf⟩
    · rcases ih hjl hjleaf with ⟨k, hk, hkl, hkn⟩ | ⟨p, q, l, rfl, hp, hll, hleaf⟩
      · exact .inl ⟨k, by rw [descend_cons_some hj]; exact hk, hkl, hkn⟩
      · exact .inr ⟨b :: p, q, l, rfl, by rw [descend_cons_some hj]; exact hp, hll, hleaf⟩

/-- How a run of the decoder ends on the tree `t`, with `rest` the bits not yet consumed and `s` the state at that moment; `e` is the
final state (R172, R175 to R179). -/
inductive DecodeEnd (c : Config) (t : CodeTree) (rest : List Bool) (s : State) : State → Prop where
  /-- R178: the EOT unit. -/
  | eot (unit more : List Bool) (s' : State) : IsUnit c t Symbol.eot unit → rest = unit ++ more → bitsIn s' = more →
      ReadOk s s' → DecodeEnd c t rest s (stopDecoding .eot s')
  /-- R179: the bits end at an internal node. -/
  | eoiDescent (j : Nat) (s' : State) : descend t 0 rest = some j → (t.N j).left ≠ none → bitsIn s' = [] →
      ReadOk s s' → DecodeEnd c t rest s (stopDecoding .eoiDescent s')
  /-- R179: the bits end within a literal. -/
  | eoiLiteral (path part : List Bool) (s' : State) : descend t 0 path = some t.nyt → rest = path ++ part →
      part.length < 9 → bitsIn s' = [] → ReadOk s s' → DecodeEnd c t rest s (stopDecoding .eoiLiteral s')
  /-- R176: nine literal bits that spell no symbol. -/
  | badLiteral (path lit more : List Bool) (s' : State) : descend t 0 path = some t.nyt → rest = path ++ lit ++ more →
      lit.length = 9 → 257 ≤ bitsValue 0 lit → bitsIn s' = more → ReadOk s s' →
      DecodeEnd c t rest s (raiseFault .badLiteral s')
  /-- R229: a symbol's update faults after its byte has been put. -/
  | updateFault (sym : Symbol) (unit more : List Bool) (code : FaultCode) (s' : State) : sym ≠ Symbol.eot →
      IsUnit c t sym unit → rest = unit ++ more → update c t sym = .error (.raise code) → code ≠ .none →
      bitsIn s' = more → ReadOk s s' → DecodeEnd c t rest s (raiseFault code (sinkPut (symByte sym) s'))

/-- R190, R226: whatever the input, the decoder reads some units and then ends in one of the five ways; it is never stuck and
never runs out of turns. -/
theorem decodeLoop_total (hc : c.Valid) {s : State} {fuel : Nat} (inv : TreeInv c s.tree)
    (hf : 2 * (bitsIn s).length + 2 ≤ fuel) :
    ∃ syms bits s1 e, Symbol.eot ∉ syms ∧ Reads c s.tree syms bits s1.tree ∧ bitsIn s = bits ++ bitsIn s1 ∧
      s1.sink = s.sink ++ syms.map symByte ∧ DecodeOk s s1 ∧ DecodeEnd c s1.tree (bitsIn s1) s1 e ∧
      decodeLoop c fuel s.tree.root s = .ended e := by
  generalize hn : (bitsIn s).length = n
  induction n using Nat.strongRecOn generalizing s fuel with
  | _ n ih =>
    have h := inv.toTreeShape
    have hroot := h.root_live
    have stop : ∀ {e : State}, DecodeEnd c s.tree (bitsIn s) s e → decodeLoop c fuel s.tree.root s = .ended e →
        ∃ syms bits s1 e, Symbol.eot ∉ syms ∧ Reads c s.tree syms bits s1.tree ∧ bitsIn s = bits ++ bitsIn s1 ∧
          s1.sink = s.sink ++ syms.map symByte ∧ DecodeOk s s1 ∧ DecodeEnd c s1.tree (bitsIn s1) s1 e ∧
          decodeLoop c fuel s.tree.root s = .ended e := fun {e} hd he =>
      ⟨[], [], s, e, by simp, ⟨rfl, rfl⟩, rfl, by simp, DecodeOk.refl s, hd, he⟩
    -- one whole unit is there
    have unit_there : ∀ sym unit rest, IsUnit c s.tree sym unit → bitsIn s = unit ++ rest →
        ∃ syms bits s1 e, Symbol.eot ∉ syms ∧ Reads c s.tree syms bits s1.tree ∧ bitsIn s = bits ++ bitsIn s1 ∧
          s1.sink = s.sink ++ syms.map symByte ∧ DecodeOk s s1 ∧ DecodeEnd c s1.tree (bitsIn s1) s1 e ∧
          decodeLoop c fuel s.tree.root s = .ended e := by
      intro sym unit rest hu hb
      have hpos := h.unit_pos hc hu
      obtain ⟨s1, fuel1, h1, hok, hf1, he⟩ := decodeLoop_unit hc h hu hb hf
      by_cases hsym : sym = Symbol.eot
      · subst hsym
        exact stop (.eot unit rest s1 hu hb h1 hok) (by rw [he, emitSymbol_eot, andThen_ended])
      · rcases update_cases hc inv sym with ⟨-, t1, hup, U⟩ | hbad
        · have hem := emitSymbol_ok (s := s1) hsym (by rw [hok.tree]; exact hup)
          have hok2 : DecodeOk s1 (setTree t1 (sinkPut (symByte sym) s1)) := ⟨rfl, id, id⟩
          have hbits : bitsIn (setTree t1 (sinkPut (symByte sym) s1)) = rest := h1
          obtain ⟨syms, bits, s2, e, hne, hr, hb2, hsnk, hokd, hend, he2⟩ :=
            ih rest.length (by rw [← hn, hb, List.length_append]; omega)
              (s := setTree t1 (sinkPut (symByte sym) s1)) (fuel := fuel1) U.inv (by rw [hbits]; exact hf1)
              (by rw [hbits])
          refine ⟨sym :: syms, unit ++ bits, s2, e, ?_, ⟨unit, bits, t1, hu, hup, hr, rfl⟩, ?_, ?_,
            (hok.decodeOk.trans hok2).trans hokd, hend, ?_⟩
          · simp only [List.mem_cons, not_or]; exact ⟨fun e => hsym e.symm, hne⟩
          · rw [hb, List.append_assoc, ← hb2, hbits]
          · rw [hsnk]; simp [hok.1.sink]
          · rw [he, hem, andThen_go, he2]
        · obtain ⟨code, hcode, hup⟩ : ∃ code, code ≠ FaultCode.none ∧ update c s.tree sym = .error (.raise code) := by
            rcases hbad with ⟨-, h'⟩ | ⟨-, -, -, h'⟩
            · exact ⟨_, by decide, h'⟩
            · exact ⟨_, by decide, h'⟩
          have hem := emitSymbol_fault (c := c) (s := s1) hsym (by rw [hok.tree]; exact hup)
          exact stop (.updateFault sym unit rest code s1 hsym hu hb hup hcode h1 hok)
            (by rw [he, hem, andThen_ended])
    rcases h.descent_cases (bitsIn s) hroot with ⟨j, hj, hjl, hjn⟩ | ⟨p, q, l, hb, hp, hll, hleaf⟩
    · obtain ⟨s1, h1, hok, he⟩ := decodeLoop_path (bitsIn s) [] (fuel - (bitsIn s).length) h hroot hj
        (by rw [List.append_nil])
      refine stop (.eoiDescent j s1 hj hjn h1 hok) ?_
      rw [h.root_zero]
      conv_lhs => rw [show fuel = (bitsIn s).length + (fuel - (bitsIn s).length) by omega]
      rw [he, show fuel - (bitsIn s).length = (fuel - (bitsIn s).length - 1) + 1 by omega]
      exact decodeLoop_eoi _ (by rw [hok.tree]; exact hjl) (by rw [hok.tree]; exact hjn) h1
    · have hpath := h.pathOf_of_descend hc hp
      by_cases hnyt : l = s.tree.nyt
      · subst hnyt
        have hlen : (bitsIn s).length = p.length + q.length := by rw [hb, List.length_append]
        obtain ⟨s1, h1, hok, he⟩ := decodeLoop_path p q (fuel - p.length) h hroot hp hb
        have hleaf1 : decodeLoop c fuel s.tree.root s = decodeLoop c ((fuel - p.length - 1) + 1) s.tree.nyt s1 := by
          rw [h.root_zero, show fuel - p.length - 1 + 1 = fuel - p.length by omega, ← he]
          congr 1; omega
        rw [decodeLoop_leaf _ (by rw [hok.tree]; exact hll) (by rw [hok.tree]; exact hleaf)] at hleaf1
        have hn1 : s1.tree.nyt = s.tree.nyt := by rw [hok.tree]
        rcases resolveLeaf_nyt (s1.tree.N s.tree.nyt) s1 with
          ⟨sym, rest, s2, hb2, -, -, -⟩ | ⟨s2, hshort, h2, hok2, hres⟩ | ⟨lit, more, s2, h9, hv, hb2, h2, hok2, hres⟩
        · exact unit_there sym (p ++ literalBits sym) rest (.inr ⟨p, hpath, rfl⟩)
            (by rw [hb, ← h1, hb2, List.append_assoc])
        · rw [hn1] at hres
          exact stop (.eoiLiteral p q s2 hp hb (by rw [← h1]; exact hshort) h2 (hok.trans hok2)) (by rw [hleaf1, hres])
        · rw [hn1] at hres
          exact stop (.badLiteral p lit more s2 hp (by rw [hb, ← h1, hb2, List.append_assoc]) h9 hv h2
            (hok.trans hok2)) (by rw [hleaf1, hres])
      · obtain ⟨sym, hsym⟩ := Option.ne_none_iff_exists'.1 (h.leaf_bound l hll hleaf hnyt)
        have hm := (h.sym2leaf_iff sym l).2 ⟨hll, hleaf, hsym⟩
        exact unit_there sym p q (.inl ⟨l, hm, hpath⟩) hb

end Sys2Proof.Machine
end

