-- ==== Sys2Proof/Laws/Invariant.lean ====
section
/-! SUPPORT. The invariants inside a running command, what each shared operation does to them, and that every command
ends in a state that meets `MachineInv`. -/

namespace Sys2Proof.Machine

open Sys2Proof

/-- The hardware's configuration is a valid one (R9). -/
theorem ahteValid : Config.ahte.Valid := by decide

/-- `MachineInv` without what R39 and R88 say of `BUSY` and `RSP`, which a running command has still to settle. -/
structure Running (s : State) : Prop where
  tree : TreeInv Config.ahte s.tree
  bits : BitsInv s
  fault : s.fault = true ↔ s.faultCode ≠ .none
  width : s.pathBits.length = Config.ahte.maxDepth
  len : s.pathLen ≤ Config.ahte.maxDepth
  zero : ∀ k, s.pathLen ≤ k → k < Config.ahte.maxDepth → s.pathBits[k]? = some false
  source : SourceInv s

theorem Running.respond {s : State} (h : Running s) (st : Status) (v : BitVec 10) : MachineInv Config.ahte (respond st v s) := by
  refine ⟨h.tree, ⟨h.bits.1, h.bits.2⟩, ⟨rfl, h.fault, ?_, ?_, h.width, h.len, h.zero⟩, h.source⟩
  · show rspReserved (st.code ++ (0 : BitVec 2) ++ v) = 0
    exact (fields_append _ _ _).2.1
  · show (rspStatus (st.code ++ (0 : BitVec 2) ++ v)).toNat ≤ 3
    rw [show rspStatus (st.code ++ (0 : BitVec 2) ++ v) = st.code from (fields_append _ _ _).1]
    cases st <;> decide

theorem Running.raise {s : State} (h : Running s) {code : FaultCode} (hc : code ≠ .none) : MachineInv Config.ahte (raiseFault code s) :=
  Running.respond (s := { s with fault := true, faultCode := code }) ⟨h.tree, ⟨h.bits.1, h.bits.2⟩, ⟨fun _ => hc, fun _ => rfl⟩, h.width, h.len, h.zero, h.source⟩ _ _

theorem MachineInv.running {s : State} (h : MachineInv Config.ahte s) : Running s :=
  ⟨h.tree, h.bits, h.status.fault_code, h.status.path_width, h.status.path_len, h.status.path_zero, h.source⟩

theorem Running.write {s s' : State} (h : Running s) (hs : SameButWrite s s') (hb : s'.wAcc.toNat < 2 ^ s'.wCnt.val) : Running s' := by
  unfold SameButWrite at hs
  obtain ⟨a, b, c, rfl⟩ : ∃ a b c, s' = { s with wAcc := a, wCnt := b, sink := c } := ⟨_, _, _, hs⟩
  exact ⟨h.tree, ⟨hb, h.bits.2⟩, h.fault, h.width, h.len, h.zero, h.source⟩

theorem Running.read {s s' : State} (h : Running s) (hs : ReadOk s s') : Running s' := by
  obtain ⟨hs, h1, h2⟩ := hs
  unfold SameButRead at hs
  obtain ⟨a, b, c, rfl⟩ : ∃ a b c, s' = { s with rAcc := a, rCnt := b, pos := c } := ⟨_, _, _, hs⟩
  exact ⟨h.tree, ⟨h.bits.1, h1 h.bits.2⟩, h.fault, h.width, h.len, h.zero, h2 h.source⟩

theorem Running.withTree {s : State} (h : Running s) {t : CodeTree} (ht : TreeInv Config.ahte t) : Running (setTree t s) :=
  ⟨ht, ⟨h.bits.1, h.bits.2⟩, h.fault, h.width, h.len, h.zero, h.source⟩

theorem Running.put {s : State} (h : Running s) (v : Byte) : Running (sinkPut v s) :=
  ⟨h.tree, ⟨h.bits.1, h.bits.2⟩, h.fault, h.width, h.len, h.zero, h.source⟩

theorem Running.pos {s : State} (h : Running s) {p : Nat} (hp : p ≤ s.source.length) : Running { s with pos := p } :=
  ⟨h.tree, ⟨h.bits.1, h.bits.2⟩, h.fault, h.width, h.len, h.zero, hp⟩

/-- The outcome is a next state that meets the invariants. -/
def Good (o : Host.Outcome State Fault Refusal) : Prop := ∃ e, o = .next e ∧ MachineInv Config.ahte e

theorem good_guarded {α : Type} (o : Option α) (body : α → State → Flow) {s : State} (h : Running s)
    (hb : ∀ a, o = some a → s.fault = false → Good (body a s).outcome) : Good (guarded o body s) := by
  unfold guarded
  split
  · exact ⟨_, rfl, h.respond _ _⟩
  · next hf =>
    cases o with
    | none => exact ⟨_, rfl, h.respond _ _⟩
    | some a => exact hb a rfl (by simpa using hf)

theorem writeBits_running {s : State} (h : Running s) (bits : List Bool) : Running (writeBits bits s) :=
  h.write (writeBits_same bits s) (writeBits_wAcc_low bits h.bits.1)

/-- Every command ends in a next state that meets the invariants. -/
theorem exec_good (i : Instr) {s : State} (h : Running s) : Good (exec i s) := by
  cases i with
  | treset =>
    refine good_guarded noOperand _ h fun a _ _ => ⟨_, rfl, ?_⟩
    exact (h.withTree (treeReset_inv ahteValid)).respond _ _
  | pathof n =>
    refine good_guarded (nodeOperand s.tree n) _ h fun a ha _ => ?_
    have hl : a < s.tree.nLive := by
      unfold nodeOperand at ha; split at ha
      · cases ha; assumption
      · cases ha
    obtain ⟨bits, hp, hlen, -⟩ := h.tree.toTreeShape.pathOf_spec ahteValid hl
    have : runPathof Config.ahte a s = complete (BitVec.ofNat 10 bits.length) { s with pathLen := bits.length, pathBits := padPath Config.ahte bits } := by
      unfold runPathof; rw [hp]
    rw [this]
    refine ⟨_, rfl, Running.respond (s := { s with pathLen := bits.length, pathBits := padPath Config.ahte bits }) ⟨h.tree, ⟨h.bits.1, h.bits.2⟩, h.fault, ?_, hlen, ?_, h.source⟩ _ _⟩
    · simp [padPath]; omega
    · intro k hk1 hk2
      have hk1 : bits.length ≤ k := hk1
      simp only [padPath]
      rw [List.getElem?_append_right hk1, List.getElem?_replicate, if_pos (by omega)]
  | update a =>
    refine good_guarded (symbolOperand a) _ h fun sym _ _ => ?_
    rcases updateTree_cases ahteValid sym h.tree with ⟨-, t', -, he, U⟩ | ⟨-, he⟩ | ⟨-, -, -, he⟩
    · exact ⟨_, by unfold runUpdate; rw [he]; rfl, (h.withTree U.inv).respond _ _⟩
    · exact ⟨_, by unfold runUpdate; rw [he]; rfl, h.raise (by decide)⟩
    · exact ⟨_, by unfold runUpdate; rw [he]; rfl, h.raise (by decide)⟩
  | wrbit b =>
    refine good_guarded (bitOperand b) _ h fun x _ _ => ⟨_, rfl, ?_⟩
    exact (h.write (writeBit_same x s) (writeBit_wAcc_low x h.bits.1)).respond _ _
  | wflush =>
    refine good_guarded noOperand _ h fun x _ _ => ⟨_, rfl, ?_⟩
    refine (h.write (flush_same s) ?_).respond _ _
    rw [flush_wAcc h.bits.1, flush_wCnt]; decide
  | rdbit =>
    refine good_guarded noOperand _ h fun x _ _ => ?_
    rcases readBit_cases s with ⟨-, hr⟩ | ⟨b, rest, s1, -, hr, -, hs, h1, h2⟩
    · exact ⟨_, by unfold runRdbit; rw [hr]; rfl, h.respond _ _⟩
    · exact ⟨_, by unfold runRdbit; rw [hr]; rfl, (h.read ⟨hs, fun _ => h1, h2⟩).respond _ _⟩
  | encode a =>
    refine good_guarded (symbolOperand a) _ h fun sym _ _ => ?_
    obtain ⟨unit, -, -, ⟨t', -, U, he⟩ | ⟨code, hne, -, he⟩⟩ := encodeSymbol_cases ahteValid sym h.tree
    · exact ⟨_, by unfold runEncode; rw [he]; rfl, ((writeBits_running h unit).withTree U.inv).respond _ _⟩
    · exact ⟨_, by unfold runEncode; rw [he]; rfl, (writeBits_running h unit).raise hne⟩
  | encstream =>
    refine good_guarded noOperand _ h fun x _ _ => ?_
    have inv := fresh_inv ahteValid
    have hcl : Running (clearWrite s) := ⟨h.tree, ⟨by show 0 < 1; decide, h.bits.2⟩, h.fault, h.width, h.len, h.zero, h.source⟩
    have hdl : s.pos + (s.source.drop s.pos).length ≤ s.source.length := by
      have h0 := h.source
      unfold SourceInv at h0
      rw [List.length_drop]; omega
    have base : ∀ bits t p, TreeInv Config.ahte t → p ≤ s.source.length → Running { writeBits bits (clearWrite s) with tree := t, pos := p } := by
      intro bits t p ht hp
      have h1 := (writeBits_running hcl bits).withTree ht
      exact h1.pos (p := p) (by show p ≤ (writeBits bits (clearWrite s)).source.length; rw [(writeBits_same bits _).source]; exact hp)
    rcases encstream_run ahteValid s with ⟨bits, t', hw', he⟩ | ⟨l1, v, l2, bits, unit, t1, code, hsp, hw1, hcode, hup, hne, he⟩ |
      ⟨bits, unit, t1, code, hw1, hcode, hup, hne, he⟩
    · refine ⟨_, by rw [he]; rfl, Running.respond ?_ _ _⟩
      have hb := base bits t' _ ((hw'.reads ahteValid inv).inv ahteValid inv) hdl
      refine hb.write (flush_same _) ?_
      rw [flush_wAcc hb.bits.1, flush_wCnt]; decide
    · refine ⟨_, by rw [he]; rfl, Running.raise ?_ hne⟩
      refine base _ _ _ ((hw1.reads ahteValid inv).inv ahteValid inv) ?_
      have := congrArg List.length hsp
      rw [List.length_append, List.length_cons] at this
      omega
    · refine ⟨_, by rw [he]; rfl, Running.raise ?_ hne⟩
      exact base _ _ _ ((hw1.reads ahteValid inv).inv ahteValid inv) hdl
  | decstream =>
    refine good_guarded noOperand _ h fun x _ _ => ?_
    have inv := fresh_inv ahteValid
    obtain ⟨syms, bits, s1, e, hne, hr, hb, hsnk, hok, hend, he⟩ := decodeLoop_total ahteValid (s := decodeStart Config.ahte s) inv (Nat.le_refl _)
    have hinv := hr.inv ahteValid inv
    refine ⟨e, by show (runDecstream Config.ahte () s).outcome = _; rw [runDecstream_eq, he]; rfl, ?_⟩
    have dec : ∀ s2, ReadOk s1 s2 → Running s2 := by
      intro s2 h2
      have h3 := hok.trans h2.decodeOk
      have hd := decoded_state hok h2 rfl hsnk
      have hr7 := h3.2.1 (by show 0 ≤ 7; decide)
      have hsi := h3.2.2 h.source
      obtain ⟨ra, rc, po, rfl⟩ : ∃ ra rc po, s2 = ({ s with tree := s1.tree, rAcc := ra, rCnt := rc, pos := po, sink := s.sink ++ syms.map symByte, stopReason := .none } : State) := ⟨_, _, _, hd⟩
      exact ⟨hinv, ⟨h.bits.1, hr7⟩, h.fault, h.width, h.len, h.zero, hsi⟩
    have stop : ∀ {s2 : State} (r : StopReason), Running s2 → MachineInv Config.ahte (stopDecoding r s2) := by
      intro s2 r hk
      exact Running.respond (s := { s2 with stopReason := r }) ⟨hk.tree, ⟨hk.bits.1, hk.bits.2⟩, hk.fault, hk.width, hk.len, hk.zero, hk.source⟩ _ _
    cases hend with
    | eot _ _ s2 _ _ _ hok2 => exact stop _ (dec s2 hok2)
    | eoiDescent _ s2 _ _ _ hok2 => exact stop _ (dec s2 hok2)
    | eoiLiteral _ _ s2 _ _ _ _ hok2 => exact stop _ (dec s2 hok2)
    | badLiteral _ _ _ s2 _ _ _ _ _ hok2 => exact (dec s2 hok2).raise (by decide)
    | updateFault _ _ _ _ s2 _ _ _ _ hne _ hok2 => exact ((dec s2 hok2).put _).raise hne

end Sys2Proof.Machine
end

