-- ==== Sys2Proof/Laws/Past.lean ====
section
/-! SUPPORT. A stream command does not see what was done before it: two runs of one operation on states that agree in the tree, in one
side of the BitChannel and in the bytes still to be pulled go the same way (42_codec.md R170, 44_invariants_and_properties.md
R204). -/

namespace Sys2Proof.Machine

open Sys2Proof

/-- Two states that the same operations have extended by the same bytes: the tree, `FAULT` and the bytes still to be pulled agree, and
each sink is its own beginning, `b1` or `b2`, with the same bytes after it. -/
structure Alike (b1 b2 : List Byte) (s1 s2 : State) : Prop where
  tree : s1.tree = s2.tree
  fault : s1.fault = s2.fault
  left : s1.source.drop s1.pos = s2.source.drop s2.pos
  sink : ∃ bytes, s1.sink = b1 ++ bytes ∧ s2.sink = b2 ++ bytes

/-- Alike, with the same write side. -/
structure WriteAlike (b1 b2 : List Byte) (s1 s2 : State) : Prop extends Alike b1 b2 s1 s2 where
  wAcc : s1.wAcc = s2.wAcc
  wCnt : s1.wCnt = s2.wCnt

/-- Alike, with the same read side and `STOP_REASON`. -/
structure ReadAlike (b1 b2 : List Byte) (s1 s2 : State) : Prop extends Alike b1 b2 s1 s2 where
  rAcc : s1.rAcc = s2.rAcc
  rCnt : s1.rCnt = s2.rCnt
  stopReason : s1.stopReason = s2.stopReason

/-- Two flows that go the same way, with the same response where they have ended. -/
def Flow.Alike (R : State → State → Prop) : Flow → Flow → Prop
  | .go s1, .go s2 => R s1 s2
  | .ended s1, .ended s2 => R s1 s2 ∧ s1.rsp = s2.rsp
  | .stuck f1, .stuck f2 => f1 = f2
  | _, _ => False

theorem Flow.Alike.andThen {R : State → State → Prop} {f1 f2 : Flow} {k1 k2 : State → Flow} (h : Flow.Alike R f1 f2)
    (hk : ∀ s1 s2, R s1 s2 → Flow.Alike R (k1 s1) (k2 s2)) : Flow.Alike R (f1.andThen k1) (f2.andThen k2) := by
  cases f1 <;> cases f2 <;> first | exact hk _ _ h | exact h | exact h.elim

variable {b1 b2 : List Byte} {s1 s2 : State}

theorem Alike.put (h : Alike b1 b2 s1 s2) (v : Byte) : ∃ bytes, s1.sink ++ [v] = b1 ++ bytes ∧ s2.sink ++ [v] = b2 ++ bytes := by
  obtain ⟨bytes, h1, h2⟩ := h.sink
  exact ⟨bytes ++ [v], by rw [h1, List.append_assoc], by rw [h2, List.append_assoc]⟩

/-- R62: the two pulls answer alike. -/
theorem srcNext_alike (h : s1.source.drop s1.pos = s2.source.drop s2.pos) :
    (srcNext s1 = none ∧ srcNext s2 = none) ∨
    ∃ v, srcNext s1 = some (v, { s1 with pos := s1.pos + 1 }) ∧ srcNext s2 = some (v, { s2 with pos := s2.pos + 1 }) ∧
      s1.source.drop (s1.pos + 1) = s2.source.drop (s2.pos + 1) := by
  rcases srcNext_cases s1 with ⟨h1, e1⟩ | ⟨v1, h1, -, e1⟩ <;> rcases srcNext_cases s2 with ⟨h2, e2⟩ | ⟨v2, h2, -, e2⟩
  · exact .inl ⟨e1, e2⟩
  · rw [h1, h2] at h; cases h
  · rw [h1, h2] at h; cases h
  · rw [h1, h2] at h
    obtain ⟨rfl, hr⟩ := List.cons.inj h
    exact .inr ⟨v1, e1, e2, hr⟩

/-! ### The writing side -/

theorem writeBit_alike (b : Bool) (h : WriteAlike b1 b2 s1 s2) : WriteAlike b1 b2 (writeBit b s1) (writeBit b s2) := by
  have hp := h.put ((s1.wAcc <<< 1) ||| bitByte b)
  unfold writeBit
  rw [← h.wAcc]
  have hc : s1.wCnt.val = s2.wCnt.val := by rw [h.wCnt]
  dsimp only
  split
  · rw [dif_pos (by omega)]
    exact ⟨⟨h.tree, h.fault, h.left, h.sink⟩, rfl, Fin.ext (by show s1.wCnt.val + 1 = s2.wCnt.val + 1; rw [hc])⟩
  · rw [dif_neg (by omega)]
    exact ⟨⟨h.tree, h.fault, h.left, hp⟩, rfl, rfl⟩

theorem writeBits_alike (bits : List Bool) (h : WriteAlike b1 b2 s1 s2) :
    WriteAlike b1 b2 (writeBits bits s1) (writeBits bits s2) := by
  induction bits generalizing s1 s2 with
  | nil => exact h
  | cons b bits ih => exact ih (writeBit_alike b h)

theorem flush_alike (h : WriteAlike b1 b2 s1 s2) : WriteAlike b1 b2 (flush s1) (flush s2) := by
  have hp := h.put (s1.wAcc <<< (8 - s1.wCnt.val))
  unfold flush
  rw [← h.wAcc, ← h.wCnt]
  split
  · exact h
  · exact ⟨⟨h.tree, h.fault, h.left, hp⟩, rfl, rfl⟩

theorem updateTree_writeAlike (c : Config) (sym : Symbol) (h : WriteAlike b1 b2 s1 s2) :
    Flow.Alike (WriteAlike b1 b2) (updateTree c sym s1) (updateTree c sym s2) := by
  unfold updateTree
  rw [← h.tree]
  split
  · exact ⟨⟨rfl, h.fault, h.left, h.sink⟩, h.wAcc, h.wCnt⟩
  · exact ⟨⟨⟨h.tree, rfl, h.left, h.sink⟩, h.wAcc, h.wCnt⟩, rfl⟩
  · rfl

theorem encodeSymbol_alike (c : Config) (sym : Symbol) (h : WriteAlike b1 b2 s1 s2) :
    Flow.Alike (WriteAlike b1 b2) (encodeSymbol c sym s1) (encodeSymbol c sym s2) := by
  unfold encodeSymbol
  rw [← h.tree]
  split
  · rfl
  · exact updateTree_writeAlike c sym (writeBits_alike _ h)

theorem encodeBytes_alike (c : Config) (n : Nat) (h : WriteAlike b1 b2 s1 s2) :
    Flow.Alike (WriteAlike b1 b2) (encodeBytes c n s1) (encodeBytes c n s2) := by
  induction n generalizing s1 s2 with
  | zero => exact h
  | succ n ih =>
    unfold encodeBytes
    rcases srcNext_alike h.left with ⟨e1, e2⟩ | ⟨v, e1, e2, hl⟩
    · rw [e1, e2]; exact h
    · rw [e1, e2]
      exact Flow.Alike.andThen (encodeSymbol_alike c _ ⟨⟨h.tree, h.fault, hl, h.sink⟩, h.wAcc, h.wCnt⟩)
        fun _ _ => ih

/-- R170: `ENCSTREAM` sees the bytes still to be pulled and nothing else. -/
theorem runEncstream_alike (c : Config) (hf : s1.fault = s2.fault) (hl : s1.source.drop s1.pos = s2.source.drop s2.pos) :
    Flow.Alike (WriteAlike s1.sink s2.sink) (runEncstream c () s1) (runEncstream c () s2) := by
  have h0 : WriteAlike s1.sink s2.sink (clearWrite (setTree (treeReset c) s1)) (clearWrite (setTree (treeReset c) s2)) :=
    ⟨⟨rfl, hf, hl, [], (List.append_nil _).symm, (List.append_nil _).symm⟩, rfl, rfl⟩
  have hn : bytesLeft (clearWrite (setTree (treeReset c) s1)) = bytesLeft (clearWrite (setTree (treeReset c) s2)) := by
    have := congrArg List.length hl
    rw [List.length_drop, List.length_drop] at this
    exact this
  unfold runEncstream
  dsimp only
  rw [hn]
  exact ((encodeBytes_alike c _ h0).andThen fun _ _ => encodeSymbol_alike c _).andThen fun _ _ h => by
    have := flush_alike h
    exact ⟨⟨⟨this.tree, this.fault, this.left, this.sink⟩, this.wAcc, this.wCnt⟩, rfl⟩

/-! ### The reading side -/

theorem readBit_alike (h : ReadAlike b1 b2 s1 s2) :
    (readBit s1 = none ∧ readBit s2 = none) ∨
    ∃ b t1 t2, readBit s1 = some (b, t1) ∧ readBit s2 = some (b, t2) ∧ ReadAlike b1 b2 t1 t2 := by
  unfold readBit refill
  rw [← h.rCnt]
  by_cases h0 : s1.rCnt = 0
  · rw [if_pos h0, if_pos h0]
    rcases srcNext_alike h.left with ⟨e1, e2⟩ | ⟨v, e1, e2, hl⟩
    · rw [e1, e2]; exact .inl ⟨rfl, rfl⟩
    · rw [e1, e2]
      exact .inr ⟨_, _, _, rfl, rfl, ⟨h.tree, h.fault, hl, h.sink⟩, rfl, rfl, h.stopReason⟩
  · rw [if_neg h0, if_neg h0]
    have hb : s1.rAcc.getLsbD (s1.rCnt.val - 1) = s2.rAcc.getLsbD (s2.rCnt.val - 1) := by rw [h.rAcc, h.rCnt]
    exact .inr ⟨_, _, _, rfl, congrArg some (Prod.ext hb.symm rfl), ⟨h.tree, h.fault, h.left, h.sink⟩, h.rAcc,
      Fin.ext (congrArg (fun k : Fin 9 => k.val - 1) h.rCnt), h.stopReason⟩

theorem readLiteral_alike (n lit : Nat) (h : ReadAlike b1 b2 s1 s2) :
    (readLiteral n lit s1).1 = (readLiteral n lit s2).1 ∧
      ReadAlike b1 b2 (readLiteral n lit s1).2 (readLiteral n lit s2).2 := by
  induction n generalizing lit s1 s2 with
  | zero => exact ⟨rfl, h⟩
  | succ n ih =>
    unfold readLiteral
    rcases readBit_alike h with ⟨e1, e2⟩ | ⟨b, t1, t2, e1, e2, ht⟩
    · rw [e1, e2]; exact ⟨rfl, h⟩
    · rw [e1, e2]; exact ih _ ht

theorem stopDecoding_alike (r : StopReason) (h : ReadAlike b1 b2 s1 s2) :
    Flow.Alike (ReadAlike b1 b2) (.ended (stopDecoding r s1)) (.ended (stopDecoding r s2)) :=
  ⟨⟨⟨h.tree, h.fault, h.left, h.sink⟩, h.rAcc, h.rCnt, rfl⟩, rfl⟩

theorem raiseFault_alike (code : FaultCode) (h : ReadAlike b1 b2 s1 s2) :
    Flow.Alike (ReadAlike b1 b2) (.ended (raiseFault code s1)) (.ended (raiseFault code s2)) :=
  ⟨⟨⟨h.tree, rfl, h.left, h.sink⟩, h.rAcc, h.rCnt, h.stopReason⟩, rfl⟩

theorem emitSymbol_alike (c : Config) (sym : Symbol) (h : ReadAlike b1 b2 s1 s2) :
    Flow.Alike (ReadAlike b1 b2) (emitSymbol c sym s1) (emitSymbol c sym s2) := by
  unfold emitSymbol
  split
  · exact stopDecoding_alike _ h
  · have h1 : ReadAlike b1 b2 (sinkPut (BitVec.ofNat 8 sym.val) s1) (sinkPut (BitVec.ofNat 8 sym.val) s2) :=
      ⟨⟨h.tree, h.fault, h.left, h.put _⟩, h.rAcc, h.rCnt, h.stopReason⟩
    unfold updateTree
    rw [← h1.tree]
    split
    · exact ⟨⟨rfl, h1.fault, h1.left, h1.sink⟩, h1.rAcc, h1.rCnt, h1.stopReason⟩
    · exact raiseFault_alike _ h1
    · rfl

/-- Two resolutions of one leaf that go the same way. -/
def Resolved.Alike (R : State → State → Prop) : Resolved → Resolved → Prop
  | .symbol y1 s1, .symbol y2 s2 => y1 = y2 ∧ R s1 s2
  | .ended s1, .ended s2 => Flow.Alike R (.ended s1) (.ended s2)
  | .stuck f1, .stuck f2 => f1 = f2
  | _, _ => False

theorem resolveLeaf_alike (dcur : Nat) (n : Node) (h : ReadAlike b1 b2 s1 s2) :
    Resolved.Alike (ReadAlike b1 b2) (resolveLeaf dcur n s1) (resolveLeaf dcur n s2) := by
  unfold resolveLeaf
  rw [← h.tree]
  obtain ⟨hv, hs⟩ := readLiteral_alike 9 0 h
  by_cases hd : dcur = s1.tree.nyt
  · rw [if_pos hd, if_pos hd]
    rcases e1 : readLiteral 9 0 s1 with ⟨v1, t1⟩
    rcases e2 : readLiteral 9 0 s2 with ⟨v2, t2⟩
    rw [e1, e2] at hv hs
    obtain rfl : v1 = v2 := hv
    cases v1 with
    | none => exact stopDecoding_alike _ hs
    | some lit =>
      dsimp only
      by_cases hlt : lit < 257
      · rw [dif_pos hlt, dif_pos hlt]; exact ⟨rfl, hs⟩
      · rw [dif_neg hlt, dif_neg hlt]; exact raiseFault_alike _ hs
  · rw [if_neg hd, if_neg hd]
    cases n.symbol with
    | none => rfl
    | some sym => exact ⟨rfl, h⟩

theorem decodeLoop_alike (c : Config) (fuel dcur : Nat) (h : ReadAlike b1 b2 s1 s2) :
    Flow.Alike (ReadAlike b1 b2) (decodeLoop c fuel dcur s1) (decodeLoop c fuel dcur s2) := by
  induction fuel generalizing dcur s1 s2 with
  | zero => rfl
  | succ fuel ih =>
    unfold decodeLoop
    rw [← h.tree]
    cases nodeAt s1.tree dcur with
    | error f => rfl
    | ok n =>
      dsimp only
      by_cases hl : n.left = none
      · rw [if_pos hl, if_pos hl]
        have hr := resolveLeaf_alike dcur n h
        cases e1 : resolveLeaf dcur n s1 <;> cases e2 : resolveLeaf dcur n s2 <;> rw [e1, e2] at hr <;>
          first | exact hr.elim | skip
        · obtain ⟨rfl, ht⟩ := hr
          exact (emitSymbol_alike c _ ht).andThen fun t1 t2 ht => by rw [ht.tree]; exact ih _ ht
        · exact hr
        · exact hr
      · rw [if_neg hl, if_neg hl]
        rcases readBit_alike h with ⟨e1, e2⟩ | ⟨b, t1, t2, e1, e2, ht⟩
        · rw [e1, e2]; exact stopDecoding_alike _ h
        · rw [e1, e2]
          dsimp only
          rw [ht.tree]
          cases childOf t2.tree dcur b with
          | error f => rfl
          | ok d => exact ih d ht

/-- R170: `DECSTREAM` sees the bytes still to be pulled and nothing else. -/
theorem runDecstream_alike (c : Config) (hf : s1.fault = s2.fault) (hl : s1.source.drop s1.pos = s2.source.drop s2.pos) :
    Flow.Alike (ReadAlike s1.sink s2.sink) (runDecstream c () s1) (runDecstream c () s2) := by
  have hn := congrArg List.length hl
  rw [List.length_drop, List.length_drop] at hn
  have hfuel : decodeFuel { clearRead (setTree (treeReset c) s1) with stopReason := .none } =
      decodeFuel { clearRead (setTree (treeReset c) s2) with stopReason := .none } := by
    show 2 * (0 + 8 * (s1.source.length - s1.pos)) + 2 = 2 * (0 + 8 * (s2.source.length - s2.pos)) + 2
    rw [hn]
  unfold runDecstream
  dsimp only
  rw [hfuel]
  exact decodeLoop_alike c _ _ ⟨⟨rfl, hf, hl, [], (List.append_nil _).symm, (List.append_nil _).symm⟩, rfl, rfl, rfl⟩

end Sys2Proof.Machine
end

