-- ==== Sys2Proof/Laws/Shift.lean ====
section
/-! SUPPORT. Orders are only compared with each other (44_invariants_and_properties.md R203): every operation of the tree does the
same on two trees that differ by a constant in all orders. -/

namespace Sys2Proof.Machine

open Sys2Proof

variable {c c' : Config} {d : Nat} {t t' : CodeTree}

/-- A node with its order shifted. -/
def shiftNode (d : Nat) (n : Node) : Node := { n with order := n.order + d }

/-- `t'` is `t` with every order shifted by `d`. -/
structure Shifted (d : Nat) (t t' : CodeTree) : Prop where
  nodes : t'.nodes = t.nodes.map (shiftNode d)
  root : t'.root = t.root
  nyt : t'.nyt = t.nyt
  sym2leaf : t'.sym2leaf = t.sym2leaf
  nextOrder : t'.nextOrder = t.nextOrder + d
  ord2node : ∀ o : Nat, t'.ord2node[o + d]? = t.ord2node[o]?

theorem shifted_fresh (hc : c.Valid) (h : c'.orderMax = c.orderMax + d) (hcap : c'.nodeCap = c.nodeCap + d) :
    Shifted d (CodeTree.fresh c) (CodeTree.fresh c') where
  nodes := by simp [CodeTree.fresh, shiftNode, h]
  root := rfl
  nyt := rfl
  sym2leaf := rfl
  nextOrder := by show (c'.orderMax : Int) - 1 = (c.orderMax : Int) - 1 + d; omega
  ord2node o := by
    have h3 := hc.2.1
    have ho : c.orderMax < c.nodeCap := by unfold Config.orderMax; omega
    show ((List.replicate c'.nodeCap none).set c'.orderMax (some 0))[o + d]? =
      ((List.replicate c.nodeCap none).set c.orderMax (some 0))[o]?
    rw [List.getElem?_set, List.getElem?_set, List.length_replicate, List.length_replicate,
      List.getElem?_replicate, List.getElem?_replicate, h, hcap]
    by_cases h1 : c.orderMax = o
    · subst h1
      rw [if_pos rfl, if_pos rfl, if_pos (by omega), if_pos ho]
    · rw [if_neg (by omega), if_neg h1]
      by_cases h2 : o < c.nodeCap
      · rw [if_pos (by omega), if_pos h2]
      · rw [if_neg (by omega), if_neg h2]

theorem Shifted.nLive (S : Shifted d t t') : t'.nLive = t.nLive := by
  simp [CodeTree.nLive, S.nodes]

theorem Shifted.nodeAt (S : Shifted d t t') (i : Nat) :
    Machine.nodeAt t' i = (Machine.nodeAt t i).map (shiftNode d) := by
  unfold Machine.nodeAt
  rw [S.nodes, List.getElem?_map]
  cases t.nodes[i]? <;> rfl

theorem Shifted.nodeAt_ok (S : Shifted d t t') {i : Nat} {n n' : Node} (h : Machine.nodeAt t i = .ok n)
    (h' : Machine.nodeAt t' i = .ok n') : n' = shiftNode d n := by
  rw [S.nodeAt, h] at h'
  cases h'; rfl

/-- A write of fields other than the order, the same on both. -/
theorem Shifted.modify (S : Shifted d t t') (i : Nat) {f f' : Node → Node}
    (hf : ∀ n, f' (shiftNode d n) = shiftNode d (f n)) : Shifted d (t.modify i f) (t'.modify i f') where
  nodes := by
    show t'.nodes.modify i f' = (t.nodes.modify i f).map (shiftNode d)
    rw [S.nodes]
    apply List.ext_getElem?
    intro j
    simp only [List.getElem?_modify, List.getElem?_map]
    cases t.nodes[j]? with
    | none => rfl
    | some n => by_cases h : i = j <;> simp [h, hf]
  root := S.root
  nyt := S.nyt
  sym2leaf := S.sym2leaf
  nextOrder := S.nextOrder
  ord2node := S.ord2node

theorem getElem?_set_shift {l l' : List (Option Nat)} (h : ∀ o : Nat, l'[o + d]? = l[o]?) (k : Nat) (v : Option Nat) (o : Nat) :
    (l'.set (k + d) v)[o + d]? = (l.set k v)[o]? := by
  have hl : k + d < l'.length ↔ k < l.length := by
    have := h k
    constructor
    · intro h1
      by_contra h2
      rw [List.getElem?_eq_getElem h1, List.getElem?_eq_none (by omega)] at this
      cases this
    · intro h1
      by_contra h2
      rw [List.getElem?_eq_getElem h1, List.getElem?_eq_none (by omega)] at this
      cases this
  rw [List.getElem?_set, List.getElem?_set, h]
  by_cases h1 : k = o
  · subst h1
    simp only [if_true, hl]
  · rw [if_neg (by omega), if_neg h1]

theorem Shifted.alloc (S : Shifted d t t') (w : Nat) (s : Option Symbol) (p : Option Nat) (hn : 0 ≤ t.nextOrder) :
    (allocNode w s p t').1 = (allocNode w s p t).1 ∧ Shifted d (allocNode w s p t).2 (allocNode w s p t').2 := by
  have ho : t'.nextOrder.toNat = t.nextOrder.toNat + d := by rw [S.nextOrder]; omega
  refine ⟨S.nLive, ?_, S.root, S.nyt, S.sym2leaf, ?_, ?_⟩
  · show t'.nodes ++ [_] = (t.nodes ++ [_]).map _
    rw [List.map_append, ← S.nodes, ho]; rfl
  · show t'.nextOrder - 1 = t.nextOrder - 1 + d
    rw [S.nextOrder]; omega
  · intro o
    show (t'.ord2node.set t'.nextOrder.toNat (some t'.nLive))[o + d]? =
      (t.ord2node.set t.nextOrder.toNat (some t.nLive))[o]?
    rw [ho, S.nLive]
    exact getElem?_set_shift S.ord2node _ _ o

theorem leaderScan_shift (w : Nat) (l : List Node) (k best o : Nat) :
    leaderScan w (l.map (shiftNode d)) k best (o + d) = leaderScan w l k best o := by
  induction l generalizing k best o with
  | nil => rfl
  | cons n l ih =>
    simp only [List.map_cons, leaderScan]
    have e : ((shiftNode d n).weight = w ∧ (shiftNode d n).order > o + d) ↔ (n.weight = w ∧ n.order > o) := by
      simp only [shiftNode]; omega
    by_cases h : n.weight = w ∧ n.order > o
    · rw [if_pos (e.2 h), if_pos h]; exact ih _ _ _
    · rw [if_neg (mt e.1 h), if_neg h]; exact ih _ _ _

/-- R112, R203: the leader is the same node. -/
theorem Shifted.leader (S : Shifted d t t') (i : Nat) : Machine.leader t' i = Machine.leader t i := by
  unfold Machine.leader
  rw [S.nodeAt]
  cases Machine.nodeAt t i with
  | error e => rfl
  | ok n =>
    show Except.ok _ = Except.ok _
    rw [S.nodes]
    exact congrArg _ (leaderScan_shift n.weight t.nodes 0 i n.order)

theorem Shifted.sideOf (S : Shifted d t t') (i p : Nat) : Machine.sideOf t' i p = Machine.sideOf t i p := by
  unfold Machine.sideOf
  rw [S.nodeAt]
  cases Machine.nodeAt t p <;> rfl

/-- R103, R203: paths do not depend on the orders, nor on the bound of the loop where it suffices. -/
theorem Shifted.sidesUp (S : Shifted d t t') (f f' : Nat) {i : Nat} {a a' : List Bool} (h : Machine.sidesUp t f i = .ok a)
    (h' : Machine.sidesUp t' f' i = .ok a') : a' = a := by
  induction f generalizing i f' a a' with
  | zero =>
    unfold Machine.sidesUp at h h'
    rw [S.nodeAt] at h'
    obtain ⟨n, hn, h⟩ := bind_eq_ok.1 h
    rw [hn] at h'
    cases hp : n.parent with
    | none =>
      simp only [hp] at h
      simp only [Except.map, ok_bind, shiftNode, hp] at h'
      cases h; cases h'; rfl
    | some p => simp only [hp] at h; cases h
  | succ f ih =>
    unfold Machine.sidesUp at h h'
    rw [S.nodeAt] at h'
    obtain ⟨n, hn, h⟩ := bind_eq_ok.1 h
    rw [hn] at h'
    simp only [Except.map, ok_bind, shiftNode] at h'
    cases hp : n.parent with
    | none =>
      simp only [hp] at h h'
      cases h; cases h'; rfl
    | some p =>
      simp only [hp] at h h'
      cases f' with
      | zero => cases h'
      | succ f' =>
        obtain ⟨b, hb, h⟩ := bind_eq_ok.1 h
        obtain ⟨rest, hr, h⟩ := bind_eq_ok.1 h
        obtain ⟨b', hb', h'⟩ := bind_eq_ok.1 h'
        obtain ⟨rest', hr', h'⟩ := bind_eq_ok.1 h'
        rw [S.sideOf, hb] at hb'
        cases hb'; cases h; cases h'
        rw [ih f' hr hr']

theorem Shifted.pathOf (S : Shifted d t t') {i : Nat} {a a' : List Bool} (h : Machine.pathOf c t i = .ok a)
    (h' : Machine.pathOf c' t' i = .ok a') : a' = a := by
  unfold Machine.pathOf at h h'
  obtain ⟨s, hs, h⟩ := bind_eq_ok.1 h
  obtain ⟨s', hs', h'⟩ := bind_eq_ok.1 h'
  cases h; cases h'
  rw [S.sidesUp _ _ hs hs']

theorem Shifted.rebind (S : Shifted d t t') (s : Option Symbol) (i : Nat) :
    Shifted d (Machine.rebind s i t) (Machine.rebind s i t') := by
  cases s with
  | none => exact S
  | some s => exact ⟨S.nodes, S.root, S.nyt, by simp [Machine.rebind, S.sym2leaf], S.nextOrder, S.ord2node⟩

theorem shift_setChild (b : Bool) (i : Nat) (n : Node) : setChild b i (shiftNode d n) = shiftNode d (setChild b i n) := by
  cases b <;> rfl

theorem Shifted.swap (S : Shifted d t t') {p q : Nat} {t1 t1' : CodeTree} (h : Machine.swap c t p q = .ok t1)
    (h' : Machine.swap c' t' p q = .ok t1') : Shifted d t1 t1' := by
  unfold Machine.swap at h h'
  obtain ⟨np, hnp, h⟩ := bind_eq_ok.1 h
  obtain ⟨nq, hnq, h⟩ := bind_eq_ok.1 h
  obtain ⟨np', hnp', h'⟩ := bind_eq_ok.1 h'
  obtain ⟨nq', hnq', h'⟩ := bind_eq_ok.1 h'
  cases S.nodeAt_ok hnp hnp'
  cases S.nodeAt_ok hnq hnq'
  cases hpp : np.parent with
  | none => simp only [hpp] at h; cases h
  | some pp =>
    cases hqp : nq.parent with
    | none => simp only [hpp, hqp] at h; cases h
    | some qp =>
      simp only [hpp, hqp, shiftNode] at h h'
      obtain ⟨ap, -, h⟩ := bind_eq_ok.1 h
      obtain ⟨aq, -, h⟩ := bind_eq_ok.1 h
      obtain ⟨ap', -, h'⟩ := bind_eq_ok.1 h'
      obtain ⟨aq', -, h'⟩ := bind_eq_ok.1 h'
      split at h
      · cases h
      split at h'
      · cases h'
      obtain ⟨ps, hps, h⟩ := bind_eq_ok.1 h
      obtain ⟨qs, hqs, h⟩ := bind_eq_ok.1 h
      obtain ⟨ps', hps', h'⟩ := bind_eq_ok.1 h'
      obtain ⟨qs', hqs', h'⟩ := bind_eq_ok.1 h'
      rw [S.sideOf, hps] at hps'
      rw [S.sideOf, hqs] at hqs'
      cases hps'; cases hqs'; cases h; cases h'
      exact (((((S.rebind np.symbol p).rebind nq.symbol q).modify pp (shift_setChild ps q)).modify qp
        (shift_setChild qs p)).modify p (f := setParent qp) (f' := setParent qp) fun _ => rfl).modify q
        (f := setParent pp) (f' := setParent pp) fun _ => rfl

theorem Shifted.exchange (S : Shifted d t t') {p q : Nat} {t1 t1' : CodeTree} (h : exchangeOrders t p q = .ok t1)
    (h' : exchangeOrders t' p q = .ok t1') : Shifted d t1 t1' := by
  unfold exchangeOrders at h h'
  obtain ⟨np, hnp, h⟩ := bind_eq_ok.1 h
  obtain ⟨nq, hnq, h⟩ := bind_eq_ok.1 h
  obtain ⟨np', hnp', h'⟩ := bind_eq_ok.1 h'
  obtain ⟨nq', hnq', h'⟩ := bind_eq_ok.1 h'
  cases S.nodeAt_ok hnp hnp'
  cases S.nodeAt_ok hnq hnq'
  cases h; cases h'
  have M := (S.modify p (f := setOrder nq.order) (f' := setOrder (nq.order + d)) fun _ => rfl).modify q
    (f := setOrder np.order) (f' := setOrder (np.order + d)) fun _ => rfl
  refine ⟨M.nodes, M.root, M.nyt, M.sym2leaf, M.nextOrder, fun o => ?_⟩
  exact getElem?_set_shift (getElem?_set_shift S.ord2node _ _) _ _ o

theorem Shifted.rebalance (S : Shifted d t t') {cur : Nat} {t1 t1' : CodeTree} (h : Machine.rebalance c t cur = .ok t1)
    (h' : Machine.rebalance c' t' cur = .ok t1') : Shifted d t1 t1' := by
  unfold Machine.rebalance at h h'
  rw [S.leader] at h'
  obtain ⟨q, hq, h⟩ := bind_eq_ok.1 h
  obtain ⟨q', hq', h'⟩ := bind_eq_ok.1 h'
  rw [hq] at hq'; cases hq'
  obtain ⟨np, hnp, h⟩ := bind_eq_ok.1 h
  obtain ⟨nq, hnq, h⟩ := bind_eq_ok.1 h
  obtain ⟨np', hnp', h'⟩ := bind_eq_ok.1 h'
  obtain ⟨nq', hnq', h'⟩ := bind_eq_ok.1 h'
  cases S.nodeAt_ok hnp hnp'
  cases S.nodeAt_ok hnq hnq'
  by_cases hg : q ≠ cur ∧ np.parent ≠ some q ∧ nq.parent ≠ some cur
  · have hg' : q ≠ cur ∧ (shiftNode d np).parent ≠ some q ∧ (shiftNode d nq).parent ≠ some cur := hg
    rw [if_pos hg] at h
    rw [if_pos hg'] at h'
    obtain ⟨a, ha, h⟩ := bind_eq_ok.1 h
    obtain ⟨a', ha', h'⟩ := bind_eq_ok.1 h'
    exact (S.swap ha ha').exchange h h'
  · have hg' : ¬ (q ≠ cur ∧ (shiftNode d np).parent ≠ some q ∧ (shiftNode d nq).parent ≠ some cur) := hg
    rw [if_neg hg] at h
    rw [if_neg hg'] at h'
    cases h; cases h'
    exact S

theorem Shifted.walk (S : Shifted d t t') (f f' : Nat) {cur : Nat} {t1 t1' : CodeTree} (h : Machine.walk c f t cur = .ok t1)
    (h' : Machine.walk c' f' t' cur = .ok t1') : Shifted d t1 t1' := by
  induction f generalizing f' t t' cur with
  | zero => cases h
  | succ f ih =>
    cases f' with
    | zero => cases h'
    | succ f' =>
      unfold Machine.walk at h h'
      obtain ⟨a, ha, h⟩ := bind_eq_ok.1 h
      obtain ⟨a', ha', h'⟩ := bind_eq_ok.1 h'
      have B : Shifted d (bump a cur) (bump a' cur) := (S.rebalance ha ha').modify cur fun _ => rfl
      obtain ⟨n, hn, h⟩ := bind_eq_ok.1 h
      obtain ⟨n', hn', h'⟩ := bind_eq_ok.1 h'
      cases B.nodeAt_ok hn hn'
      cases hp : n.parent with
      | none =>
        simp only [hp] at h
        simp only [shiftNode, hp] at h'
        cases h; cases h'
        exact B
      | some p =>
        simp only [hp] at h
        simp only [shiftNode, hp] at h'
        exact ih B f' h h'

theorem orStuck_eq_ok {α : Type} {x : Except Fault α} {a : α} : orStuck x = .ok a ↔ x = .ok a := by
  cases x <;> simp [orStuck]

theorem Shifted.split (S : Shifted d t t') {s : Symbol} {x x' : Nat} {t1 t1' : CodeTree} (h : Machine.split t s = .ok (x, t1))
    (h' : Machine.split t' s = .ok (x', t1')) : x' = x ∧ Shifted d t1 t1' := by
  unfold Machine.split at h h'
  split at h
  · cases h
  next hn =>
  split at h'
  · cases h'
  obtain ⟨n, hn1, h⟩ := bind_eq_ok.1 h
  obtain ⟨n', hn1', h'⟩ := bind_eq_ok.1 h'
  obtain ⟨i1, S1⟩ := S.alloc 1 (some s) (some t.nyt) (by omega)
  obtain ⟨i2, S2⟩ := S1.alloc 0 none (some t.nyt) (by show 0 ≤ t.nextOrder - 1; omega)
  rw [S.nyt] at h'
  simp only at h h'
  cases h
  rw [i1] at h'
  cases h'
  refine ⟨rfl, ?_⟩
  have M := S2.modify t.nyt (f := setChildren (allocNode 0 none (some t.nyt) (allocNode 1 (some s) (some t.nyt) t).2).1
    (allocNode 1 (some s) (some t.nyt) t).1) (f' := setChildren (allocNode 0 none (some t.nyt)
    (allocNode 1 (some s) (some t.nyt) t').2).1 (allocNode 1 (some s) (some t.nyt) t).1) fun n => by rw [i2]; rfl
  exact ⟨M.nodes, M.root, i2,
    congrArg (fun v : Vector (Option Nat) 257 => v.set s.val (some t.nLive) s.isLt) S.sym2leaf, M.nextOrder, M.ord2node⟩

/-- R203: a completed update keeps the shift. -/
theorem Shifted.update (S : Shifted d t t') {s : Symbol} {t1 t1' : CodeTree}
    (h : Machine.update c t s = .ok t1) (h' : Machine.update c' t' s = .ok t1') : Shifted d t1 t1' := by
  unfold Machine.update at h h'
  obtain ⟨r, -, h⟩ := bind_eq_ok.1 h
  obtain ⟨r', -, h'⟩ := bind_eq_ok.1 h'
  split at h
  · cases h
  split at h'
  · cases h'
  obtain ⟨⟨cur, a⟩, ha, h⟩ := bind_eq_ok.1 h
  obtain ⟨⟨cur', a'⟩, ha', h'⟩ := bind_eq_ok.1 h'
  have hstart : cur' = cur ∧ Shifted d a a' := by
    unfold walkStart at ha ha'
    rw [S.sym2leaf] at ha'
    cases hs : t.sym2leaf[s.val] with
    | none => rw [hs] at ha ha'; exact S.split ha ha'
    | some l => rw [hs] at ha ha'; cases ha; cases ha'; exact ⟨rfl, S⟩
  obtain ⟨rfl, A⟩ := hstart
  exact A.walk _ _ (orStuck_eq_ok.1 h) (orStuck_eq_ok.1 h')

/-- R203: the same code bits. -/
theorem Shifted.codeBits (S : Shifted d t t') {s : Symbol} {a a' : List Bool} (h : Machine.codeBits c t s = .ok a)
    (h' : Machine.codeBits c' t' s = .ok a') : a' = a := by
  unfold Machine.codeBits at h h'
  rw [S.sym2leaf] at h'
  cases hs : t.sym2leaf[s.val] with
  | some leaf => rw [hs] at h h'; exact S.pathOf h h'
  | none =>
    rw [hs] at h h'
    rw [S.nyt] at h'
    obtain ⟨p, hp, h⟩ := bind_eq_ok.1 h
    obtain ⟨p', hp', h'⟩ := bind_eq_ok.1 h'
    cases h; cases h'
    rw [S.pathOf hp hp']

end Sys2Proof.Machine
end

