-- ==== Sys2Proof/Tests/Slice0.lean ====
section
/-! SUPPORT. Tests. The expected values are the spec's: 30_encoding.md R92 for the words, 95_test_vectors.md for the steps (the vector's
name stands at each). After them a witness for every obligation that has hypotheses: concrete states and operands that meet them,
clause by clause, at boundary values. -/

namespace Sys2Proof.Tests

set_option Elab.async false

open Sys2Proof Sys2Proof.Machine

/-! ### Decoding: words written out bit by bit from R80 and R83 -/

theorem test_decode_treset : decode 0b0001_00_0000000000#16 = .ok .treset := by decide
theorem test_decode_pathof : decode 0b0010_00_0000000100#16 = .ok (.pathof 4) := by decide
theorem test_decode_update : decode 0b0011_00_0001000001#16 = .ok (.update 65) := by decide
theorem test_decode_wrbit : decode 0b0100_00_0000000001#16 = .ok (.wrbit 1) := by decide
theorem test_decode_wflush : decode 0b0101_00_0000000000#16 = .ok .wflush := by decide
theorem test_decode_rdbit : decode 0b0110_00_0000000000#16 = .ok .rdbit := by decide
theorem test_decode_encode : decode 0b0111_00_0001000010#16 = .ok (.encode 66) := by decide
theorem test_decode_encstream : decode 0b1000_00_0000000000#16 = .ok .encstream := by decide
theorem test_decode_decstream : decode 0b1001_00_0000000000#16 = .ok .decstream := by decide
/-- R83: the operand's highest bit. -/
theorem test_decode_high_bit : decode 0b0111_00_1000000000#16 = .ok (.encode 512) := by decide
/-- V4, V5, V6 (R86). -/
theorem test_decode_illegal : decode 0x0000 = .error .illegalOpcode ∧ decode 0xA000 = .error .illegalOpcode ∧
    decode 0xFFFF = .error .illegalOpcode := by decide
/-- V7, V8, V14 (R85, R87): the reserved bits one by one, and `ARG` of a command without an operand. -/
theorem test_decode_reserved : decode 0b0001_01_0000000000#16 = .error .reservedNonzero ∧
    decode 0b0010_10_0000000100#16 = .error .reservedNonzero ∧ decode 0x7C41 = .error .reservedNonzero ∧
    decode 0b0101_00_0000000001#16 = .error .reservedNonzero := by decide
/-- R92: the word of a command. -/
theorem test_encode : encode (.update 256) = 0x3100 ∧ encode .rdbit = 0x6000 := by decide
theorem test_decodeTableWord : decodeTableWord 16 0x9000 = some .decstream ∧ decodeTableWord 16 0x9400 = none := by decide

/-! ### Well-formedness (R84): each check refuses an ill-formed term and admits its neighbour -/

theorem test_illFormed_update : (Instr.update 257).wellFormed = false ∧ (Instr.update 256).wellFormed = true := by decide
theorem test_illFormed_encode : (Instr.encode 257).wellFormed = false ∧ (Instr.encode 256).wellFormed = true := by decide
theorem test_illFormed_wrbit : (Instr.wrbit 2).wellFormed = false ∧ (Instr.wrbit 1).wellFormed = true := by decide

/-! ### One step -/

/-- The state after the next step runs the word `w`. -/
def after (w : Nat) (s : State) : Option State :=
  match step (s.withFetchWord 16 w) with
  | .next t => some t
  | .fault _ => none
  | .refused _ => none

/-- The state after `w`, seen through `f`. -/
def look {α : Type} (w : Nat) (s : State) (f : State → α) : Option α := (after w s).map f

/-- The tree that updates of these symbols make of the reset tree. -/
def grown (syms : List Symbol) : CodeTree :=
  match syms.foldlM (fun t sym => update Config.ahte t sym) (CodeTree.fresh Config.ahte) with
  | .ok t => t
  | .error _ => CodeTree.fresh Config.ahte

/-- The engine after reset but for the tree. -/
def onTree (t : CodeTree) : State := { State.reset with tree := t }

/-- The engine after reset with a source. -/
def onSource (bytes : List Byte) : State := { State.reset with source := bytes }

/-- A row of a tree listing: weight, symbol, order, parent, left, right. -/
def row (w : Nat) (sym : Option Symbol) (o : Nat) (p l r : Option Nat) : Node :=
  { weight := w, symbol := sym, order := o, parent := p, left := l, right := r }

/-- V19 with V17's tree: the tree is reset, the write side is not. -/
theorem test_treset : look 0x1000 { onTree (grown [65, 65, 256]) with wAcc := 5, wCnt := 3 }
    (fun t => (t.tree, t.wAcc, t.wCnt, t.rsp)) = some (CodeTree.fresh Config.ahte, 5, 3, 0x0000) := by decide +kernel

/-- V18: the path of node 3 on V17's tree. -/
theorem test_pathof : look 0x2003 (onTree (grown [65, 65, 256]))
    (fun t => (t.pathLen, t.pathBits.take 3, t.rsp)) = some (2, [false, true, false], 0x0002) := by decide +kernel
/-- V18: node 5 is not live; the path registers keep what they held. -/
theorem test_pathof_refused : look 0x2005 { onTree (grown [65, 65, 256]) with pathLen := 2 }
    (fun t => (t.pathLen, t.rsp)) = some (2, 0x2003) := by decide +kernel

/-- V17: a new symbol, no exchange. -/
theorem test_update_new : look 0x3100 (onTree (grown [65, 65]))
    (fun t => (t.tree.nodes, t.tree.nyt, t.tree.nextOrder, t.tree.sym2leaf[256])) =
  some ([row 3 none 512 none (some 2) (some 1), row 2 (some 65) 511 (some 0) none none,
    row 1 none 510 (some 0) (some 4) (some 3), row 1 (some 256) 509 (some 2) none none,
    row 0 none 508 (some 2) none none], 4, 507, some 3) := by decide +kernel
/-- 95_test_vectors.md section 3.3, the third update: a bound symbol whose leaf overtakes another. -/
theorem test_update_exchange : look 0x3042 (onTree (grown [65, 66]))
    (fun t => (t.tree.nodes.take 4, (t.tree.sym2leaf[65], t.tree.sym2leaf[66]), t.tree.ord2node[509]?, t.tree.ord2node[511]?)) =
  some ([row 3 none 512 none (some 2) (some 3), row 1 (some 65) 509 (some 2) none none,
    row 1 none 510 (some 0) (some 4) (some 1), row 2 (some 66) 511 (some 0) none none],
    (some 1, some 3), some (some 1), some (some 3)) := by decide +kernel

/-- V25: the eighth bit puts the byte. -/
theorem test_wrbit_eighth : look 0x4000 { State.reset with wAcc := 0x65, wCnt := 7 }
    (fun t => (t.sink, t.wAcc, t.wCnt, t.rsp)) = some ([0xCA], 0, 0, 0x0000) := by decide +kernel
/-- V10. -/
theorem test_wrbit_refused : look 0x4002 State.reset (fun t => (t.wCnt, t.rsp)) = some (0, 0x2003) := by decide +kernel

/-- V22, V23: three bits pending; none pending. -/
theorem test_wflush : look 0x5000 { State.reset with wAcc := 5, wCnt := 3 } (fun t => (t.sink, t.wAcc, t.wCnt)) =
    some ([0xA0], 0, 0) ∧ look 0x5000 State.reset (fun t => t.sink) = some [] := by decide +kernel

/-- V29, V30: the first bit of a byte; the end of the input. -/
theorem test_rdbit : look 0x6000 (onSource [0xA5]) (fun t => (t.rsp, t.rAcc, t.rCnt, t.pos)) = some (0x0001, 0xA5, 7, 1) ∧
    look 0x6000 State.reset (fun t => (t.rsp, t.rCnt, t.pos)) = some (0x1000, 0, 0) := by decide +kernel

/-- V33, first and second `ENCODE 'A'`. -/
theorem test_encode_new : look 0x7041 State.reset (fun t => (t.sink, t.wAcc, t.wCnt, t.tree)) =
    some ([0x20], 0x01, 1, grown [65]) := by decide +kernel
theorem test_encode_bound : look 0x7041 { onTree (grown [65]) with wAcc := 1, wCnt := 1 }
    (fun t => (t.sink, t.wAcc, t.wCnt, t.tree)) = some ([], 0x03, 2, grown [65, 65]) := by decide +kernel

/-- P1: the stream of "AAAAB". -/
theorem test_encstream : look 0x8000 (onSource [0x41, 0x41, 0x41, 0x41, 0x42])
    (fun t => (t.sink, t.pos, t.rsp, t.wCnt, t.tree.nLive)) =
      some ([0x20, 0xF1, 0x08, 0x80, 0x00], 5, 0x0000, 0, 7) := by decide +kernel
/-- V20: the empty source. -/
theorem test_encstream_empty : look 0x8000 State.reset (fun t => (t.sink, t.rsp)) = some ([0x80, 0x00], 0x0000) := by
  decide +kernel

/-- V39: the stream of P1 with two more bytes, which are never pulled. -/
theorem test_decstream : look 0x9000 (onSource [0x20, 0xF1, 0x08, 0x80, 0x00, 0xFF, 0xAA])
    (fun t => (t.sink, (t.stopReason, t.rsp), (t.rAcc, t.rCnt), t.pos, t.tree.nLive)) =
      some ([0x41, 0x41, 0x41, 0x41, 0x42], (.eot, 0x0001), (0x00, 7), 5, 5) := by decide +kernel
/-- V40: the literal 257. -/
theorem test_decstream_bad_literal : look 0x9000 (onSource [0x80, 0x80])
    (fun t => (t.sink, (t.stopReason, t.rsp), (t.fault, t.faultCode), t.rCnt, t.pos)) =
      some ([], (.none, 0x3002), (true, .badLiteral), 7, 2) := by decide +kernel

/-- V41: the latched fault is tested before the opcode. -/
theorem test_fault_latched : look 0x0000 { State.reset with fault := true, faultCode := .badLiteral }
    (fun t => (t.rsp, t.fault, t.faultCode)) = some (0x2004, true, .badLiteral) := by decide +kernel

/-- V19a, on the instance with two bits of weight: the fourth update finds the root's weight at 3. -/
theorem test_weight_overflow :
    ([65, 65, 65].foldlM (fun t sym => update { nodeCap := 513, weightBits := 2 } t sym) (CodeTree.fresh Config.ahte)).bind
      (fun t => update { nodeCap := 513, weightBits := 2 } t 66) = .error (.raise .weightOverflow) := by decide +kernel

/-! ### What the witnesses are made of -/

theorem foldlM_update_inv {c : Config} (hc : c.Valid) (syms : List Symbol) {t t' : CodeTree} (inv : TreeInv c t)
    (h : syms.foldlM (fun t sym => update c t sym) t = .ok t') : TreeInv c t' := by
  induction syms generalizing t with
  | nil => cases h; exact inv
  | cons sym syms ih =>
    rw [List.foldlM_cons] at h
    cases hu : update c t sym with
    | error e => rw [hu] at h; cases h
    | ok t1 => rw [hu] at h; exact ih (update_inv hc inv hu).inv h

theorem grown_inv (syms : List Symbol) : TreeInv Config.ahte (grown syms) := by
  unfold grown
  split
  · next h => exact foldlM_update_inv ahteValid syms (fresh_inv ahteValid) h
  · exact fresh_inv ahteValid

theorem reset_tree_inv : TreeInv Config.ahte State.reset.tree := fresh_inv ahteValid

/-- A tree with every weight multiplied. -/
def heavier (k : Nat) (t : CodeTree) : CodeTree := { t with nodes := t.nodes.map fun n => { n with weight := k * n.weight } }

theorem heavier_N (k : Nat) (t : CodeTree) (i : Nat) : (heavier k t).N i = { t.N i with weight := k * (t.N i).weight } := by
  unfold CodeTree.N heavier
  rw [List.getD_eq_getElem?_getD, List.getD_eq_getElem?_getD, List.getElem?_map]
  cases t.nodes[i]? <;> rfl

theorem heavier_nLive (k : Nat) (t : CodeTree) : (heavier k t).nLive = t.nLive := List.length_map ..

/-- Multiplying every weight keeps the invariants where the root's stays in its range. -/
theorem heavier_inv {c : Config} {k : Nat} {t : CodeTree} (hk : 1 ≤ k) (h : TreeInv c t)
    (hmax : k * (t.N 0).weight ≤ c.weightMax) : TreeInv c (heavier k t) := by
  have hr : (heavier k t).root = t.root := rfl
  have hn : (heavier k t).nyt = t.nyt := rfl
  have ho : (heavier k t).nextOrder = t.nextOrder := rfl
  have h2 : (heavier k t).ord2node = t.ord2node := rfl
  have hs : (heavier k t).sym2leaf = t.sym2leaf := rfl
  have h3 := h.toTreeShape
  refine WeightedTree.inRange ⟨?_, ?_, ?_, ?_, ?_⟩ (by rw [heavier_N]; exact hmax)
  · constructor
    all_goals simp only [heavier_N, heavier_nLive, hr, hn, ho, h2, hs]
    · exact h3.root_zero
    · exact h3.odd
    · exact h3.cap
    · exact h3.next
    · exact h3.nyt_last
    · exact h3.ord2node_length
    · exact h3.root_order
    · exact h3.parent_none
    · exact h3.two_or_none
    · exact h3.left_child
    · exact h3.right_child
    · exact h3.child_of_parent
    · exact h3.siblings
    · exact h3.left_parity
    · exact h3.parent_order
    · exact h3.order_range
    · exact h3.order_distinct
    · exact h3.order_used
    · exact h3.ord2node_iff
    · exact h3.ord2node_free
    · exact h3.nyt_leaf
    · exact h3.nyt_unbound
    · exact h3.nyt_order
    · exact h3.bottom
    · exact h3.leaf_bound
    · exact h3.internal_unbound
    · exact h3.sym2leaf_iff
  all_goals simp only [heavier_N, heavier_nLive, hn]
  · rw [h.nyt_weight, Nat.mul_zero]
  · intro i hi hw
    exact h.zero_weight i hi (Nat.eq_zero_of_not_pos fun hp => by have := Nat.mul_pos hk hp; omega)
  · intro i hi l r hl hr
    rw [h.weight_sum i hi l r hl hr, Nat.mul_add]
  · intro i j hi hj hlt
    exact Nat.mul_le_mul_left k (h.sibling_property i j hi hj hlt)

/-- A tree of three nodes whose root's weight is the largest. -/
def heaviest : CodeTree := heavier (2 ^ 64 - 1) (grown [65])

theorem heaviest_inv : TreeInv Config.ahte heaviest := heavier_inv (by decide) (grown_inv [65]) (by decide +kernel)

theorem heaviest_root : (heaviest.N heaviest.root).weight = 2 ^ 64 - 1 := by decide +kernel

/-- R260: a tree in which all 256 byte values have leaves and EOT has none: the arena is full. -/
theorem full_tree : ∃ t, TreeInv Config.ahte t ∧ t.sym2leaf[Symbol.eot.val] = none ∧ t.nextOrder < 1 ∧
    (t.N t.root).weight ≠ 2 ^ 64 - 1 := by
  let l : List Symbol := ((List.range 256).map fun n => Symbol.ofByte (BitVec.ofNat 8 n))
  have hB : ∀ s ∈ l, s ∈ (Finset.univ.filter fun s : Symbol => s ≠ Symbol.eot) := by
    intro s hs
    obtain ⟨n, -, rfl⟩ := List.mem_map.1 hs
    exact Finset.mem_filter.2 ⟨Finset.mem_univ _, ofByte_ne_eot _⟩
  have hall : ∀ s : Symbol, s ≠ Symbol.eot → s ∈ l := by
    intro s hne
    have hlt : s.val < 256 := by
      have h1 := s.isLt
      have h2 : s.val ≠ 256 := fun e => hne (Fin.ext e)
      omega
    exact List.mem_map.2 ⟨s.val, List.mem_range.2 hlt, Fin.ext (by simp [Symbol.ofByte]; omega)⟩
  have hcard : (Finset.univ.filter fun s : Symbol => s ≠ Symbol.eot).card = 256 := by decide +kernel
  have inv := fresh_inv ahteValid
  obtain ⟨bits, t, hw⟩ := writes_exists ahteValid l inv (B := Finset.univ.filter fun s : Symbol => s ≠ Symbol.eot)
    (by rw [boundSet_fresh]; exact Finset.empty_subset _) hB (by rw [hcard]; decide) (by decide +kernel)
  have hr := hw.reads ahteValid inv
  have inv' := hr.inv ahteValid inv
  have hbound : ∀ s, t.Bound s ↔ s ≠ Symbol.eot := by
    intro s
    rw [hr.bound_iff ahteValid inv s]
    constructor
    · rintro (h | h)
      · have := mem_boundSet.2 h
        rw [boundSet_fresh] at this
        exact absurd this (Finset.notMem_empty s)
      · exact (Finset.mem_filter.1 (hB s h)).2
    · exact fun h => .inr (hall s h)
  have hset : boundSet t = Finset.univ.filter fun s : Symbol => s ≠ Symbol.eot := by
    ext s
    rw [mem_boundSet, hbound, Finset.mem_filter]
    exact ⟨fun h => ⟨Finset.mem_univ s, h⟩, fun h => h.2⟩
  refine ⟨t, inv', ?_, ?_, ?_⟩
  · by_contra h
    exact (hbound Symbol.eot).1 h rfl
  · rw [inv'.toTreeShape.nextOrder_eq, hset, hcard]; decide
  · rw [inv'.root_zero, hr.root_weight ahteValid inv]; decide +kernel

/-- Units written on a tree, computed. -/
def written (c : Config) : CodeTree → List Symbol → Option (List Bool × CodeTree)
  | t, [] => some ([], t)
  | t, sym :: syms =>
    match codeBits c t sym, update c t sym with
    | .ok unit, .ok t1 => (written c t1 syms).map fun r => (unit ++ r.1, r.2)
    | _, _ => none

theorem written_writes {c : Config} (syms : List Symbol) {t t' : CodeTree} {bits : List Bool}
    (h : written c t syms = some (bits, t')) : Writes c t syms bits t' := by
  induction syms generalizing t bits with
  | nil => cases h; exact ⟨rfl, rfl⟩
  | cons sym syms ih =>
    unfold written at h
    split at h
    · next unit t1 hc hu =>
      cases hr : written c t1 syms with
      | none => rw [hr] at h; cases h
      | some r =>
        rw [hr] at h; cases h
        exact ⟨unit, r.1, t1, hc, hu, ih hr, rfl⟩
    · cases h

/-- The bits and the tree of a symbol sequence from the reset tree. -/
def stream (syms : List Symbol) : List Bool × CodeTree :=
  (written Config.ahte State.reset.tree syms).getD ([], State.reset.tree)

theorem stream_reads {syms : List Symbol} (h : (written Config.ahte State.reset.tree syms).isSome) :
    Reads Config.ahte State.reset.tree syms (stream syms).1 (stream syms).2 := by
  obtain ⟨r, hr⟩ := Option.isSome_iff_exists.1 h
  have hs : stream syms = r := by unfold stream; rw [hr]; rfl
  exact (written_writes syms (by rw [hr, hs])).reads ahteValid reset_tree_inv

/-- The engine after reset with one word presented meets the invariants. -/
theorem presented_inv (w : Word) : MachineInv Config.ahte { State.reset with host := [.command w] } := by
  refine ⟨reset_tree_inv, ⟨by show 0 < 1; decide, by show 0 ≤ 7; decide⟩, ⟨rfl, ?_, ?_, ?_, ?_, Nat.zero_le _, ?_⟩, Nat.le_refl 0⟩
  · exact ⟨fun h => absurd h Bool.false_ne_true, fun h => absurd rfl h⟩
  · show rspReserved 0 = 0; decide
  · show (rspStatus 0).toNat ≤ 3; decide
  · exact List.length_replicate
  · intro k _ hk
    show (List.replicate _ false)[k]? = _
    rw [List.getElem?_replicate, if_pos hk]

/-- The next state of an outcome. -/
def answer : Host.Outcome State Fault Refusal → Option State
  | .next t => some t
  | .fault _ => none
  | .refused _ => none

theorem answer_some {o : Host.Outcome State Fault Refusal} {t : State} (h : answer o = some t) : o = .next t := by
  cases o with
  | next s => cases h; rfl
  | fault f => cases h
  | refused r => cases h

/-! ### The witnesses -/

theorem witness_WorkedEncodings : ∃ s : State, s.fault = false ∧ s.host = [.hardReset] ∧ s.busy = false :=
  ⟨{ State.reset with host := [.hardReset] }, rfl, rfl, rfl⟩

theorem witness_EncodeInvertsDecode : ∃ (w : Word) (i : Instr), decode w = .ok i := ⟨0x3041, .update 65, by decide⟩

/-- R87: which of the six tests on a word's numbers hold, in their order, on an engine with `nLive` live nodes. -/
def tests (w nLive : Nat) : List Bool :=
  let opc := w / 4096
  let rsv := w / 1024 % 4
  let arg := w % 1024
  [decide (opc = 0 ∨ 10 ≤ opc), decide (rsv ≠ 0),
    decide ((opc = 1 ∨ opc = 5 ∨ opc = 6 ∨ opc = 8 ∨ opc = 9) ∧ arg ≠ 0), decide (opc = 2 ∧ nLive ≤ arg),
    decide ((opc = 3 ∨ opc = 7) ∧ 256 < arg), decide (opc = 4 ∧ 1 < arg)]

/-- Each test of R87 is the first to hold on some word, at a boundary of its range; on the last three words none holds. -/
theorem witness_WordsAreTestedInOrder : (State.reset.tree.nLive = 1 ∧ State.reset.busy = false) ∧
    tests 0x0FFF 1 = [true, true, false, false, false, false] ∧
    tests 0xA000 1 = [true, false, false, false, false, false] ∧
    tests 0x1400 1 = [false, true, false, false, false, false] ∧
    tests 0x5001 1 = [false, false, true, false, false, false] ∧
    tests 0x2001 1 = [false, false, false, true, false, false] ∧
    tests 0x3101 1 = [false, false, false, false, true, false] ∧
    tests 0x7101 1 = [false, false, false, false, true, false] ∧
    tests 0x4002 1 = [false, false, false, false, false, true] ∧
    tests 0x2000 1 = [false, false, false, false, false, false] ∧
    tests 0x7100 1 = [false, false, false, false, false, false] ∧
    tests 0x4001 1 = [false, false, false, false, false, false] := by decide +kernel

theorem witness_StepRunsTheDecodedWord : ∃ (s : State) (w : Word) (rest : List HostMove) (i : Instr),
    s.host = .command w :: rest ∧ s.busy = false ∧ decode w = .ok i :=
  ⟨{ State.reset with host := [.command 0x9000] }, 0x9000, [], .decstream, rfl, rfl, by decide⟩

theorem witness_PlacedWordRunsNext : decodeTableWord 16 0x4001 = some (.wrbit 1) := by decide

theorem witness_HostMovesOnStreams :
    (∃ s : State, s.host = []) ∧
    (∃ (s : State) (bytes : List Byte) (rest : List HostMove), s.host = .source bytes :: rest ∧ s.busy = false) ∧
    (∃ (s : State) (rest : List HostMove), s.host = .sink :: rest ∧ s.busy = false) :=
  ⟨⟨State.reset, rfl⟩, ⟨{ State.reset with host := [.source [1]] }, [1], [], rfl, rfl⟩,
    ⟨{ State.reset with host := [.sink], sink := [7] }, [], rfl, rfl⟩⟩

theorem witness_OperandsOutOfRangeAreRefused : State.reset.fault = false ∧ State.reset.tree.nLive ≤ (1 : Arg).toNat ∧
    256 < (257 : Arg).toNat ∧ 1 < (2 : Arg).toNat := by decide

theorem witness_OnlyHardResetLeavesAFault :
    ∃ s : State, s.fault = true ∧ (∃ w rest, s.host = .command w :: rest) ∧ s.busy = false :=
  ⟨{ State.reset with fault := true, faultCode := .badLiteral, host := [.command 0] }, rfl, ⟨0, [], rfl⟩, rfl⟩

theorem witness_OnlyHardResetLeavesAFault_reset : ∃ s s' : State, s.fault = true ∧ (∃ rest, s.host = .hardReset :: rest) ∧
    step s = .next s' ∧ s'.fault = false :=
  ⟨{ State.reset with fault := true, faultCode := .badLiteral, host := [.hardReset] }, _, rfl, ⟨[], rfl⟩, rfl, rfl⟩

theorem witness_HardResetResult : ∃ (s : State) (rest : List HostMove), s.host = .hardReset :: rest ∧ s.fault = true :=
  ⟨{ State.reset with fault := true, host := [.hardReset] }, [], rfl, rfl⟩

/-- A command that puts two bytes, and hard reset while it runs. -/
def beforeCut : State := { State.reset with host := [.cutCommand 0x8000] }

theorem witness_CutCommandResult : ∃ (s t : State) (w : Word) (rest : List HostMove), s.host = .cutCommand w :: rest ∧
    s.busy = false ∧ step { s with host := .command w :: rest } = .next t ∧ t.pos = 0 ∧ t.sink = [0x80, 0x00] ∧ w = 0x8000 := by
  have h1 : (answer (step { beforeCut with host := .command 0x8000 :: [] })).map (fun t => (t.pos, t.sink)) =
      some (0, [0x80, 0x00]) := by decide +kernel
  obtain ⟨t, ht, h2⟩ := Option.map_eq_some_iff.1 h1
  exact ⟨beforeCut, t, 0x8000, [], rfl, rfl, answer_some ht, congrArg Prod.fst h2,
    congrArg Prod.snd h2, rfl⟩

/-- For each of the three codes a step from an engine without a fault to one with it. -/
theorem witness_WhoRaisesWhichFault :
    look 0x3041 (onTree { State.reset.tree with nextOrder := 0 }) (fun t => (t.fault, t.faultCode)) =
      some (true, .nodeTableOverflow) ∧
    look 0x9000 (onSource [0x80, 0x80]) (fun t => (t.fault, t.faultCode)) = some (true, .badLiteral) ∧
    look 0x3041 (onTree heaviest) (fun t => (t.fault, t.faultCode)) = some (true, .weightOverflow) := by decide +kernel

theorem witness_UpdateFaults_weight : ∃ (s : State) (a : Arg) (sym : Symbol), s.fault = false ∧
    TreeInv Config.ahte s.tree ∧ a.toNat = sym.val ∧ (s.tree.N s.tree.root).weight = 2 ^ 64 - 1 :=
  ⟨onTree heaviest, 65, 65, rfl, heaviest_inv, rfl, heaviest_root⟩

theorem witness_UpdateFaults_table : ∃ (s : State) (a : Arg) (sym : Symbol), s.fault = false ∧
    TreeInv Config.ahte s.tree ∧ a.toNat = sym.val ∧ (s.tree.N s.tree.root).weight ≠ 2 ^ 64 - 1 ∧
    s.tree.sym2leaf[sym.val] = none ∧ s.tree.nextOrder < 1 := by
  obtain ⟨t, inv, hs, hn, hw⟩ := full_tree
  exact ⟨onTree t, 256, Symbol.eot, rfl, inv, rfl, hw, hs, hn⟩

theorem witness_EncodeFaultsAfterItsBits :
    (∃ (s : State) (a : Arg) (sym : Symbol), s.fault = false ∧ TreeInv Config.ahte s.tree ∧ a.toNat = sym.val ∧
      (s.tree.N s.tree.root).weight = 2 ^ 64 - 1) ∧
    ∃ (s : State) (a : Arg) (sym : Symbol), s.fault = false ∧ TreeInv Config.ahte s.tree ∧ a.toNat = sym.val ∧
      s.tree.sym2leaf[sym.val] = none ∧ s.tree.nextOrder < 1 := by
  obtain ⟨s, a, sym, hf, inv, ha, -, hs, hn⟩ := witness_UpdateFaults_table
  exact ⟨witness_UpdateFaults_weight, s, a, sym, hf, inv, ha, hs, hn⟩

theorem witness_TresetResult : ∃ s : State, s.fault = false ∧ s.tree = grown [65, 65, 256] :=
  ⟨onTree (grown [65, 65, 256]), rfl, rfl⟩

theorem witness_EmptySource : ∃ s : State, s.fault = false ∧ s.source.length ≤ s.pos ∧ s.source = [1] :=
  ⟨{ State.reset with source := [1], pos := 1 }, rfl, Nat.le_refl _, rfl⟩

theorem witness_WhereEncstreamCompletes : (onSource [1, 2]).fault = false := rfl

theorem witness_DecstreamOnAnyInput : (onSource [0xFF, 0xFF]).fault = false := rfl

theorem witness_PathofResult : ∃ (s : State) (n : Arg), s.fault = false ∧ TreeInv Config.ahte s.tree ∧
    n.toNat < s.tree.nLive ∧ n = 4 :=
  ⟨onTree (grown [65, 66]), 4, rfl, grown_inv [65, 66], by decide +kernel, rfl⟩

/-- All clauses on one tree of five nodes, and the one-node tree. -/
theorem witness_PathsFormAPrefixCode : Config.ahte.Valid ∧ TreeInv Config.ahte (grown [65, 66]) ∧
    (grown [65, 66]).sym2leaf[65] = some 1 ∧ 4 < (grown [65, 66]).nLive ∧
    ((grown [65, 66]).N 1).left = none ∧ ((grown [65, 66]).N 4).left = none ∧
    pathOf Config.ahte (grown [65, 66]) 1 = .ok [true] ∧ pathOf Config.ahte (grown [65, 66]) 4 = .ok [false, false] ∧
    State.reset.tree.nyt = State.reset.tree.root :=
  ⟨ahteValid, grown_inv _, by decide +kernel, by decide +kernel, by decide +kernel, by decide +kernel, by decide +kernel,
    by decide +kernel, rfl⟩

theorem witness_LeaderIsTheLargestOrderOfItsClass : TreeShape Config.ahte (grown [65, 66]) ∧ 4 < (grown [65, 66]).nLive :=
  ⟨(grown_inv _).toTreeShape, by decide +kernel⟩

theorem witness_SplitResult :
    (TreeShape Config.ahte State.reset.tree ∧ State.reset.tree.sym2leaf[65] = none ∧ 1 ≤ State.reset.tree.nextOrder) ∧
    ∃ t, TreeShape Config.ahte t ∧ t.sym2leaf[Symbol.eot.val] = none ∧ t.nextOrder < 1 := by
  obtain ⟨t, inv, hs, hn, -⟩ := full_tree
  exact ⟨⟨reset_tree_inv.toTreeShape, by decide +kernel, by decide⟩, t, inv.toTreeShape, hs, hn⟩

/-- A leaf leads down to itself alone. -/
theorem descend_leaf {t : CodeTree} {i j : Nat} (hl : (t.N i).left = none) (hr : (t.N i).right = none) (hij : i ≠ j)
    (bits : List Bool) : descend t i bits ≠ some j := by
  cases bits with
  | nil => intro h; cases h; exact hij rfl
  | cons b bits => cases b <;> simp [descend, hl, hr]

theorem witness_SwapAndExchangeTradePositions : Config.ahte.Valid ∧ TreeShape Config.ahte (grown [65, 66]) ∧
    3 < (grown [65, 66]).nLive ∧ 1 < (grown [65, 66]).nLive ∧ ((grown [65, 66]).N 3).parent = some 2 ∧
    ((grown [65, 66]).N 1).parent = some 0 ∧ (∀ bits, descend (grown [65, 66]) 3 bits ≠ some 1) ∧
    (∀ bits, descend (grown [65, 66]) 1 bits ≠ some 3) :=
  ⟨ahteValid, (grown_inv _).toTreeShape, by decide +kernel, by decide +kernel, by decide +kernel, by decide +kernel,
    descend_leaf (by decide +kernel) (by decide +kernel) (by decide),
    descend_leaf (by decide +kernel) (by decide +kernel) (by decide)⟩

/-- The guard holds; the leader is the node itself; it is the parent; it is a child (on no tree that updates make). -/
theorem witness_SwapGuard :
    (leader (grown [65, 66]) 3 = .ok 1 ∧ ((grown [65, 66]).N 3).parent ≠ some 1 ∧ ((grown [65, 66]).N 1).parent ≠ some 3) ∧
    leader (grown [65, 66]) 0 = .ok 0 ∧
    (leader (grown [65]) 1 = .ok 0 ∧ ((grown [65]).N 1).parent = some 0) ∧
    leader { State.reset.tree with nodes := [row 1 none 1 none none (some 1), row 1 none 2 (some 0) none none] } 0 = .ok 1 := by
  decide +kernel

/-- A leaf led by its parent, the root, its sibling of weight 0; an internal node led by a leaf that is not its parent, with a node
below it; a leaf whose sibling has weight 0 but whose parent does not lead; the root and the NYT node, each its own leader. -/
theorem witness_LeadersAreNeverDegenerate : (Config.ahte.Valid ∧ TreeInv Config.ahte (grown [65]) ∧
    TreeInv Config.ahte (grown [65, 66])) ∧
    (1 < (grown [65]).nLive ∧ leader (grown [65]) 1 = .ok (grown [65]).root ∧ descend (grown [65]) 0 [true] = some 1 ∧
      ((grown [65]).N 0).left = some 2 ∧ ((grown [65]).N 2).weight = 0) ∧
    (2 < (grown [65, 66]).nLive ∧ leader (grown [65, 66]) 2 = .ok 1 ∧ ((grown [65, 66]).N 2).parent ≠ some 1 ∧
      descend (grown [65, 66]) 2 [true] = some 3) ∧
    (3 < (grown [65, 66]).nLive ∧ leader (grown [65, 66]) 3 = .ok 1 ∧ ((grown [65, 66]).N 3).parent = some 2 ∧
      ((grown [65, 66]).N 2).left = some 4 ∧ ((grown [65, 66]).N 4).weight = 0) ∧
    leader (grown [65, 66]) 0 = .ok (grown [65, 66]).root ∧ leader (grown [65, 66]) 4 = .ok (grown [65, 66]).nyt :=
  ⟨⟨ahteValid, grown_inv _, grown_inv _⟩, by decide +kernel, by decide +kernel, by decide +kernel, by decide +kernel,
    by decide +kernel⟩

/-- R199 (g): a split. -/
theorem witness_LeadersAreNeverDegenerate_split : ∃ (t t1 : CodeTree) (sym : Symbol) (x : Nat), TreeInv Config.ahte t ∧
    t.sym2leaf[sym.val] = none ∧ split t sym = .ok (x, t1) ∧ t = grown [65] := by
  obtain ⟨t1, h, -⟩ := split_spec (grown_inv [65]).toTreeShape 66 (by decide +kernel)
  exact ⟨grown [65], t1, 66, _, grown_inv _, by decide +kernel, h, rfl⟩

/-- The first step of a new symbol; the first and the second step of a bound one, an exchange between them. -/
theorem witness_LeadersOnTheWalk :
    (∃ t' cur, OnWalk Config.ahte 256 (grown [65, 66]) t' cur ∧ cur = (grown [65, 66]).nyt) ∧
    OnWalk Config.ahte 66 (grown [65, 66]) (grown [65, 66]) 3 ∧ leader (grown [65, 66]) 3 = .ok 1 ∧
    (∃ t', OnWalk Config.ahte 66 (grown [65, 66]) t' 0) := by
  have h0 : OnWalk Config.ahte 66 (grown [65, 66]) (grown [65, 66]) 3 := .start (by
    unfold walkStart
    rw [show (grown [65, 66]).sym2leaf[(66 : Symbol).val] = some 3 by decide +kernel])
  have h1 : ((rebalance Config.ahte (grown [65, 66]) 3).toOption.map fun t => (t.N 3).parent) = some (some 0) := by decide +kernel
  refine ⟨?_, h0, by decide +kernel, ?_⟩
  · obtain ⟨t1, h, -⟩ := split_spec (grown_inv [65, 66]).toTreeShape 256 (by decide +kernel)
    exact ⟨t1, _, .start (by
      unfold walkStart
      rw [show (grown [65, 66]).sym2leaf[(256 : Symbol).val] = none by decide +kernel]
      exact h), rfl⟩
  · cases hr : rebalance Config.ahte (grown [65, 66]) 3 with
    | error e => rw [hr] at h1; cases h1
    | ok t2 =>
      rw [hr] at h1
      exact ⟨_, h0.next hr (Option.some.inj h1)⟩

theorem witness_UpdateOfABoundSymbol : ∃ (s : State) (a : Arg) (sym : Symbol) (leaf : Nat), s.fault = false ∧
    TreeInv Config.ahte s.tree ∧ a.toNat = sym.val ∧ s.tree.sym2leaf[sym.val] = some leaf ∧
    (s.tree.N s.tree.root).weight ≠ 2 ^ 64 - 1 :=
  ⟨onTree (grown [65, 256]), 256, 256, 3, rfl, grown_inv [65, 256], rfl, by decide +kernel, by decide +kernel⟩

theorem witness_UpdateOfANewSymbol : ∃ (s : State) (a : Arg) (sym : Symbol), s.fault = false ∧
    TreeInv Config.ahte s.tree ∧ a.toNat = sym.val ∧ s.tree.sym2leaf[sym.val] = none ∧ 1 ≤ s.tree.nextOrder ∧
    (s.tree.N s.tree.root).weight ≠ 2 ^ 64 - 1 :=
  ⟨onTree (grown [65]), 256, 256, rfl, grown_inv [65], rfl, by decide +kernel, by decide +kernel, by decide +kernel⟩

theorem witness_NodeCountFollowsTheBoundSymbols : TreeInv Config.ahte (grown [65, 66]) := grown_inv _

theorem witness_TreesThatUpdatesMake : Config.ahte.Valid ∧
    [65, 66, 65].foldlM (fun t sym => update Config.ahte t sym) (CodeTree.fresh Config.ahte) = .ok (grown [65, 66, 65]) := by
  have h : ([65, 66, 65].foldlM (fun t sym => update Config.ahte t sym) (CodeTree.fresh Config.ahte)).isOk = true := by
    decide +kernel
  refine ⟨ahteValid, ?_⟩
  unfold grown
  split
  · next h1 => rw [h1]
  · next h1 => rw [h1] at h; cases h

theorem witness_AbsoluteOrdersAreNotObservable : ∃ (c c' : Config) (d : Nat) (syms : List Symbol)
    (bits bits' : List Bool) (t t' : CodeTree), c.Valid ∧ c'.Valid ∧ c'.weightBits = c.weightBits ∧
    c'.orderMax = c.orderMax + d ∧ Writes c (CodeTree.fresh c) syms bits t ∧
    Writes c' (CodeTree.fresh c') syms bits' t' ∧ d = 2 ∧ syms = [65, 66, 66, 256] := by
  obtain ⟨bits, t, h⟩ := writes_exists (c := Config.ahte) ahteValid [65, 66, 66, 256] (fresh_inv ahteValid)
    (B := {65, 66, 256}) (by rw [boundSet_fresh]; exact Finset.empty_subset _) (by decide +kernel) (by decide +kernel) (by decide +kernel)
  have hv : Config.Valid { nodeCap := 515, weightBits := 64 } := by decide
  obtain ⟨bits', t', h'⟩ := writes_exists hv [65, 66, 66, 256] (fresh_inv hv)
    (B := {65, 66, 256}) (by rw [boundSet_fresh]; exact Finset.empty_subset _) (by decide +kernel) (by decide +kernel) (by decide +kernel)
  exact ⟨_, _, 2, _, _, _, _, _, ahteValid, hv, rfl, rfl, h, h', rfl, rfl⟩

theorem witness_PullsAndPuts : (onSource [5, 6]).source[(onSource [5, 6]).pos]? = some (5 : Byte) ∧
    State.reset.source.length ≤ State.reset.pos := by decide

theorem witness_WrbitResult : State.reset.fault = false ∧ (1 : Arg).toNat ≤ 1 ∧
    (7 : Fin 8).val = ({ State.reset with wCnt := 6 } : State).wCnt.val + 1 ∧
    (1 : Fin 8).val = State.reset.wCnt.val + 1 ∧ ({ State.reset with wCnt := 7 } : State).wCnt.val = 7 := by decide

theorem witness_WflushResult : State.reset.wCnt.val = 0 ∧ 0 < ({ State.reset with wCnt := 1 } : State).wCnt.val ∧
    0 < ({ State.reset with wCnt := 7 } : State).wCnt.val := by decide

theorem witness_WriteSideBytes : State.reset.wCnt = 0 := rfl

theorem witness_RdbitResult : State.reset.fault = false ∧
    (0 : Fin 9).val + 1 = ({ State.reset with rCnt := 1 } : State).rCnt.val ∧
    (7 : Fin 9).val + 1 = ({ State.reset with rCnt := 8 } : State).rCnt.val ∧
    ((onSource [0xA5]).rCnt.val = 0 ∧ (onSource [0xA5]).source[(onSource [0xA5]).pos]? = some (0xA5 : Byte)) ∧
    (State.reset.rCnt.val = 0 ∧ State.reset.source.length ≤ State.reset.pos) := by decide

theorem witness_ReadSideBits : (onSource [0x80]).rCnt.val = 0 ∧ bitsIn State.reset = [] ∧
    bitsIn (onSource [0x80]) = true :: [false, false, false, false, false, false, false] := by decide

/-- A bound symbol; a new one with two entries left to take. -/
theorem witness_EncodeResult : ∀ sym : Symbol, sym = 65 ∨ sym = 256 →
    ∃ (s : State) (a : Arg), s.fault = false ∧ TreeInv Config.ahte s.tree ∧ a.toNat = sym.val ∧
      s.tree.HasRoom Config.ahte sym := by
  rintro sym (rfl | rfl)
  · exact ⟨onTree (grown [65]), 65, rfl, grown_inv [65], rfl, by decide +kernel, .inl (by decide +kernel)⟩
  · exact ⟨onTree (grown [65]), 256, rfl, grown_inv [65], rfl, by decide +kernel, .inr (by decide +kernel)⟩

theorem witness_CostOfAUnit : Config.ahte.Valid ∧ TreeInv Config.ahte (grown [65]) ∧
    (grown [65]).sym2leaf[65] = some 1 ∧ (grown [65]).sym2leaf[66] = none ∧ State.reset.tree.sym2leaf[66] = none :=
  ⟨ahteValid, grown_inv _, by decide +kernel, by decide +kernel, by decide +kernel⟩

/-- The first `n` byte values, and that they are `n`. -/
def firstBytes (n : Nat) : List Byte := (List.range n).map (BitVec.ofNat 8)

theorem firstBytes_distinct {n : Nat} (hn : n ≤ 256) : distinctBytes (firstBytes n) = n := by
  have hnd : (firstBytes n).Nodup := by
    refine List.Nodup.map_on (fun a ha b hb h => ?_) List.nodup_range
    have ha := List.mem_range.1 ha
    have hb := List.mem_range.1 hb
    have := congrArg BitVec.toNat h
    rw [BitVec.toNat_ofNat, BitVec.toNat_ofNat] at this
    omega
  unfold distinctBytes
  rw [List.dedup_eq_self.2 hnd]
  simp [firstBytes]

/-- 255 byte values, and all 256. -/
theorem witness_EncstreamResult : (onSource (firstBytes 255)).fault = false ∧
    distinctBytes ((onSource (firstBytes 255)).source.drop 0) = 255 ∧
    ((onSource (firstBytes 255)).source.drop 0).length < 2 ^ 64 - 1 :=
  ⟨rfl, firstBytes_distinct (by decide), by simp [onSource, firstBytes]⟩

theorem witness_FullAlphabetFaultsAtEot : (onSource (firstBytes 256)).fault = false ∧
    distinctBytes ((onSource (firstBytes 256)).source.drop 0) = 256 ∧
    ((onSource (firstBytes 256)).source.drop 0).length < 2 ^ 64 - 1 :=
  ⟨rfl, firstBytes_distinct (Nat.le_refl _), by simp [onSource, firstBytes]⟩

/-- The source begins with the units of these symbols and of EOT. -/
theorem witness_DecstreamStopsAtEot : ∃ (s : State) (syms : List Symbol) (bits unit more : List Bool) (t : CodeTree),
    s.fault = false ∧ Symbol.eot ∉ syms ∧ Reads Config.ahte State.reset.tree syms bits t ∧
    IsUnit Config.ahte t Symbol.eot unit ∧ (s.source.drop s.pos).flatMap byteBits = bits ++ unit ++ more ∧
    syms = [65, 65, 65, 65, 66] ∧ more = List.replicate 7 false := by
  refine ⟨onSource [0x20, 0xF1, 0x08, 0x80, 0x00], [65, 65, 65, 65, 66], (stream [65, 65, 65, 65, 66]).1,
    [false, false] ++ literalBits Symbol.eot, List.replicate 7 false, (stream [65, 65, 65, 65, 66]).2, rfl, by decide,
    stream_reads (by decide +kernel), .inr ⟨[false, false], by decide +kernel, rfl⟩, by decide +kernel, rfl, rfl⟩

/-- V43: the bits end at the root, after eight symbols; V35: they end after eight of nine literal bits. -/
theorem witness_DecstreamStopsAtTheEndOfInput :
    (∃ (s : State) (syms : List Symbol) (bits rest : List Bool) (t : CodeTree) (j : Nat), s.fault = false ∧
      Symbol.eot ∉ syms ∧ Reads Config.ahte State.reset.tree syms bits t ∧
      (s.source.drop s.pos).flatMap byteBits = bits ++ rest ∧ descend t t.root rest = some j ∧ (t.N j).left ≠ none) ∧
    (∃ (s : State) (syms : List Symbol) (bits rest : List Bool) (t : CodeTree) (path part : List Bool), s.fault = false ∧
      Symbol.eot ∉ syms ∧ Reads Config.ahte State.reset.tree syms bits t ∧
      (s.source.drop s.pos).flatMap byteBits = bits ++ rest ∧ descend t t.root path = some t.nyt ∧
      rest = path ++ part ∧ part.length < 9 ∧ part.length = 8) :=
  ⟨⟨onSource [0x20, 0xFF], List.replicate 8 65, (stream (List.replicate 8 65)).1, [], (stream (List.replicate 8 65)).2, 0, rfl,
      by decide, stream_reads (by decide +kernel), by decide +kernel, by decide +kernel, by decide +kernel⟩,
    ⟨onSource [0x20], [], [], byteBits 0x20, State.reset.tree, [], byteBits 0x20, rfl, by decide, ⟨rfl, rfl⟩, by decide,
      by decide, rfl, by decide, rfl⟩⟩

/-- V40: the literal 257, the least that spells no symbol. -/
theorem witness_DecstreamFaultsOnABadLiteral : ∃ (s : State) (syms : List Symbol) (bits path lit more : List Bool)
    (t : CodeTree), s.fault = false ∧ Symbol.eot ∉ syms ∧ Reads Config.ahte State.reset.tree syms bits t ∧
    descend t t.root path = some t.nyt ∧ lit.length = 9 ∧ (∀ sym : Symbol, lit ≠ literalBits sym) ∧
    (s.source.drop s.pos).flatMap byteBits = bits ++ path ++ lit ++ more :=
  ⟨onSource [0x80, 0x80], [], [], [], [true, false, false, false, false, false, false, false, true],
    List.replicate 7 false, State.reset.tree, rfl, by decide, ⟨rfl, rfl⟩, by decide, rfl, by decide +kernel, by decide⟩

/-- P1 and P2, with a byte after the stream. -/
theorem witness_RoundTrip : ∃ (s s' u : State) (bytes extra : List Byte), s.fault = false ∧ exec .encstream s = .next s' ∧
    s'.rsp = 0x0000 ∧ s'.sink = s.sink ++ bytes ∧ u.fault = false ∧ u.source = bytes ++ extra ∧ u.pos = 0 ∧
    extra = [0xFF] ∧ s.source = [0x41, 0x41, 0x41, 0x41, 0x42] := by
  have h : ∃ s', exec .encstream (onSource [0x41, 0x41, 0x41, 0x41, 0x42]) = .next s' ∧ s'.rsp = 0x0000 ∧
      s'.sink = [0x20, 0xF1, 0x08, 0x80, 0x00] := by
    have h1 : (answer (exec .encstream (onSource [0x41, 0x41, 0x41, 0x41, 0x42]))).map (fun t => (t.rsp, t.sink)) =
        some (0x0000, [0x20, 0xF1, 0x08, 0x80, 0x00]) := by decide +kernel
    obtain ⟨s', hs, h2⟩ := Option.map_eq_some_iff.1 h1
    exact ⟨s', answer_some hs, congrArg Prod.fst h2, congrArg Prod.snd h2⟩
  obtain ⟨s', he, hr, hs⟩ := h
  exact ⟨_, s', onSource [0x20, 0xF1, 0x08, 0x80, 0x00, 0xFF], [0x20, 0xF1, 0x08, 0x80, 0x00], [0xFF], rfl, he, hr, hs, rfl, rfl,
    rfl, rfl, rfl⟩

theorem witness_RoundTripInALargeArena : ∃ (c : Config) (s : State), c.Valid ∧ 515 ≤ c.nodeCap ∧ c.nodeCap = 515 ∧
    (s.source.drop s.pos).length < c.weightMax ∧ distinctBytes s.source = 256 ∧
    ∀ bytes extra : List Byte, ∃ u : State, u.source = bytes ++ extra ∧ u.pos = 0 :=
  ⟨{ nodeCap := 515, weightBits := 64 }, onSource (firstBytes 256), by decide, by decide, rfl,
    by simp [onSource, firstBytes, State.reset, State.resetOf, Config.weightMax], firstBytes_distinct (Nat.le_refl _),
    fun bytes extra => ⟨onSource (bytes ++ extra), rfl, rfl⟩⟩

/-- An engine that has been used, with two bytes left to pull. -/
def usedEngine : State :=
  { onTree (grown [65]) with source := [7, 0x80, 0x00], pos := 1, sink := [1], wAcc := 1, wCnt := 1 }

/-- Two engines that differ in everything but what is left of the source, and both commands answer on both. -/
theorem witness_StreamCommandsForgetThePast : ∃ s1 s2 : State, s1.fault = false ∧ s2.fault = false ∧
    s1.source.drop s1.pos = s2.source.drop s2.pos ∧ s1 ≠ s2 ∧
    (∃ t, exec .encstream s1 = .next t) ∧ (∃ t, exec .encstream s2 = .next t) ∧
    (∃ t, exec .decstream s1 = .next t) ∧ (∃ t, exec .decstream s2 = .next t) := by
  have r1 : Running (onSource [0x80, 0x00]) := ⟨(presented_inv 0).tree, ⟨(presented_inv 0).bits.1, (presented_inv 0).bits.2⟩,
    (presented_inv 0).status.2, (presented_inv 0).status.5, (presented_inv 0).status.6, (presented_inv 0).status.7, Nat.zero_le _⟩
  have r2 : Running usedEngine :=
    ⟨grown_inv [65], ⟨by show 1 < 2; decide, (presented_inv 0).bits.2⟩, (presented_inv 0).status.2, (presented_inv 0).status.5,
      (presented_inv 0).status.6, (presented_inv 0).status.7, by show 1 ≤ 3; decide⟩
  have run : ∀ i s, Running s → ∃ t, exec i s = .next t := fun i s h => (exec_good i h).imp fun _ h => h.1
  exact ⟨onSource [0x80, 0x00], usedEngine, rfl, rfl, rfl, fun h => absurd (congrArg State.sink h) (by decide), run _ _ r1, run _ _ r2, run _ _ r1, run _ _ r2⟩

theorem witness_SingleRepeatedSymbol : 0 + 2 ≤ 2 ^ 64 - 1 ∧ (2 ^ 64 - 3) + 2 ≤ 2 ^ 64 - 1 := by decide

/-- Every command gives a next state from some state without a fault (here one step after reset). -/
theorem witness_FrameOfEveryCommand (i : Instr) : ∃ s s' : State, s.fault = false ∧ exec i s = .next s' :=
  ⟨_, (exec_good i (presented_inv 0).running).choose, rfl, (exec_good i (presented_inv 0).running).choose_spec.1⟩

/-- A response of each kind that `ResponseValues` speaks of. -/
theorem witness_ResponseValues :
    look 0x6000 State.reset (fun t => rspStatus t.rsp) = some 0x1 ∧
    look 0x6000 (onSource [0x80]) (fun t => rspStatus t.rsp) = some 0x0 ∧
    look 0x2004 (onTree (grown [65, 66])) (fun t => rspStatus t.rsp) = some 0x0 ∧
    look 0x9000 State.reset (fun t => rspStatus t.rsp) = some 0x0 ∧
    look 0x8000 State.reset (fun t => rspStatus t.rsp) = some 0x0 := by decide +kernel

theorem witness_StepsKeepTheInvariants : ∃ s s' : State, MachineInv Config.ahte s ∧ step s = .next s' ∧
    s.host = [.command 0x3041] := by
  have hr : Running (acceptWord (popMove [] { State.reset with host := [.command 0x3041] })) :=
    ⟨(presented_inv 0).tree, ⟨(presented_inv 0).bits.1, (presented_inv 0).bits.2⟩, (presented_inv 0).status.2,
      (presented_inv 0).status.5, (presented_inv 0).status.6, (presented_inv 0).status.7, Nat.zero_le _⟩
  obtain ⟨s', he, -⟩ := exec_good (.update 65) hr
  exact ⟨_, s', presented_inv 0x3041, he, rfl⟩

/-- The weight range at its end: the root's weight is `2^64 − 1`. -/
theorem witness_StepsKeepTheInvariants_weight : TreeInv Config.ahte heaviest ∧
    (heaviest.N heaviest.root).weight = Config.ahte.weightMax := ⟨heaviest_inv, heaviest_root⟩

theorem witness_StepsAreNeverStuck : ∃ s : State, MachineInv Config.ahte s ∧ s.host ≠ [] :=
  ⟨_, presented_inv 0x9000, by simp⟩

end Sys2Proof.Tests
end

section
/-! PROOFS. The state: hard reset and the reset values (10_state.md R49, 70_reset_and_hazards.md R250), and what each command
leaves unchanged from any state (O49). Two layers serve other proofs too: what hard reset makes of a state, and what holds of
the state in which a flow has ended its command (`Flow.Post`). -/

namespace Sys2Proof.Machine

open Sys2Proof

/-! ### Hard reset -/

/-- R250, R49: every register at its reset value; the streams, the host's moves and `cuts` as they were. -/
theorem hardReset_eq (s : State) : hardReset Config.ahte s =
    { State.reset with source := s.source, pos := s.pos, sink := s.sink, host := s.host, cuts := s.cuts } := by
  simp [hardReset, treeReset_eq_fresh, State.reset, State.resetOf]

/-- R238: hard reset is served at any time, `BUSY` or not. -/
theorem step_hardReset {s : State} {rest : List HostMove} (h : s.host = .hardReset :: rest) :
    step s = .next (hardReset Config.ahte (popMove rest s)) := by
  unfold step serveMove
  rw [h]

/-- Settles O10, the reset of the state whose oldest move has been taken off. -/
theorem hardResetResult : Obligations.HardResetResult := by
  intro s rest h
  rw [step_hardReset h, hardReset_eq]
  rfl

/-- Settles O12. The entries of `ORD2NODE` are those the invariants of the one-node tree give; every other register is read off
the reset state. -/
theorem resetValues : Obligations.ResetValues := by
  have inv : TreeInv Config.ahte State.reset.tree := fresh_inv ahteValid
  have hnext : State.reset.tree.nextOrder = 511 := rfl
  have hused : State.reset.tree.ord2node[512]? = some (some 0) := (inv.ord2node_iff 512 0).2 ⟨inv.root_live, inv.root_order⟩
  have hfree : ∀ o, o < 512 → State.reset.tree.ord2node[o]? = some none := fun o ho => inv.ord2node_free o (by omega)
  have hunbound : ∀ sym : Symbol, State.reset.tree.sym2leaf[sym.val] = none := fun sym => Vector.getElem_replicate sym.isLt
  exact ⟨rfl, rfl, rfl, hunbound, inv.ord2node_length, hused, hfree, hnext, rfl, rfl, rfl, rfl, rfl, rfl, rfl, rfl, rfl, rfl, rfl⟩

/-! ### How a command ends -/

/-- `onGo` holds of the state in which the flow goes on, `onEnd` of the state in which it has ended the command. -/
def Flow.Post (onGo onEnd : State → Prop) : Flow → Prop
  | .go s => onGo s
  | .ended s => onEnd s
  | .stuck _ => True

theorem Flow.Post.andThen {P Q E : State → Prop} {f : Flow} {k : State → Flow} (hf : f.Post P E)
    (hk : ∀ s, P s → (k s).Post Q E) : (f.andThen k).Post Q E := by
  cases f with
  | go s => exact hk s hf
  | ended s => exact hf
  | stuck e => trivial

/-- A flow that never leaves its command open, as the outcome of the command. -/
theorem Flow.Post.outcome {E : State → Prop} {f : Flow} {s' : State} (hf : f.Post (fun _ => False) E)
    (h : f.outcome = .next s') : E s' := by
  cases f with
  | go s => exact hf.elim
  | ended s => cases h; exact hf
  | stuck e => cases h

/-- R39, R81: the engine is idle. -/
abbrev Idle (s : State) : Prop := s.busy = false

theorem complete_idle (v : BitVec 10) (s : State) : (complete v s).Post (fun _ => False) Idle := respond_busy ..

theorem updateTree_idle (c : Config) (sym : Symbol) (s : State) : (updateTree c sym s).Post (fun _ => True) Idle := by
  rcases updateTree_shape c sym s with ⟨t, h⟩ | ⟨code, h⟩ | ⟨f, h⟩ <;> rw [h]
  · trivial
  · exact raiseFault_busy code s
  · trivial

theorem encodeSymbol_idle (c : Config) (sym : Symbol) (s : State) : (encodeSymbol c sym s).Post (fun _ => True) Idle := by
  unfold encodeSymbol
  split
  · trivial
  · exact updateTree_idle ..

theorem encodeBytes_idle (c : Config) (n : Nat) (s : State) : (encodeBytes c n s).Post (fun _ => True) Idle := by
  induction n generalizing s with
  | zero => trivial
  | succ n ih =>
    unfold encodeBytes
    split
    · trivial
    · exact (encodeSymbol_idle ..).andThen fun s _ => ih s

theorem runEncstream_idle (c : Config) (s : State) : (runEncstream c () s).Post (fun _ => False) Idle :=
  ((encodeBytes_idle ..).andThen fun s _ => encodeSymbol_idle c Symbol.eot s).andThen fun s _ => complete_idle 0 (flush s)

theorem emitSymbol_idle (c : Config) (sym : Symbol) (s : State) : (emitSymbol c sym s).Post (fun _ => True) Idle := by
  unfold emitSymbol
  split
  · exact stopDecoding_busy ..
  · exact updateTree_idle ..

theorem resolveLeaf_ended_idle {dcur : Nat} {n : Node} {s s' : State} (h : resolveLeaf dcur n s = .ended s') : Idle s' := by
  unfold resolveLeaf at h
  split at h
  · split at h
    · cases h; exact stopDecoding_busy ..
    · split at h <;> cases h
      exact raiseFault_busy ..
  · split at h <;> cases h

theorem decodeLoop_idle (c : Config) (fuel dcur : Nat) (s : State) :
    (decodeLoop c fuel dcur s).Post (fun _ => False) Idle := by
  induction fuel generalizing dcur s with
  | zero => trivial
  | succ fuel ih =>
    unfold decodeLoop
    split
    · trivial
    · split
      · split
        · trivial
        · next hr => exact resolveLeaf_ended_idle hr
        · exact (emitSymbol_idle ..).andThen fun s _ => ih _ s
      · split
        · exact stopDecoding_busy ..
        · split
          · trivial
          · exact ih ..

theorem runDecstream_idle (c : Config) (s : State) : (runDecstream c () s).Post (fun _ => False) Idle := decodeLoop_idle ..

/-! ### What each command leaves unchanged -/

/-- Writing as one record update: the write side, and bytes behind those of the sink (R140, R66). -/
theorem SameButWrite.eq_update {s s' : State} (same : SameButWrite s s') (frame : WriteFrame s s') :
    ∃ acc cnt bytes, s' = { s with wAcc := acc, wCnt := cnt, sink := s.sink ++ bytes } := by
  obtain ⟨bytes, hbytes⟩ := frame.sink
  exact ⟨s'.wAcc, s'.wCnt, bytes, hbytes ▸ same⟩

/-- Reading as one record update: the read side, and a position further on (R140, R62). -/
theorem SameButRead.eq_update {s s' : State} (same : SameButRead s s') (frame : ReadFrame s s') :
    ∃ acc cnt n, s' = { s with rAcc := acc, rCnt := cnt, pos := s.pos + n } := by
  obtain ⟨n, hn⟩ := Nat.exists_eq_add_of_le frame.pos
  exact ⟨s'.rAcc, s'.rCnt, n, hn ▸ same⟩

theorem writeBits_eq_update (bits : List Bool) (s : State) :
    ∃ acc cnt bytes, writeBits bits s = { s with wAcc := acc, wCnt := cnt, sink := s.sink ++ bytes } :=
  (writeBits_same bits s).eq_update (writeBits_frame bits s)

theorem flush_eq_update (s : State) :
    ∃ acc cnt bytes, flush s = { s with wAcc := acc, wCnt := cnt, sink := s.sink ++ bytes } :=
  (flush_same s).eq_update (flush_frame s)

theorem readBit_eq_update {s s' : State} {b : Bool} (h : readBit s = some (b, s')) :
    ∃ acc cnt n, s' = { s with rAcc := acc, rCnt := cnt, pos := s.pos + n } :=
  (readBit_bit_at h).1.eq_update (readBit_frame h)

/-- Settles O49, by the ways a command can end (`exec_cases`), in that order: the refusal, TRESET, PATHOF, UPDATE, WRBIT, WFLUSH,
RDBIT, ENCODE, each a record update of the state before; then ENCSTREAM and DECSTREAM, which have the frame of the side of the
BitChannel they use and end idle. -/
theorem frameOfEveryCommand : Obligations.FrameOfEveryCommand := by
  intro i s s' h
  rcases exec_cases h with ⟨r, rfl⟩ | ⟨-, ⟨rfl, rfl⟩ | ⟨n, bits, rfl, -, rfl⟩ | ⟨a, sym, rfl, hrun⟩ | ⟨a, b, rfl, rfl⟩ |
    ⟨rfl, rfl⟩ | ⟨rfl, hrun⟩ | ⟨a, sym, rfl, hrun⟩ | ⟨rfl, hrun⟩ | ⟨rfl, hrun⟩⟩
  · simp
  · simp
  · simp
  · rcases runUpdate_cases hrun with ⟨t, rfl⟩ | ⟨code, rfl⟩ <;> simp
  · obtain ⟨acc, cnt, bytes, hw⟩ := writeBits_eq_update [b] s
    rw [writeBits_cons, writeBits_nil] at hw
    simp [hw]
  · obtain ⟨acc, cnt, bytes, hw⟩ := flush_eq_update s
    simp [hw]
  · rcases runRdbit_cases hrun with rfl | ⟨b, s1, hread, rfl⟩
    · simp
    · obtain ⟨acc, cnt, n, rfl⟩ := readBit_eq_update hread
      simp
  · rcases runEncode_cases hrun with ⟨t, bits, rfl⟩ | ⟨code, bits, rfl⟩
    all_goals
      obtain ⟨acc, cnt, bytes, hw⟩ := writeBits_eq_update bits s
      simp [hw]
  · have frame := (runEncstream_writes Config.ahte s).outcome hrun
    have idle := (runEncstream_idle Config.ahte s).outcome hrun
    simp [frame.host, frame.source, frame.cuts, frame.sink, frame.pathLen, frame.pathBits, frame.stopReason, frame.rAcc,
      frame.rCnt, frame.pos, idle]
  · have frame := (runDecstream_reads Config.ahte s).outcome hrun
    have idle := (runDecstream_idle Config.ahte s).outcome hrun
    simp [frame.host, frame.source, frame.cuts, frame.sink, frame.pathLen, frame.pathBits, frame.wAcc, frame.wCnt,
      frame.pos, idle]

end Sys2Proof.Machine
end

section
/-! PROOFS. The two byte streams (20_memory.md): the host's moves on them (O7), a pull and a put (O29), and the round trip of the
stream commands (O45). The round trip is proved for every configuration. -/

namespace Sys2Proof.Machine

open Sys2Proof

/-! ### The host's moves on the streams -/

/-- R237. -/
theorem step_of_no_move {s : State} (h : s.host = []) : step s = .next s := by
  unfold step serveMove
  rw [h]

theorem step_source {s : State} {bytes : List Byte} {rest : List HostMove} (h : s.host = .source bytes :: rest)
    (idle : s.busy = false) : step s = .next (installSource bytes (popMove rest s)) := by
  unfold step serveMove
  rw [h]
  exact if_neg (by rw [idle]; exact Bool.false_ne_true)

theorem step_sink {s : State} {rest : List HostMove} (h : s.host = .sink :: rest) (idle : s.busy = false) :
    step s = .next (newSink (popMove rest s)) := by
  unfold step serveMove
  rw [h]
  exact if_neg (by rw [idle]; exact Bool.false_ne_true)

/-- Settles O7: the three moves, each the record update its operation is. -/
theorem hostMovesOnStreams : Obligations.HostMovesOnStreams :=
  ⟨fun _ h => step_of_no_move h, fun _ _ _ h idle => step_source h idle, fun _ _ h idle => step_sink h idle⟩

/-! ### A pull and a put -/

theorem srcNext_of_byte {s : State} {v : Byte} (h : s.source[s.pos]? = some v) :
    srcNext s = some (v, { s with pos := s.pos + 1 }) := by
  unfold srcNext
  rw [h]

theorem srcNext_of_exhausted {s : State} (h : s.source.length ≤ s.pos) : srcNext s = none := by
  unfold srcNext
  rw [List.getElem?_eq_none h]

/-- Settles O29. -/
theorem pullsAndPuts : Obligations.PullsAndPuts := fun _ _ =>
  ⟨fun _ h => srcNext_of_byte h, srcNext_of_exhausted, rfl⟩

/-! ### The encoder's side of the round trip -/

theorem raiseFault_rsp_ne_ok (code : FaultCode) (s : State) : (raiseFault code s).rsp ≠ 0x0000 := by
  rw [raiseFault_rsp]
  cases code <;> decide

/-- Where `ENCSTREAM` completes (R166 to R169): the sink has gained the units of the bytes left in the source, EOT's unit, and
fewer than eight padding bits; the tree is the one after EOT's update. -/
theorem encstream_completed {c : Config} (hc : c.Valid) {s s' : State}
    (hrun : (runEncstream c () s).outcome = .next s') (hok : s'.rsp = 0x0000) :
    ∃ (bits unit pad : List Bool) (t : CodeTree) (bytes : List Byte),
      Writes c (CodeTree.fresh c) ((s.source.drop s.pos).map Symbol.ofByte) bits t ∧
      codeBits c t Symbol.eot = .ok unit ∧ update c t Symbol.eot = .ok s'.tree ∧
      s'.sink = s.sink ++ bytes ∧ bytes.flatMap byteBits = bits ++ unit ++ pad ∧ pad.length ≤ 7 := by
  rcases encstream_run hc s with ⟨all, t', hall, he⟩ | ⟨l1, v, l2, bits, unit, t1, code, -, -, -, -, -, he⟩ |
    ⟨bits, unit, t1, code, -, -, -, -, he⟩
  all_goals rw [he] at hrun; cases hrun
  · obtain ⟨bytes, hbytes, hflush⟩ := flush_shape (bits := all) (s := s) (t := t')
      (p := s.pos + (s.source.drop s.pos).length)
    obtain ⟨bits, last, t, hw, hlast, rfl⟩ := hall.split
    obtain ⟨unit, _, _, hcode, hup, ⟨rfl, rfl⟩, rfl⟩ := hlast
    rw [List.append_nil] at hbytes hflush ⊢
    refine ⟨bits, unit, _, t, bytes, hw, hcode, ?_, ?_, hbytes, ?_⟩
    · rw [respond_tree, hflush]
      exact hup
    · rw [respond_sink, hflush]
    · rw [List.length_replicate]
      omega
  · exact absurd hok (raiseFault_rsp_ne_ok _ _)
  · exact absurd hok (raiseFault_rsp_ne_ok _ _)

/-! ### The decoder's side -/

/-- R171 to R178: units for symbols other than EOT and then EOT's unit: `DECSTREAM` stops there, the symbols put as bytes, the
bits that follow still to be read. -/
theorem runDecstream_eot {c : Config} (hc : c.Valid) {s : State} {syms : List Symbol} {bits unit more : List Bool}
    {t : CodeTree} (hne : Symbol.eot ∉ syms) (hreads : Reads c (CodeTree.fresh c) syms bits t)
    (hunit : IsUnit c t Symbol.eot unit) (hb : (s.source.drop s.pos).flatMap byteBits = bits ++ unit ++ more) :
    ∃ s', runDecstream c () s = .ended s' ∧ bitsIn s' = more ∧ s'.rCnt.val ≤ 7 ∧ (SourceInv s → SourceInv s') ∧
      s' = { s with tree := t, rAcc := s'.rAcc, rCnt := s'.rCnt, pos := s'.pos, sink := s.sink ++ syms.map symByte
                    stopReason := .eot, rsp := 0x0001, busy := false } := by
  have inv := fresh_inv hc
  obtain ⟨s1, fuel1, hb1, ht, hsink, ok1, hfuel, hloop⟩ :=
    decodeLoop_reads (s := decodeStart c s) (rest := unit ++ more) hc syms inv hreads hne
      (by rw [decodeStart_bitsIn, hb, List.append_assoc]) (Nat.le_refl _)
  subst ht
  obtain ⟨s2, hb2, ok2, hend⟩ := decodeLoop_eot (s := s1) hc (hreads.inv hc inv).toTreeShape hunit hb1 (hb1.symm ▸ hfuel)
  have hs2 := decoded_state ok1 ok2 rfl hsink
  obtain ⟨-, hcnt, hpos⟩ := ok1.trans ok2.decodeOk
  refine ⟨stopDecoding .eot s2, by rw [runDecstream_eq, hloop, hend], hb2, hcnt (Nat.zero_le _), hpos, ?_⟩
  conv_lhs => rw [hs2]
  rfl

/-- R62, R70: a read side with fewer than eight bits before those of the last bytes of the source has pulled exactly the bytes in
front of them. -/
theorem pos_of_bitsIn {s : State} {front extra : List Byte} {pad : List Bool} (hsrc : s.source = front ++ extra)
    (hpos : SourceInv s) (hcnt : s.rCnt.val ≤ 7) (hb : bitsIn s = pad ++ extra.flatMap byteBits)
    (hpad : pad.length ≤ 7) : s.pos = front.length := by
  have hleft : s.rCnt.val + 8 * (s.source.length - s.pos) = pad.length + 8 * extra.length := by
    have h := bitsIn_length s
    rw [hb, List.length_append, flatMap_byteBits_length] at h
    exact h.symm
  have hlen : s.source.length = front.length + extra.length := by rw [hsrc, List.length_append]
  have := hpos
  omega

/-! ### The round trip -/

/-- R177, R167: a byte read as a symbol is put as the same byte. -/
theorem symByte_ofByte (v : Byte) : symByte (Symbol.ofByte v) = v := BitVec.eq_of_toNat_eq (Nat.mod_eq_of_lt v.isLt)

theorem map_symByte_ofByte (l : List Byte) : (l.map Symbol.ofByte).map symByte = l := by
  rw [List.map_map]
  exact List.map_id'' symByte_ofByte l

theorem eot_notMem_ofByte (l : List Byte) : Symbol.eot ∉ l.map Symbol.ofByte := by
  intro h
  obtain ⟨v, -, hv⟩ := List.mem_map.1 h
  exact ofByte_ne_eot v hv

/-- R205, for every configuration: `DECSTREAM` turns the bytes of a completed `ENCSTREAM` back into the bytes encoded, stops at
their end whatever follows, and is one update behind the encoder's tree (R180 (c)). -/
theorem runDecstream_of_encstream {c : Config} (hc : c.Valid) {s s' u : State} {bytes extra : List Byte}
    (hrun : (runEncstream c () s).outcome = .next s') (hok : s'.rsp = 0x0000) (hsink : s'.sink = s.sink ++ bytes)
    (hsrc : u.source = bytes ++ extra) (hpos : u.pos = 0) :
    ∃ u', runDecstream c () u = .ended u' ∧ update c u'.tree Symbol.eot = .ok s'.tree ∧
      u' = { u with tree := u'.tree, rAcc := u'.rAcc, rCnt := u'.rCnt, pos := bytes.length
                    sink := u.sink ++ s.source.drop s.pos, stopReason := .eot, rsp := 0x0001, busy := false } := by
  have inv := fresh_inv hc
  obtain ⟨bits, unit, pad, t, put, hwrites, hcode, hup, hput, hbits, hpad⟩ := encstream_completed hc hrun hok
  obtain rfl : put = bytes := List.append_cancel_left (hput.symm.trans hsink)
  have hreads := hwrites.reads hc inv
  have hunit := codeBits_isUnit hc (hreads.inv hc inv).toTreeShape hcode
  have hinput : (u.source.drop u.pos).flatMap byteBits = bits ++ unit ++ (pad ++ extra.flatMap byteBits) := by
    rw [hpos, List.drop_zero, hsrc, List.flatMap_append, hbits, List.append_assoc]
  obtain ⟨u', hdec, hmore, hcnt, hinv, hu'⟩ := runDecstream_eot hc (eot_notMem_ofByte _) hreads hunit hinput
  have htree : u'.tree = t := congrArg State.tree hu'
  have hsrc' : u'.source = put ++ extra := (congrArg State.source hu').trans hsrc
  have hpos' : u'.pos = put.length :=
    pos_of_bitsIn hsrc' (hinv (hpos.le.trans (Nat.zero_le _))) hcnt hmore hpad
  rw [map_symByte_ofByte, ← htree, hpos'] at hu'
  exact ⟨u', hdec, htree ▸ hup, hu'⟩

/-- Settles O45: the round trip on this hardware, no fault latched on either engine. -/
theorem roundTrip : Obligations.RoundTrip := by
  intro s s' u bytes extra hs hrun hok hsink hu hsrc hpos
  rw [exec_encstream hs] at hrun
  obtain ⟨u', hdec, hrest⟩ := runDecstream_of_encstream ahteValid hrun hok hsink hsrc hpos
  exact ⟨u', by rw [exec_decstream hu, hdec]; rfl, hrest⟩

end Sys2Proof.Machine
end

section
/-! PROOFS. The command port (30_encoding.md): decoder and encoder (O1, O2), the worked encodings (O3), the tests of a word in their
order (O4), the execution of the decoded word (O5, O6), the operand ranges (O8), and the values of a response (O50). -/

namespace Sys2Proof

/-! ### Rows, opcodes and operands (R83) -/

@[simp] theorem selectRow_opcode_argument (i : Instr) : selectRow i.opcode i.argument = some i := by
  cases i <;> rfl

/-- R83: the opcode of the row selected, and its operand where it has one. -/
theorem opcode_argument_of_selectRow {opc : BitVec 4} {arg : Arg} {i : Instr} (h : selectRow opc arg = some i) :
    i.opcode = opc ∧ (i.takesNoOperand = false → i.argument = arg) := by
  unfold selectRow at h
  split at h <;> cases h
  all_goals
    next hopc => exact ⟨BitVec.eq_of_toNat_eq hopc.symm, by simp [Instr.takesNoOperand, Instr.argument]⟩

/-- R86: the opcodes that select no row. -/
theorem selectRow_eq_none_iff (opc : BitVec 4) (arg : Arg) :
    selectRow opc arg = none ↔ opc.toNat = 0 ∨ 10 ≤ opc.toNat := by
  unfold selectRow
  split
  case h_10 =>
    simp only [imp_false, true_iff] at *
    omega
  all_goals simp [*]

theorem argument_of_takesNoOperand {i : Instr} (h : i.takesNoOperand = true) : i.argument = 0 := by
  cases i with
  | treset | wflush | rdbit | encstream | decstream => rfl
  | pathof | update | wrbit | encode => cases h

theorem takesNoOperand_iff_opcode (i : Instr) :
    i.takesNoOperand = true ↔ i.opcode.toNat = 1 ∨ i.opcode.toNat = 5 ∨ i.opcode.toNat = 6 ∨ i.opcode.toNat = 8 ∨
      i.opcode.toNat = 9 := by
  cases i <;> simp [Instr.takesNoOperand, Instr.opcode]

/-! ### Decoder and encoder -/

/-- R80, R83: the three fields of a command's word. -/
theorem fields_encode (i : Instr) :
    opcField (encode i) = i.opcode ∧ rsvField (encode i) = 0 ∧ argField (encode i) = i.argument :=
  fields_append ..

/-- R87: the tests of the decoder after a row is selected. -/
theorem decode_of_row {w : Word} {i : Instr} (hrow : selectRow (opcField w) (argField w) = some i) :
    decode w = if rsvField w = 0 ∧ (i.takesNoOperand = true → argField w = 0) then .ok i
      else .error .reservedNonzero := by
  unfold decode
  rw [hrow]
  by_cases hrsv : rsvField w = 0
  · by_cases hno : i.takesNoOperand = true <;> simp [hrsv, hno]
  · exact (if_pos hrsv).trans (if_neg fun h => hrsv h.1).symm

theorem decode_eq_ok_iff {w : Word} {i : Instr} :
    decode w = .ok i ↔ selectRow (opcField w) (argField w) = some i ∧ rsvField w = 0 ∧
      (i.takesNoOperand = true → argField w = 0) := by
  constructor
  · intro h
    cases hrow : selectRow (opcField w) (argField w) with
    | none =>
      unfold decode at h
      rw [hrow] at h
      cases h
    | some j =>
      rw [decode_of_row hrow] at h
      split at h <;> cases h
      exact ⟨rfl, ‹_›⟩
  · rintro ⟨hrow, htests⟩
    rw [decode_of_row hrow, if_pos htests]

/-- A word that decodes has the fields that the encoder gives its command. -/
theorem fields_of_decode {w : Word} {i : Instr} (h : decode w = .ok i) :
    opcField w = i.opcode ∧ rsvField w = 0 ∧ argField w = i.argument := by
  obtain ⟨hrow, hrsv, hzero⟩ := decode_eq_ok_iff.1 h
  obtain ⟨hopc, harg⟩ := opcode_argument_of_selectRow hrow
  refine ⟨hopc.symm, hrsv, ?_⟩
  cases hno : i.takesNoOperand with
  | false => exact (harg hno).symm
  | true => rw [hzero hno, argument_of_takesNoOperand hno]

/-- Settles O1: the fields of the encoded word pass the decoder's tests and select the command's row. -/
theorem decodeInvertsEncode : Obligations.DecodeInvertsEncode := by
  intro i
  obtain ⟨hopc, hrsv, harg⟩ := fields_encode i
  refine decode_eq_ok_iff.2 ⟨?_, hrsv, fun hno => ?_⟩
  · rw [hopc, harg, selectRow_opcode_argument]
  · rw [harg, argument_of_takesNoOperand hno]

/-- Settles O2: a word is its three fields, and these are the encoded word's. -/
theorem encodeInvertsDecode : Obligations.EncodeInvertsDecode := by
  intro w i h
  obtain ⟨hopc, hrsv, harg⟩ := fields_of_decode h
  rw [← word_of_fields w, hopc, hrsv, harg]
  rfl

end Sys2Proof

namespace Sys2Proof.Machine

open Sys2Proof

/-! ### A word is run -/

theorem step_command {s : State} {w : Word} {rest : List HostMove} (h : s.host = .command w :: rest)
    (idle : s.busy = false) : step s = runWord w { s with host := rest, busy := true } := by
  unfold step serveMove
  rw [h]
  exact if_neg (by rw [idle]; exact Bool.false_ne_true)

theorem step_withFetchWord (s : State) (n w : Nat) :
    step (s.withFetchWord n w) = runWord (BitVec.ofNat 16 (w % 2 ^ n)) { s with busy := true } :=
  step_command rfl rfl

theorem runWord_of_decode_ok {w : Word} {i : Instr} (h : decode w = .ok i) (s : State) : runWord w s = exec i s := by
  unfold runWord
  rw [h]

theorem runWord_of_decode_error {w : Word} {r : Reject} {s : State} (h : decode w = .error r) (hf : s.fault = false) :
    runWord w s = .next (refuse (RefuseReason.ofReject r) s) := by
  unfold runWord
  rw [h, hf]
  rfl

theorem decode_of_decodeTableWord {n w : Nat} {i : Instr} (h : decodeTableWord n w = some i) :
    decode (BitVec.ofNat 16 (w % 2 ^ n)) = .ok i := by
  unfold decodeTableWord at h
  split at h <;> cases h
  assumption

/-- Settles O5. -/
theorem stepRunsTheDecodedWord : Obligations.StepRunsTheDecodedWord := by
  intro s w rest i hhost idle hdec
  rw [step_command hhost idle, runWord_of_decode_ok hdec]

/-- Settles O6. -/
theorem placedWordRunsNext : Obligations.PlacedWordRunsNext := by
  intro s w i h
  rw [step_withFetchWord, runWord_of_decode_ok (decode_of_decodeTableWord h)]

/-! ### Operands out of range, rejected words -/

/-- Settles O8: each refusal, its response word written out. -/
theorem operandsOutOfRangeAreRefused : Obligations.OperandsOutOfRangeAreRefused := by
  intro s a hf
  exact refuse_eq .operandRange s ▸ exec_out_of_range hf a

/-- R84 by opcode: the three ranges of an operand. -/
theorem exec_operandRange {s : State} {i : Instr} (hf : s.fault = false)
    (h : i.opcode.toNat = 2 ∧ s.tree.nLive ≤ i.argument.toNat ∨
      (i.opcode.toNat = 3 ∨ i.opcode.toNat = 7) ∧ 256 < i.argument.toNat ∨
      i.opcode.toNat = 4 ∧ 1 < i.argument.toNat) :
    exec i s = .next (refuse .operandRange s) := by
  obtain ⟨hpathof, hupdate, hencode, hwrbit⟩ := exec_out_of_range hf i.argument
  cases i with
  | pathof n => exact hpathof (by simpa [Instr.opcode] using h)
  | update a => exact hupdate (by simpa [Instr.opcode] using h)
  | encode a => exact hencode (by simpa [Instr.opcode] using h)
  | wrbit b => exact hwrbit (by simpa [Instr.opcode] using h)
  | treset | wflush | rdbit | encstream | decstream => simp [Instr.opcode] at h

theorem step_withFetchWord_rejected {s : State} {w : Nat} {r : Reject} (hf : s.fault = false)
    (h : decode (BitVec.ofNat 16 (w % 2 ^ 16)) = .error r) :
    step (s.withFetchWord 16 w) =
      .next { s with rsp := BitVec.ofNat 16 (0x2000 + (RefuseReason.ofReject r).code.toNat), busy := false } := by
  rw [step_withFetchWord, runWord_of_decode_error (s := { s with busy := true }) h hf, refuse_eq]

/-- Settles O3: the table's command words by evaluating the decoder; of its illegal words three the decoder rejects, and two decode
to a command whose operand is out of range. -/
theorem workedEncodings : Obligations.WorkedEncodings := by
  refine ⟨by decide, by decide, by decide, by decide, by decide, by decide, by decide, by decide, by decide, by decide,
    by decide, fun s hf => ⟨?_, ?_, ?_, ?_, ?_⟩⟩
  · exact step_withFetchWord_rejected (r := .illegalOpcode) hf (by decide)
  · rw [placedWordRunsNext s 0x3101 (.update 257) (by decide)]
    obtain ⟨-, hupdate, -, -⟩ := operandsOutOfRangeAreRefused { s with busy := true } 257 hf
    exact hupdate (by decide)
  · exact step_withFetchWord_rejected (r := .reservedNonzero) hf (by decide)
  · exact step_withFetchWord_rejected (r := .reservedNonzero) hf (by decide)
  · rw [placedWordRunsNext s 0x4002 (.wrbit 2) (by decide)]
    obtain ⟨-, -, -, hwrbit⟩ := operandsOutOfRangeAreRefused { s with busy := true } 2 hf
    exact hwrbit (by decide)

/-! ### The tests in their order (R87) -/

/-- R86: past the test of the opcode a row is selected, and it is that opcode's. -/
theorem exists_row {w : Word} (hopc : ¬ (w.toNat / 4096 = 0 ∨ 10 ≤ w.toNat / 4096)) :
    ∃ i, selectRow (opcField w) (argField w) = some i ∧ i.opcode.toNat = w.toNat / 4096 := by
  rw [← opcField_toNat, ← selectRow_eq_none_iff _ (argField w)] at hopc
  obtain ⟨i, hrow⟩ := Option.ne_none_iff_exists'.1 hopc
  exact ⟨i, hrow, by rw [(opcode_argument_of_selectRow hrow).1, opcField_toNat]⟩

theorem rsvField_eq_zero_iff (w : Word) : rsvField w = 0 ↔ w.toNat / 1024 % 4 = 0 := by
  rw [← BitVec.toNat_inj, rsvField_toNat]
  rfl

theorem argField_eq_zero_iff (w : Word) : argField w = 0 ↔ w.toNat % 1024 = 0 := by
  rw [← BitVec.toNat_inj, argField_toNat]
  rfl

/-- Settles O4, test by test: the latched fault; the opcode, after which a row `i` is selected; the two reserved fields, after which
the word decodes to `i`; the three operand ranges, as `exec` tests them. -/
theorem wordsAreTestedInOrder : Obligations.WordsAreTestedInOrder := by
  intro s w rest hhost idle opc rsv arg refusedWith
  let s1 : State := { s with host := rest, busy := true }
  have hstep : step s = runWord w s1 := step_command hhost idle
  have refused (r : RefuseReason) (h : runWord w s1 = .next (refuse r s1)) : refusedWith r.code.toNat := by
    show step s = _
    rw [hstep, h, refuse_eq]
  by_cases hfault : s.fault = true
  · rw [if_pos hfault]
    exact refused .faultLatched (runWord_fault w hfault)
  rw [if_neg hfault]
  have hf : s1.fault = false := Bool.eq_false_of_not_eq_true hfault
  by_cases hill : opc = 0 ∨ 10 ≤ opc
  · rw [if_pos hill]
    exact refused .illegalOpcode (runWord_illegal ((selectRow_eq_none_iff _ _).2 (by rwa [opcField_toNat])) hf)
  rw [if_neg hill]
  obtain ⟨i, hrow, hopc⟩ := exists_row hill
  obtain ⟨hreserved, hnonzero, -⟩ := runWord_row (s := s1) hrow hf
  have hno : i.takesNoOperand = true ↔ opc = 1 ∨ opc = 5 ∨ opc = 6 ∨ opc = 8 ∨ opc = 9 := by
    simpa only [hopc] using takesNoOperand_iff_opcode i
  by_cases hrsv : rsv ≠ 0
  · rw [if_pos hrsv]
    exact refused .reservedNonzero (hreserved ((rsvField_eq_zero_iff w).not.2 hrsv))
  rw [if_neg hrsv]
  have hrsv0 : rsvField w = 0 := (rsvField_eq_zero_iff w).2 (not_not.1 hrsv)
  by_cases hzero : (opc = 1 ∨ opc = 5 ∨ opc = 6 ∨ opc = 8 ∨ opc = 9) ∧ arg ≠ 0
  · rw [if_pos hzero]
    exact refused .reservedNonzero (hnonzero hrsv0 (hno.2 hzero.1) ((argField_eq_zero_iff w).not.2 hzero.2))
  rw [if_neg hzero]
  have hdec : decode w = .ok i := decode_eq_ok_iff.2 ⟨hrow, hrsv0, fun h =>
    (argField_eq_zero_iff w).2 (by_contra fun hne => hzero ⟨hno.1 h, hne⟩)⟩
  have harg : i.argument.toNat = arg := by rw [← (fields_of_decode hdec).2.2, argField_toNat]
  have hrun : runWord w s1 = exec i s1 := runWord_of_decode_ok hdec s1
  have hrange := exec_operandRange (i := i) hf
  rw [hopc, harg, ← hrun] at hrange
  split_ifs with hnode hsymbol hbit
  · exact refused .operandRange (hrange (.inl hnode))
  · exact refused .operandRange (hrange (.inr (.inl hsymbol)))
  · exact refused .operandRange (hrange (.inr (.inr hbit)))
  · exact ⟨i, hopc, harg, hstep.trans hrun⟩

/-! ### Responses (R88, R89) -/

@[simp] theorem rspStatus_response (st : Status) (v : BitVec 10) : rspStatus (response st v) = st.code :=
  (fields_append st.code 0 v).1

/-- R88: an `OK` response, as a number, is its value. -/
theorem response_ok_toNat (v : BitVec 10) : (response .ok v).toNat = v.toNat := by
  unfold response
  rw [BitVec.toNat_append]
  simp [Status.code]

/-- R103, U45: the loop takes at most `fuel` steps, on any tree. -/
theorem sidesUp_length_le {t : CodeTree} {fuel i : Nat} {bits : List Bool} (h : sidesUp t fuel i = .ok bits) :
    bits.length ≤ fuel := by
  induction fuel generalizing i bits with
  | zero =>
    unfold sidesUp at h
    obtain ⟨n, -, h⟩ := bind_eq_ok.1 h
    split at h <;> cases h
    exact Nat.le_refl 0
  | succ fuel ih =>
    unfold sidesUp at h
    obtain ⟨n, -, h⟩ := bind_eq_ok.1 h
    split at h
    · cases h
      exact Nat.zero_le _
    · obtain ⟨b, -, h⟩ := bind_eq_ok.1 h
      obtain ⟨rest, hrest, h⟩ := bind_eq_ok.1 h
      cases h
      exact Nat.succ_le_succ (ih hrest)

theorem pathOf_length_le {c : Config} {t : CodeTree} {n : Nat} {bits : List Bool} (h : pathOf c t n = .ok bits) :
    bits.length ≤ c.maxDepth := by
  obtain ⟨sides, hsides, h⟩ := bind_eq_ok.1 h
  cases h
  rw [List.length_reverse]
  exact sidesUp_length_le hsides

/-- R166 to R169: `ENCSTREAM` answers `OK` with 0 or a fault. -/
theorem encstream_rsp {c : Config} (hc : c.Valid) {s s' : State} (h : (runEncstream c () s).outcome = .next s') :
    s'.rsp = response .ok 0 ∨ ∃ code : FaultCode, s'.rsp = response .fault code.code := by
  rcases encstream_run hc s with ⟨_, _, -, he⟩ | ⟨_, _, _, _, _, _, code, -, -, -, -, -, he⟩ |
    ⟨_, _, _, code, -, -, -, -, he⟩
  all_goals rw [he] at h; cases h
  · exact .inl rfl
  · exact .inr ⟨code, rfl⟩
  · exact .inr ⟨code, rfl⟩

/-- R172, R89: a decoding ends with its stop reason latched and answered, or with a fault. -/
theorem DecodeEnd.rsp {c : Config} {t : CodeTree} {rest : List Bool} {s e : State} (h : DecodeEnd c t rest s e) :
    (e.stopReason ≠ .none ∧ e.rsp = response .ok e.stopReason.code) ∨
      ∃ code : FaultCode, e.rsp = response .fault code.code := by
  cases h with
  | eot | eoiDescent | eoiLiteral => exact .inl ⟨by simp [stopDecoding], rfl⟩
  | badLiteral => exact .inr ⟨_, rfl⟩
  | updateFault _ _ _ code => exact .inr ⟨code, rfl⟩

theorem decstream_rsp {c : Config} (hc : c.Valid) {s s' : State} (h : (runDecstream c () s).outcome = .next s') :
    (s'.stopReason ≠ .none ∧ s'.rsp = response .ok s'.stopReason.code) ∨
      ∃ code : FaultCode, s'.rsp = response .fault code.code := by
  obtain ⟨_, _, _, e, -, -, -, -, -, hend, he⟩ :=
    decodeLoop_total hc (s := decodeStart c s) (fresh_inv hc) (Nat.le_refl _)
  rw [runDecstream_eq, he] at h
  cases h
  exact hend.rsp

/-- Settles O50, by the ways a command can end (`exec_cases`), in that order: the refusal, TRESET, PATHOF, UPDATE, WRBIT, WFLUSH,
RDBIT, ENCODE, ENCSTREAM, DECSTREAM. -/
theorem responseValues : Obligations.ResponseValues := by
  intro i s s' _ h
  rcases exec_cases h with ⟨r, rfl⟩ | ⟨-, ⟨rfl, rfl⟩ | ⟨n, bits, rfl, hpath, rfl⟩ | ⟨a, sym, rfl, hrun⟩ | ⟨a, b, rfl, rfl⟩ |
    ⟨rfl, rfl⟩ | ⟨rfl, hrun⟩ | ⟨a, sym, rfl, hrun⟩ | ⟨rfl, hrun⟩ | ⟨rfl, hrun⟩⟩
  · simp [Status.code]
  · simp [Status.code, response, rspStatus]
  · have hlen : bits.length ≤ 256 := pathOf_length_le hpath
    have hmod : bits.length % 1024 = bits.length := Nat.mod_eq_of_lt (by omega)
    simp [Status.code, response_ok_toNat, hlen, hmod]
  · rcases runUpdate_cases hrun with ⟨t, rfl⟩ | ⟨code, rfl⟩
    · simp [Status.code, response, rspStatus]
    · simp [Status.code]
  · simp [Status.code, response, rspStatus]
  · simp [Status.code, response, rspStatus]
  · rcases runRdbit_cases hrun with rfl | ⟨b, s1, hread, rfl⟩
    · simp [Status.code, response, rspStatus]
    · have hbit := (readBit_bit_at hread).2
      cases b <;> simp [Status.code, response, rspStatus, ← hbit]
  · rcases runEncode_cases hrun with ⟨t, bits, rfl⟩ | ⟨code, bits, rfl⟩
    · simp [Status.code, response, rspStatus]
    · simp [Status.code]
  · rcases encstream_rsp ahteValid hrun with hok | ⟨code, hfault⟩
    · simp [hok, Status.code, response, rspStatus]
    · simp [hfault, Status.code]
  · rcases decstream_rsp ahteValid hrun with ⟨hstop, hok⟩ | ⟨code, hfault⟩
    · simp [hok, hstop, Status.code, response_ok_toNat]
    · simp [hfault, Status.code]

end Sys2Proof.Machine
end

section
/-! PROOFS. The CodeTree (40_codetree.md): its three commands (O14, O16, O17, O24, O25), paths (O18), the leader and the exchange
(O19, O21, O22, O23, O54), the split (O20), one symbol repeated (O48), and that a stream command sees the remaining source alone
(O47). What the leader of a node can be is proved once, of every tree on which a step of a walk may start (`StepTree`). -/

namespace Sys2Proof.Machine

open Sys2Proof

variable {c : Config} {t t' : CodeTree}

/-! ### What an entry says of the tree -/

theorem bound_of_leaf {sym : Symbol} {leaf : Nat} (h : t.sym2leaf[sym.val] = some leaf) : t.Bound sym := by
  rw [CodeTree.Bound, h]
  exact Option.some_ne_none leaf

theorem TreeShape.exists_parent (h : TreeShape c t) {i : Nat} (hi : i < t.nLive) (hi0 : i ≠ 0) :
    ∃ p, (t.N i).parent = some p :=
  Option.ne_none_iff_exists'.1 (mt (h.parent_none i hi).1 hi0)

/-! ### TRESET and UPDATE -/

/-- Settles O16. -/
theorem tresetResult : Obligations.TresetResult := by
  intro s hf
  rw [exec_treset hf, runTreset, treeReset_eq_fresh]
  rfl

/-- R117: a completed update. -/
theorem exec_update_of_ok {s : State} {a : Arg} {sym : Symbol} (hf : s.fault = false) (ha : a.toNat = sym.val)
    (h : update Config.ahte s.tree sym = .ok t) :
    exec (.update a) s = .next { s with tree := t, rsp := 0x0000, busy := false } := by
  rw [exec_update hf ha, runUpdate, updateTree_ok h]
  rfl

/-- R117, R228: a fault of the hardware raised by the update. -/
theorem exec_update_of_raise {s : State} {a : Arg} {sym : Symbol} {code : FaultCode} (hf : s.fault = false)
    (ha : a.toNat = sym.val) (h : update Config.ahte s.tree sym = .error (.raise code)) :
    exec (.update a) s = .next (raiseFault code s) := by
  rw [exec_update hf ha, runUpdate, updateTree, h]
  rfl

/-- Settles O14: the two faults of `update`, the weight tested first. -/
theorem updateFaults : Obligations.UpdateFaults := fun _ _ sym hf inv ha =>
  ⟨fun hw => exec_update_of_raise hf ha (update_weightOverflow inv sym hw),
    fun hw hs hno => exec_update_of_raise hf ha (update_nodeTableOverflow inv sym hw hs hno)⟩

/-- Settles O24: what `Updated` says of a bound symbol. -/
theorem updateOfABoundSymbol : Obligations.UpdateOfABoundSymbol := by
  intro s a sym leaf hf inv ha hs hw
  obtain ⟨t, hu, U⟩ := update_ok ahteValid inv sym ⟨hw, .inl (bound_of_leaf hs)⟩
  obtain ⟨hlive, hnyt, hnext, hsyms, -⟩ := U.bound leaf hs
  have hstart : (s.tree.sym2leaf[sym.val]).getD s.tree.nyt = leaf := by rw [hs]; rfl
  exact ⟨t, exec_update_of_ok hf ha hu, U.inv, U.inv.root_zero.trans inv.root_zero.symm, hlive, hnyt, hnext, hsyms, U.symbol,
    hstart ▸ U.on_path, hstart ▸ U.off_path⟩

/-- Settles O25: what `Updated` says of a symbol without a leaf; the new leaf's symbol is read off the invariants of the new tree. -/
theorem updateOfANewSymbol : Obligations.UpdateOfANewSymbol := by
  intro s a sym hf inv ha hs hroom hw
  obtain ⟨t, hu, U⟩ := update_ok ahteValid inv sym ⟨hw, .inr hroom⟩
  obtain ⟨hlive, hnyt, hnext, hleaf, hweight⟩ := U.new hs
  obtain ⟨-, -, hsym⟩ := (U.inv.sym2leaf_iff sym s.tree.nLive).1 hleaf
  have hstart : (s.tree.sym2leaf[sym.val]).getD s.tree.nyt = s.tree.nyt := by rw [hs]; rfl
  exact ⟨t, exec_update_of_ok hf ha hu, U.inv, U.inv.root_zero.trans inv.root_zero.symm, hlive, hnyt, hnext, hleaf, hsym, hweight,
    U.sym2leaf, U.symbol, hstart ▸ U.on_path, hstart ▸ U.off_path⟩

/-! ### Paths and PATHOF -/

/-- Settles O17. -/
theorem pathofResult : Obligations.PathofResult := by
  intro s n hf inv hn
  obtain ⟨bits, hpath, hlen, hdown⟩ := inv.toTreeShape.pathOf_spec ahteValid hn
  have hlen : bits.length ≤ 256 := hlen
  have hrsp : response .ok (BitVec.ofNat 10 bits.length) = BitVec.ofNat 16 bits.length :=
    BitVec.eq_of_toNat_eq (by simp only [response_ok_toNat, BitVec.toNat_ofNat]; omega)
  refine ⟨bits, hlen, inv.root_zero.symm ▸ hdown, ?_⟩
  rw [exec_pathof hf hn, runPathof, hpath, ← hrsp]
  rfl

/-- R191: the one-node tree is the tree without bound symbols. -/
theorem TreeShape.nyt_eq_root_iff (h : TreeShape c t) : t.nyt = t.root ↔ ∀ sym : Symbol, t.sym2leaf[sym.val] = none := by
  have hcount : t.nyt = t.root ↔ t.boundCount = 0 := by
    have h1 := h.root_zero
    have h2 := h.nyt_last
    have h3 := h.nLive_eq
    omega
  rw [hcount, CodeTree.boundCount, List.countP_eq_zero]
  simp

/-- R104 (b): on the one-node tree a code is a literal. -/
theorem TreeShape.codeBits_of_nyt_eq_root (h : TreeShape c t) (hc : c.Valid) (hroot : t.nyt = t.root) (sym : Symbol) :
    codeBits c t sym = .ok (literalBits sym) := by
  have hpath : pathOf c t t.nyt = .ok [] := by
    rw [hroot, h.root_zero]
    exact h.pathOf_of_descend hc (descend_nil t 0)
  unfold codeBits
  rw [h.nyt_eq_root_iff.1 hroot sym]
  simp only [hpath, ok_bind, List.nil_append]

/-- R104 (d). -/
theorem TreeShape.not_prefix_of_leaves (h : TreeShape c t) (hc : c.Valid) {m n : Nat} {p q : List Bool} (hm : m < t.nLive)
    (hn : n < t.nLive) (hmn : m ≠ n) (hleaf : (t.N m).left = none) (hp : pathOf c t m = .ok p) (hq : pathOf c t n = .ok q) :
    ¬ p <+: q := by
  rintro ⟨more, rfl⟩
  obtain ⟨p', hp', -, hdm⟩ := h.pathOf_spec hc hm
  obtain ⟨q', hq', -, hdn⟩ := h.pathOf_spec hc hn
  cases hp.symm.trans hp'
  cases hq.symm.trans hq'
  obtain rfl := h.leaf_path_maximal hdm hleaf hdn
  rw [List.append_nil, hdm] at hdn
  exact hmn (Option.some.inj hdn)

/-- Settles O18. -/
theorem pathsFormAPrefixCode : Obligations.PathsFormAPrefixCode := by
  intro c t hc inv
  have h := inv.toTreeShape
  rw [h.root_zero]
  refine ⟨h.pathOf_of_descend hc (descend_nil t 0), h.root_zero ▸ h.nyt_eq_root_iff, fun hroot => ?_, fun _ _ hs => ?_,
    fun n hn => ?_, fun m n p q hm hn hmn hleaf _ hp hq => h.not_prefix_of_leaves hc hm hn hmn hleaf hp hq⟩
  · exact h.codeBits_of_nyt_eq_root hc (hroot.trans h.root_zero.symm)
  · exact h.bound_leaf_not_root hc hs
  · obtain ⟨bits, hpath, -, hdown⟩ := h.pathOf_spec hc hn
    exact ⟨bits, hpath, hdown⟩

/-! ### The leader of a class -/

/-- R112: `q` is a node of `i`'s weight class with the class's largest order. -/
structure IsLeader (t : CodeTree) (i q : Nat) : Prop where
  live : q < t.nLive
  weight : (t.N q).weight = (t.N i).weight
  max : ∀ j, j < t.nLive → (t.N j).weight = (t.N i).weight → (t.N j).order ≤ (t.N q).order

theorem leader_isLeader {i : Nat} (hi : i < t.nLive) : ∃ q, leader t i = .ok q ∧ IsLeader t i q := by
  obtain ⟨q, hlead, hq, hw, -, hmax⟩ := leader_spec hi
  exact ⟨q, hlead, hq, hw, hmax⟩

theorem IsLeader.of_leader {i q : Nat} (hi : i < t.nLive) (h : leader t i = .ok q) : IsLeader t i q := by
  obtain ⟨q', hlead, hq'⟩ := leader_isLeader hi
  cases h.symm.trans hlead
  exact hq'

/-- R112, R193: there is only one. -/
theorem IsLeader.unique {i q q' : Nat} (h : TreeShape c t) (hq : IsLeader t i q) (hq' : IsLeader t i q') : q' = q :=
  h.order_distinct q' q hq'.live hq.live (Nat.le_antisymm (hq.max q' hq'.live hq'.weight) (hq'.max q hq.live hq.weight))

/-- R199 (a). -/
theorem IsLeader.order_le {i q : Nat} (hi : i < t.nLive) (hq : IsLeader t i q) : (t.N i).order ≤ (t.N q).order :=
  hq.max i hi rfl

theorem IsLeader.eq_of_order_le {i q : Nat} (h : TreeShape c t) (hi : i < t.nLive) (hq : IsLeader t i q)
    (ho : (t.N q).order ≤ (t.N i).order) : q = i :=
  h.order_distinct q i hq.live hi (Nat.le_antisymm ho (hq.order_le hi))

/-- R201: the NYT node has the smallest order, so it leads no other node. -/
theorem IsLeader.ne_nyt {i q : Nat} (h : TreeShape c t) (hi : i < t.nLive) (hq : IsLeader t i q) (hn : i ≠ t.nyt) :
    q ≠ t.nyt := by
  rintro rfl
  have h1 := h.nyt_order
  have h2 := (h.order_range i hi).1
  exact hn (hq.eq_of_order_le h hi (by omega)).symm

/-- Settles O19: the leader is unique since orders are distinct (R193), and what `ORD2NODE` names above its order is live and of a
larger order, so of another class. -/
theorem leaderIsTheLargestOrderOfItsClass : Obligations.LeaderIsTheLargestOrderOfItsClass := by
  intro c t i h hi
  obtain ⟨q, hlead, hq⟩ := leader_isLeader hi
  refine ⟨q, hlead, hq.live, hq.weight, hq.max, fun q' hl hw hmax => hq.unique h ⟨hl, hw, hmax⟩,
    (h.ord2node_iff _ q).2 ⟨hq.live, rfl⟩, fun o j ho hj hw => ?_⟩
  obtain ⟨hjl, rfl⟩ := (h.ord2node_iff o j).1 hj
  have := hq.max j hjl hw
  omega

/-! ### The split -/

/-- Settles O20. On this hardware `NEXT_ORDER = 511 − 2k` for `k` bound symbols, of which there are at most 256 while one is
unbound. -/
theorem splitResult : Obligations.SplitResult := by
  intro t sym h hs
  refine ⟨fun hno => if_pos hno, ?_, fun hroom => ?_⟩
  · have h1 : t.nextOrder = (512 : Int) - t.nLive := h.next
    have h2 := h.nLive_eq
    have h3 := boundCount_lt_of_unbound t sym hs
    omega
  · obtain ⟨t', hsplit, S⟩ := split_spec h sym hroom
    refine ⟨t', hsplit, S.nLive, S.root, S.nyt, S.nextOrder, S.leaf, S.newNyt, S.former, S.old, ?_, fun s' hne => ?_, fun o => ?_⟩
    · rw [S.sym2leaf, if_pos rfl]
    · rw [S.sym2leaf, if_neg hne]
    · have hlen : t.ord2node.length = 513 := h.ord2node_length
      have hnext : t.nextOrder = (512 : Int) - t.nLive := h.next
      by_cases ho : o < t.ord2node.length
      · rw [S.ord2node o ho]
        have hleaf : o = t.nextOrder.toNat ↔ (o : Int) = t.nextOrder := by omega
        have hnew : o = (t.nextOrder - 1).toNat ↔ (o : Int) = t.nextOrder - 1 := by omega
        simp only [hleaf, hnew]
        by_cases h1 : (o : Int) = t.nextOrder
        · rw [if_neg (by omega), if_pos h1, if_pos h1]
        · rw [if_neg h1, if_neg h1]
      · have hlen' := S.ord2node_length
        rw [List.getElem?_eq_none (by omega), List.getElem?_eq_none (by omega), if_neg (by omega), if_neg (by omega)]

/-! ### Swap and order exchange -/

/-- The chain above a live node, with nothing in it that does not lead down to the node (R200). -/
theorem TreeShape.ancestors_of_not_above (h : TreeShape c t) (hc : c.Valid) {i a : Nat} (hi : i < t.nLive)
    (ha : ∀ bits, descend t a bits ≠ some i) : ∃ as, ancestors t c.maxDepth i = .ok as ∧ a ∉ as := by
  obtain ⟨as, has, -⟩ := h.ancestors_all (fun _ => True) (fun _ _ _ _ _ => trivial) c.maxDepth i hi (h.pairIndex_le hc hi)
    (fun _ _ => trivial)
  refine ⟨as, has, fun hm => ?_⟩
  obtain ⟨bits, hd⟩ := h.above_of_mem_ancestors hi has hm
  exact ha bits hd

/-- R114, R115: the exchange of two nodes neither of which is above the other is defined. -/
theorem TreeShape.swap_exchange_of_not_above (h : TreeShape c t) (hc : c.Valid) {p q pp qp : Nat} (hp : p < t.nLive)
    (hq : q < t.nLive) (hpp : (t.N p).parent = some pp) (hqp : (t.N q).parent = some qp)
    (hpq : ∀ bits, descend t p bits ≠ some q) (hqp' : ∀ bits, descend t q bits ≠ some p) :
    ∃ t1 t2, swap c t p q = .ok t1 ∧ exchangeOrders t1 p q = .ok t2 ∧ Exchanged p q t t2 := by
  obtain ⟨ap, hap, hq_ap⟩ := h.ancestors_of_not_above hc hp hqp'
  obtain ⟨aq, haq, hp_aq⟩ := h.ancestors_of_not_above hc hq hpq
  have hne : p ≠ q := fun e => hpq [] (congrArg some e)
  exact h.swap_exchange hp hq hne hpp hqp hap haq hq_ap hp_aq

/-- A child pointer whose target may have been traded. -/
theorem map_trade (p q : Nat) (a : Option Nat) :
    a.map (trade p q) = if a = some p then some q else if a = some q then some p else a := by
  cases a with
  | none => rfl
  | some i => simp only [Option.map_some, trade, Option.some.injEq]; split_ifs <;> rfl

/-- Settles O21: the fields of `Exchanged`, each at the two nodes and at the others. -/
theorem swapAndExchangeTradePositions : Obligations.SwapAndExchangeTradePositions := by
  intro c t p q pp qp hc h hp hq hpp hqp hpq hqp'
  obtain ⟨t1, t2, hswap, hexch, e⟩ := h.swap_exchange_of_not_above hc hp hq hpp hqp hpq hqp'
  refine ⟨t1, t2, hswap, hexch, e.nLive, e.root, e.nyt, e.nextOrder, e.sym2leaf, fun i hi => ⟨e.weight i hi, e.symbol i hi⟩,
    ?_, ?_, ?_, ?_, fun i hi hip hiq => ?_, fun i hi => ?_, e.ord2node⟩
  · rw [e.parent p hp, trade_left, hqp]
  · rw [e.parent q hq, trade_right, hpp]
  · rw [e.order p hp, trade_left]
  · rw [e.order q hq, trade_right]
  · rw [e.parent i hi, e.order i hi, trade_other hip hiq]
    exact ⟨rfl, rfl⟩
  · rw [e.left i hi, e.right i hi, map_trade, map_trade]
    exact ⟨rfl, rfl⟩

/-! ### The guard of the exchange -/

/-- R113: the first half of a walk step, once the leader is known. -/
theorem rebalance_of_leader {cur q : Nat} (hcur : cur < t.nLive) (hq : q < t.nLive) (hlead : leader t cur = .ok q) :
    rebalance c t cur = if q ≠ cur ∧ (t.N cur).parent ≠ some q ∧ (t.N q).parent ≠ some cur
      then swap c t cur q >>= fun t1 => exchangeOrders t1 cur q else .ok t := by
  unfold rebalance
  simp only [hlead, ok_bind, nodeAt_of_live hcur, nodeAt_of_live hq]

theorem rebalance_of_guard {cur q : Nat} (hcur : cur < t.nLive) (hq : q < t.nLive) (hlead : leader t cur = .ok q)
    (hguard : q ≠ cur ∧ (t.N cur).parent ≠ some q ∧ (t.N q).parent ≠ some cur) :
    rebalance c t cur = swap c t cur q >>= fun t1 => exchangeOrders t1 cur q := by
  rw [rebalance_of_leader hcur hq hlead, if_pos hguard]

theorem rebalance_of_not_guard {cur q : Nat} (hcur : cur < t.nLive) (hq : q < t.nLive) (hlead : leader t cur = .ok q)
    (hstay : q = cur ∨ (t.N cur).parent = some q ∨ (t.N q).parent = some cur) : rebalance c t cur = .ok t := by
  rw [rebalance_of_leader hcur hq hlead, if_neg]
  rintro ⟨hself, hparent, hchild⟩
  rcases hstay with h | h | h
  exacts [hself h, hparent h, hchild h]

/-- Settles O22. -/
theorem swapGuard : Obligations.SwapGuard := fun _ _ _ _ hcur hq hlead =>
  ⟨rebalance_of_guard hcur hq hlead, rebalance_of_not_guard hcur hq hlead⟩

/-! ### Where the leader can be (R199) -/

/-- A tree on which a step of a walk may start at `cur`: its shape, and the weights of R195 but for `cur` itself, which may weigh
less than its children and may weigh 0. Every live node of a tree that meets the invariants is such a `cur`, and so is the node of
every step of a walk. -/
structure StepTree (c : Config) (t : CodeTree) (cur : Nat) : Prop where
  shape : TreeShape c t
  live : cur < t.nLive
  nyt_weight : (t.N t.nyt).weight = 0
  zero_weight : ∀ i, i < t.nLive → (t.N i).weight = 0 → i = t.nyt ∨ i = cur
  weight_sum : ∀ i, i < t.nLive → i ≠ cur → ∀ l r, (t.N i).left = some l → (t.N i).right = some r →
    (t.N i).weight = (t.N l).weight + (t.N r).weight

theorem TreeInv.stepTree (inv : TreeInv c t) {cur : Nat} (hcur : cur < t.nLive) : StepTree c t cur where
  shape := inv.toTreeShape
  live := hcur
  nyt_weight := inv.nyt_weight
  zero_weight i hi h0 := .inl (inv.zero_weight i hi h0)
  weight_sum i hi _ := inv.weight_sum i hi

theorem WalkInv.stepTree {cur : Nat} (w : WalkInv c t cur) : StepTree c t cur where
  shape := w.shape
  live := w.live
  nyt_weight := w.nyt_weight
  zero_weight := w.zero_weight
  weight_sum i hi hne l r hl hr := by
    have := w.weight_sum i hi l r hl hr
    rwa [if_neg hne] at this

section
variable {cur q : Nat} (T : StepTree c t cur) (hq : IsLeader t cur q)
include T

/-- A parent other than `cur` weighs no less than its child, and the same only above the NYT node (R195). -/
theorem StepTree.parent_weight (hpos : (t.N cur).weight ≠ 0) {i p : Nat} (hi : i < t.nLive) (hpc : p ≠ cur)
    (hp : (t.N i).parent = some p) :
    (t.N i).weight ≤ (t.N p).weight ∧
      ((t.N p).weight = (t.N i).weight → i ≠ t.nyt → (t.N p).left = some t.nyt ∧ (t.N p).right = some i) := by
  refine T.shape.parent_weight (fun j hj h0 => ?_) hi hp (T.weight_sum p (T.shape.parent_internal hi hp).1 hpc)
  exact (T.zero_weight j hj h0).resolve_right fun e => hpos (e ▸ h0)

/-- Downwards to nodes not below `cur` the weights do not grow. -/
theorem StepTree.weight_le_of_descend (hpos : (t.N cur).weight ≠ 0) {i j : Nat} {bits : List Bool} (hi : i < t.nLive)
    (hj : (t.N cur).order ≤ (t.N j).order) (hd : descend t i bits = some j) : (t.N j).weight ≤ (t.N i).weight := by
  induction bits generalizing i with
  | nil => cases hd; exact Nat.le_refl _
  | cons b bits ih =>
    have hlt := T.shape.descend_lt hi (List.cons_ne_nil b bits) hd
    cases hchild : (if b then (t.N i).right else (t.N i).left) with
    | none => simp only [descend, hchild] at hd; cases hd
    | some k =>
      rw [descend_cons_some hchild] at hd
      obtain ⟨hk, hparent⟩ := T.shape.child_live hi hchild
      exact (ih hk hd).trans (T.parent_weight hpos hk (by rintro rfl; omega) hparent).1

/-- R199 (c): of the parent `p` and its parent `g` at most one weighs no more than its child, since only the NYT node's parent does. -/
theorem StepTree.weight_lt_grandparent (hpos : (t.N cur).weight ≠ 0) {p g : Nat} (hp : (t.N cur).parent = some p)
    (hg : (t.N p).parent = some g) : (t.N cur).weight < (t.N g).weight := by
  have h := T.shape
  have hpl := (h.parent_internal T.live hp).1
  have hgl := (h.parent_internal hpl hg).1
  have hpo := h.order_lt_parent T.live hp
  have hgo := h.order_lt_parent hpl hg
  have hcur : cur ≠ t.nyt := by rintro rfl; exact hpos T.nyt_weight
  have hpn : p ≠ t.nyt := by
    rintro rfl
    exact (h.parent_internal T.live hp).2 h.nyt_leaf
  obtain ⟨hle_p, heq_p⟩ := T.parent_weight hpos T.live (by rintro rfl; omega) hp
  obtain ⟨hle_g, heq_g⟩ := T.parent_weight hpos hpl (by rintro rfl; omega) hg
  by_contra hge
  have hnp := (h.left_child p hpl _ (heq_p (by omega) hcur).1).2
  have hng := (h.left_child g hgl _ (heq_g (by omega) hpn).1).2
  cases hnp.symm.trans hng
  omega

include hq

/-- A node of weight 0 leads itself: its class is the node and the NYT node. -/
theorem StepTree.leads_itself_of_zero (h0 : (t.N cur).weight = 0) : q = cur := by
  rcases T.zero_weight q hq.live (hq.weight.trans h0) with rfl | h
  · by_contra hne
    exact hq.ne_nyt T.shape T.live (Ne.symm hne) rfl
  · exact h

/-- R199 (c): a leader above the node is its parent, since whatever is higher up weighs more. -/
theorem StepTree.parent_of_leader_above {bits : List Bool} (hb : bits ≠ []) (hd : descend t q bits = some cur) :
    (t.N cur).parent = some q := by
  have h := T.shape
  have hlt := h.descend_lt hq.live hb hd
  have hpos : (t.N cur).weight ≠ 0 := fun h0 => by
    rw [T.leads_itself_of_zero hq h0] at hlt
    omega
  have hcur0 : cur ≠ 0 := by
    rintro rfl
    have h1 := h.root_order
    have h2 := (h.order_range q hq.live).2
    omega
  obtain ⟨p, hp⟩ := h.exists_parent T.live hcur0
  have hpl := (h.parent_internal T.live hp).1
  have hpo := h.order_lt_parent T.live hp
  have hup : ∃ bits, descend t q bits = some p :=
    ((h.above_iff T.live hq.live hp).1 ⟨bits, hd⟩).resolve_left (by rintro rfl; omega)
  by_contra hqp
  have hne : q ≠ p := by rintro rfl; exact hqp hp
  have hp0 : p ≠ 0 := by
    rintro rfl
    exact hne ((h.above_root hq.live).1 hup)
  obtain ⟨g, hg⟩ := h.exists_parent hpl hp0
  have hgo := h.order_lt_parent hpl hg
  obtain ⟨up, hup'⟩ : ∃ bits, descend t q bits = some g := ((h.above_iff hpl hq.live hg).1 hup).resolve_left hne
  have hle := T.weight_le_of_descend hpos hq.live (by omega) hup'
  have hgrand := T.weight_lt_grandparent hpos hp hg
  have heq := hq.weight
  omega

/-- R199 (d): the parent leads exactly when the sibling weighs nothing and the parent's order is the largest of the class. -/
theorem StepTree.parent_leads_iff {p s : Nat} (hp : (t.N cur).parent = some p) (hne : s ≠ cur)
    (hs : (t.N p).left = some s ∨ (t.N p).right = some s) :
    q = p ↔ (t.N s).weight = 0 ∧ ∀ i, i < t.nLive → (t.N i).weight = (t.N cur).weight → (t.N i).order ≤ (t.N p).order := by
  have h := T.shape
  have hpl := (h.parent_internal T.live hp).1
  have hpc : p ≠ cur := by
    rintro rfl
    exact absurd (h.order_lt_parent T.live hp) (Nat.lt_irrefl _)
  have hsum : (t.N p).weight = (t.N cur).weight + (t.N s).weight := by
    obtain ⟨-, hcl | hcr⟩ := h.child_of_parent cur T.live p hp
    · have hsr := hs.resolve_left fun hsl => hne (Option.some.inj (hsl.symm.trans hcl))
      exact T.weight_sum p hpl hpc cur s hcl hsr
    · have hsl := hs.resolve_right fun hsr => hne (Option.some.inj (hsr.symm.trans hcr))
      exact (T.weight_sum p hpl hpc s cur hsl hcr).trans (Nat.add_comm ..)
  constructor
  · rintro rfl
    have := hq.weight
    exact ⟨by omega, hq.max⟩
  · rintro ⟨hs0, hmax⟩
    exact (hq.unique h ⟨hpl, by omega, hmax⟩).symm

/-- R199 (e): the root's order is the largest. -/
theorem StepTree.root_leads_itself (hroot : cur = t.root) : q = cur := by
  have h1 := T.shape.root_order
  have h2 := (T.shape.order_range q hq.live).2
  refine hq.eq_of_order_le T.shape T.live ?_
  rw [hroot, T.shape.root_zero]
  omega

/-- R199 (f): a leading root is above the node, so it is its parent. -/
theorem StepTree.parent_of_led_by_root (hc : c.Valid) (hroot : q = t.root) (hne : cur ≠ t.root) :
    (t.N cur).parent = some t.root := by
  obtain ⟨bits, -, -, hd⟩ := T.shape.pathOf_spec hc T.live
  rw [← T.shape.root_zero, ← hroot] at hd
  have hb : bits ≠ [] := by
    rintro rfl
    exact hne ((Option.some.inj hd).symm.trans hroot)
  exact hroot ▸ T.parent_of_leader_above hq hb hd

/-- R199 (a) to (f), and that `swap` is never called on operands it has no meaning for. -/
theorem StepTree.leaderIsSafe (hc : c.Valid) : LeaderIsSafe t cur q := by
  have h := T.shape
  have not_below : ∀ bits, bits ≠ [] → descend t cur bits ≠ some q := fun bits hb hd => by
    have h1 := h.descend_lt T.live hb hd
    have h2 := hq.order_le T.live
    omega
  have not_child : (t.N q).parent ≠ some cur := fun hp => by
    have h1 := h.order_lt_parent hq.live hp
    have h2 := hq.order_le T.live
    omega
  have not_root : ∀ i, i < t.nLive → i ≠ t.root → (t.N i).parent ≠ none := fun i hi hne hp =>
    hne (((h.parent_none i hi).1 hp).trans h.root_zero.symm)
  refine ⟨hq.live, hq.order_le T.live, fun e => hq.eq_of_order_le h T.live e.le, not_below, not_child,
    fun _ => T.parent_of_leader_above hq, fun p s => T.parent_leads_iff hq, T.root_leads_itself hq,
    T.parent_of_led_by_root hq hc, fun hqc hqp => ?_⟩
  have hcur : cur ≠ t.root := fun e => hqc (T.root_leads_itself hq e)
  have hqr : q ≠ t.root := fun e => hqp (e ▸ T.parent_of_led_by_root hq hc e hcur)
  refine ⟨not_root cur T.live hcur, not_root q hq.live hqr, fun bits hd => ?_, fun bits hd => ?_⟩
  · by_cases hb : bits = []
    · subst hb; exact hqc (Option.some.inj hd).symm
    · exact not_below bits hb hd
  · by_cases hb : bits = []
    · subst hb; exact hqc (Option.some.inj hd)
    · exact hqp (T.parent_of_leader_above hq hb hd)

end

/-- The first half of a walk step has a result where the leader is safe. -/
theorem LeaderIsSafe.rebalance_ok {cur q : Nat} (safe : LeaderIsSafe t cur q) (h : TreeShape c t) (hc : c.Valid)
    (hcur : cur < t.nLive) (hlead : leader t cur = .ok q) : ∃ t1, rebalance c t cur = .ok t1 := by
  by_cases hstay : q = cur ∨ (t.N cur).parent = some q
  · exact ⟨t, rebalance_of_not_guard hcur safe.live hlead (hstay.imp_right .inl)⟩
  · obtain ⟨hqc, hqp⟩ := not_or.1 hstay
    obtain ⟨hpar, hqpar, hcq, hqc'⟩ := safe.swap_defined hqc hqp
    obtain ⟨pp, hpp⟩ := Option.ne_none_iff_exists'.1 hpar
    obtain ⟨qp, hqpp⟩ := Option.ne_none_iff_exists'.1 hqpar
    obtain ⟨t1, t2, hswap, hexch, -⟩ := h.swap_exchange_of_not_above hc hcur safe.live hpp hqpp hcq hqc'
    refine ⟨t2, ?_⟩
    rw [rebalance_of_guard hcur safe.live hlead ⟨hqc, hqp, safe.not_child⟩, hswap]
    exact hexch

/-- A split that has answered, with what it left and the walk it starts (R109, R110). -/
theorem split_ok {sym : Symbol} {x : Nat} {t1 : CodeTree} (inv : TreeInv c t) (hs : t.sym2leaf[sym.val] = none)
    (h : split t sym = .ok (x, t1)) : x = t.nyt ∧ SplitResult sym t t1 ∧ WalkInv c t1 x := by
  by_cases hno : t.nextOrder < 1
  · rw [split, if_pos hno] at h; cases h
  · obtain ⟨t', hsplit, S⟩ := split_spec inv.toTreeShape sym (by omega)
    cases h.symm.trans hsplit
    exact ⟨rfl, S, S.walkInv inv hs (by omega)⟩

/-- Settles O23. Between commands every live node is a possible start of a step; after a split the former NYT node has weight 0, so it
leads itself. -/
theorem leadersAreNeverDegenerate : Obligations.LeadersAreNeverDegenerate := by
  intro c t hc inv
  refine ⟨fun cur hcur => ?_, fun sym x t1 hs hsplit => ?_⟩
  · obtain ⟨q, hlead, hq⟩ := leader_isLeader hcur
    have safe := (inv.stepTree hcur).leaderIsSafe hq hc
    exact ⟨q, hlead, safe, safe.rebalance_ok inv.toTreeShape hc hcur hlead⟩
  · obtain ⟨rfl, S, w⟩ := split_ok inv hs hsplit
    have hw0 : (t1.N t.nyt).weight = 0 := by rw [S.former]; exact inv.nyt_weight
    obtain ⟨q, hlead, hq⟩ := leader_isLeader w.live
    obtain rfl := w.stepTree.leads_itself_of_zero hq hw0
    refine ⟨rfl, w.not_nyt, w.live, hw0, fun i hi => ?_, hlead, w.stepTree.leaderIsSafe hq hc,
      rebalance_of_not_guard w.live w.live hlead (.inl rfl)⟩
    rw [hw0]
    constructor
    · exact fun h0 => (w.zero_weight i hi h0).symm
    · rintro (rfl | rfl)
      exacts [hw0, w.nyt_weight]

/-- Settles O54: every step of a walk starts in a state of a walk (`OnWalk.walkInv`). -/
theorem leadersOnTheWalk : Obligations.LeadersOnTheWalk := by
  intro c t t' sym cur hc inv hstep
  have w := hstep.walkInv hc inv
  obtain ⟨q, hlead, hq⟩ := leader_isLeader w.live
  obtain ⟨t2, hreb, R⟩ := w.rebalance hc
  exact ⟨w.live, w.not_nyt, q, hlead, hq.ne_nyt w.shape w.live w.not_nyt, w.stepTree.leaderIsSafe hq hc, t2, hreb, R.shape⟩

/-! ### One symbol repeated (R206) -/

/-- The tree of one symbol: three nodes, the symbol's leaf the second. -/
structure OneSymbolTree (c : Config) (sym : Symbol) (t : CodeTree) : Prop where
  inv : TreeInv c t
  nLive : t.nLive = 3
  leaf : t.sym2leaf[sym.val] = some 1

/-- R109: the first update makes it. -/
theorem oneSymbolTree_of_fresh {sym : Symbol} (U : Updated c sym (CodeTree.fresh c) t) : OneSymbolTree c sym t := by
  obtain ⟨hlive, -, -, hleaf, -⟩ := U.new (Vector.getElem_replicate sym.isLt)
  exact ⟨U.inv, hlive, hleaf⟩

namespace OneSymbolTree

variable {sym : Symbol} (O : OneSymbolTree c sym t)
include O

/-- Every further update keeps it. -/
theorem updated (U : Updated c sym t t') : OneSymbolTree c sym t' := by
  obtain ⟨hlive, -, -, hsyms, -⟩ := U.bound 1 O.leaf
  exact ⟨U.inv, hlive.trans O.nLive, by rw [hsyms]; exact O.leaf⟩

theorem nyt_eq : t.nyt = 2 := by
  have h1 := O.inv.nyt_last
  have h2 := O.nLive
  omega

/-- The one internal node is the root: the NYT node on its left, the leaf on its right (R202). -/
theorem children : (t.N 0).left = some 2 ∧ (t.N 0).right = some 1 := by
  have h := O.inv.toTreeShape
  have hlive := O.nLive
  obtain ⟨hl1, hleaf, -⟩ := (h.sym2leaf_iff sym 1).1 O.leaf
  have hparent : ∀ i, i < t.nLive → i ≠ 0 → (t.N i).parent = some 0 := by
    intro i hi hi0
    obtain ⟨p, hp⟩ := h.exists_parent hi hi0
    obtain ⟨hpl, hinternal⟩ := h.parent_internal hi hp
    have h1 : p ≠ 1 := by rintro rfl; exact hinternal hleaf
    have h2 : p ≠ 2 := by rintro rfl; exact hinternal (O.nyt_eq ▸ h.nyt_leaf)
    rw [hp, show p = 0 by omega]
  have hleft : (t.N 0).left = some 2 :=
    O.nyt_eq ▸ (h.bottom 0 (hparent _ h.nyt_live (by rw [O.nyt_eq]; decide))).1
  refine ⟨hleft, ((h.child_of_parent 1 hl1 0 (hparent 1 hl1 (by decide))).2).resolve_left fun e => ?_⟩
  cases hleft.symm.trans e

/-- The symbol's code is the one bit `1`. -/
theorem codeBits_eq (hc : c.Valid) : codeBits c t sym = .ok [true] := by
  unfold codeBits
  rw [O.leaf]
  exact O.inv.toTreeShape.pathOf_of_descend hc ((descend_singleton 0 true).trans O.children.2)

/-- R113: the leaf weighs what the root weighs, so its parent leads it and nothing is exchanged. -/
theorem rebalance_leaf : rebalance c t 1 = .ok t := by
  have h := O.inv.toTreeShape
  obtain ⟨hl1, -, -⟩ := (h.sym2leaf_iff sym 1).1 O.leaf
  have hweight : (t.N 0).weight = (t.N 1).weight := by
    have hsum := O.inv.weight_sum 0 h.root_live 2 1 O.children.1 O.children.2
    have hzero := O.inv.nyt_weight
    rw [O.nyt_eq] at hzero
    omega
  obtain ⟨q, hlead, hq⟩ := leader_isLeader hl1
  obtain rfl : q = 0 := (hq.unique h ⟨h.root_live, hweight, fun j hj _ => h.root_order ▸ (h.order_range j hj).2⟩).symm
  exact rebalance_of_not_guard hl1 hq.live hlead (.inr (.inl (h.right_child 0 h.root_live 1 O.children.2).2))

/-- No other symbol has a leaf. -/
theorem unbound_of_ne {s : Symbol} (hne : s ≠ sym) : t.sym2leaf[s.val] = none := by
  by_contra hb
  have hcount := O.inv.toTreeShape.nLive_eq
  have hlive := O.nLive
  have hcard : ({s, sym} : Finset Symbol).card ≤ (boundSet t).card := by
    refine Finset.card_le_card fun x hx => ?_
    rcases Finset.mem_insert.1 hx with rfl | hx
    · exact mem_boundSet.2 hb
    · rw [Finset.mem_singleton.1 hx]
      exact mem_boundSet.2 (bound_of_leaf O.leaf)
  rw [Finset.card_pair hne, boundSet, ← boundCount_eq_card] at hcard
  omega

end OneSymbolTree

/-- R206: the units of `n + 1` occurrences of one symbol: its literal, then one bit an occurrence. -/
theorem writes_repeated (hc : c.Valid) (sym : Symbol) (n : Nat) (hn : n + 1 ≤ c.weightMax) :
    ∃ t, Writes c (CodeTree.fresh c) (List.replicate (n + 1) sym) (literalBits sym ++ List.replicate n true) t ∧
      OneSymbolTree c sym t ∧ (t.N t.root).weight = n + 1 := by
  have inv := fresh_inv hc
  induction n with
  | zero =>
    have hroom : (CodeTree.fresh c).HasRoom c sym := by
      refine ⟨fun h0 => ?_, .inr ?_⟩
      · have h0 : 0 = c.weightMax := h0
        omega
      · have hnext := inv.next
        rw [fresh_nLive] at hnext
        have hcap := hc.2.1
        unfold Config.orderMax at hnext
        omega
    obtain ⟨t, hu, U⟩ := update_ok hc inv sym hroom
    refine ⟨t, ?_, oneSymbolTree_of_fresh U, by rw [U.inv.root_zero]; exact U.root_weight⟩
    exact ⟨literalBits sym, [], t, inv.toTreeShape.codeBits_of_nyt_eq_root hc rfl sym, hu, ⟨rfl, rfl⟩, rfl⟩
  | succ n ih =>
    obtain ⟨t, hw, O, hweight⟩ := ih (by omega)
    have hroom : t.HasRoom c sym := ⟨by omega, .inl (bound_of_leaf O.leaf)⟩
    obtain ⟨t', hu, U⟩ := update_ok hc O.inv sym hroom
    refine ⟨t', ?_, O.updated U, ?_⟩
    · have := hw.snoc (O.codeBits_eq hc) hu
      rwa [List.append_assoc, ← List.replicate_succ', ← List.replicate_succ'] at this
    · rw [U.inv.root_zero, U.root_weight, ← O.inv.root_zero, hweight]

/-- Settles O48. EOT is a second symbol, for which the arena of this hardware has room. -/
theorem singleRepeatedSymbol : Obligations.SingleRepeatedSymbol := by
  intro v n hn
  have hmax : n + 2 ≤ Config.ahte.weightMax := hn
  obtain ⟨t, hw, O, hweight⟩ := writes_repeated ahteValid (Symbol.ofByte v) n (by omega)
  have heot := O.unbound_of_ne (ofByte_ne_eot v).symm
  have hnext : t.nextOrder = (512 : Int) - t.nLive := O.inv.next
  rw [O.nLive] at hnext
  obtain ⟨t', hu, U⟩ := update_ok ahteValid O.inv Symbol.eot ⟨by omega, .inr (by omega)⟩
  obtain ⟨unit, hcode, -⟩ := codeBits_spec ahteValid O.inv.toTreeShape Symbol.eot
  refine ⟨t, t', unit, hw, O.nLive, O.leaf, O.rebalance_leaf, ?_, ?_⟩
  · exact ⟨unit, [], t', hcode, hu, ⟨rfl, rfl⟩, (List.append_nil unit).symm⟩
  · rw [(U.new heot).1, O.nLive]

/-! ### The stream commands and what was done before them -/

/-- Two flows that go the same way and never leave their command open, as the outcomes of the two commands. -/
theorem Flow.Alike.outcome {R : State → State → Prop} {E : State → Prop} {f1 f2 : Flow} {t1 t2 : State} (h : Flow.Alike R f1 f2)
    (hp : f1.Post (fun _ => False) E) (h1 : f1.outcome = .next t1) (h2 : f2.outcome = .next t2) : R t1 t2 ∧ t1.rsp = t2.rsp := by
  cases f1 with
  | go s1 => exact hp.elim
  | stuck e => cases h1
  | ended s1 =>
    cases f2 with
    | go s2 => exact h.elim
    | stuck e => cases h2
    | ended s2 => cases h1; cases h2; exact h

/-- Settles O47: the two runs of each command are alike (`runEncstream_alike`, `runDecstream_alike`). -/
theorem streamCommandsForgetThePast : Obligations.StreamCommandsForgetThePast := by
  intro s1 s2 t1 t2 hf1 hf2 hleft
  refine ⟨fun h1 h2 => ?_, fun h1 h2 => ?_⟩
  · rw [exec_encstream hf1] at h1
    rw [exec_encstream hf2] at h2
    obtain ⟨same, hrsp⟩ := (runEncstream_alike Config.ahte (hf1.trans hf2.symm) hleft).outcome (runEncstream_idle _ s1) h1 h2
    exact ⟨same.tree, hrsp, same.fault, same.wAcc, same.wCnt, same.sink⟩
  · rw [exec_decstream hf1] at h1
    rw [exec_decstream hf2] at h2
    obtain ⟨same, hrsp⟩ := (runDecstream_alike Config.ahte (hf1.trans hf2.symm) hleft).outcome (runDecstream_idle _ s1) h1 h2
    exact ⟨same.tree, hrsp, same.fault, same.stopReason, same.rAcc, same.rCnt, same.sink⟩

end Sys2Proof.Machine
end

section
/-! PROOFS. The BitChannel (41_bitchannel.md): its three commands (O30, O31, O33), the bytes a sequence of bits becomes (O32) and
the bits a sequence of bytes becomes (O34). `writeBit`, `flush` and `readBit` have one equation per case here. -/

namespace Sys2Proof.Machine

open Sys2Proof

/-! ### The write side -/

/-- R141, before the eighth bit. -/
theorem writeBit_of_room {s : State} {k : Fin 8} (b : Bool) (h : k.val = s.wCnt.val + 1) :
    writeBit b s = { s with wAcc := (s.wAcc <<< 1) ||| bitByte b, wCnt := k } := by
  have hlt : s.wCnt.val + 1 < 8 := h ▸ k.isLt
  obtain rfl : k = ⟨s.wCnt.val + 1, hlt⟩ := Fin.ext h
  exact dif_pos hlt

/-- R141, the eighth bit. -/
theorem writeBit_of_seven {s : State} (b : Bool) (h : s.wCnt.val = 7) :
    writeBit b s = { s with sink := s.sink ++ [(s.wAcc <<< 1) ||| bitByte b], wAcc := 0, wCnt := 0 } :=
  dif_neg (by omega)

/-- R143, nothing pending. -/
theorem flush_of_none_pending {s : State} (h : s.wCnt.val = 0) : flush s = s := if_pos (Fin.ext h)

/-- R143, bits pending. -/
theorem flush_of_pending {s : State} (h : 0 < s.wCnt.val) :
    flush s = { s with sink := s.sink ++ [s.wAcc <<< (8 - s.wCnt.val)], wAcc := 0, wCnt := 0 } :=
  if_neg fun h0 => h.ne' (congrArg Fin.val h0)

/-- Settles O30, by the two cases of `writeBit`; a legal operand is the bit as a byte. -/
theorem wrbitResult : Obligations.WrbitResult := by
  intro s b hf hb
  rw [exec_wrbit hf hb, ← (bitOperand_some hb).2]
  refine ⟨fun k hk => ?_, fun h7 => ?_⟩
  · rw [runWrbit, writeBit_of_room _ hk]
    rfl
  · rw [runWrbit, writeBit_of_seven _ h7]
    rfl

/-- Settles O31, by the two cases of `flush`. -/
theorem wflushResult : Obligations.WflushResult := by
  intro s hf
  rw [exec_wflush hf]
  refine ⟨fun h0 => ?_, fun hpos => ?_⟩
  · rw [runWflush, flush_of_none_pending h0]
    rfl
  · rw [runWflush, flush_of_pending hpos]
    rfl

/-- Settles O32. Whole bytes hold the bits written and the padding (`writeBits_bitsOut`, `flush_bitsOut`); their number is read off
the number of those bits. -/
theorem writeSideBytes : Obligations.WriteSideBytes := by
  intro s bits h0
  obtain ⟨bytes, hsink⟩ := ((writeBits_frame bits s).trans (flush_frame _)).sink
  have hcnt : (writeBits bits s).wCnt.val = bits.length % 8 := by simp [writeBits_wCnt, h0]
  have hout : bytes.flatMap byteBits = bits ++ List.replicate ((8 - bits.length % 8) % 8) false := by
    have h := flush_bitsOut (writeBits bits s)
    rw [← hsink, List.flatMap_append, writeBits_bitsOut, hcnt, List.append_assoc] at h
    simpa [bitsOut, h0] using h
  have hlen : 8 * bytes.length = bits.length + (8 - bits.length % 8) % 8 := by
    rw [← flatMap_byteBits_length, hout, List.length_append, List.length_replicate]
  exact ⟨bytes, hsink.symm, by omega, hout⟩

/-! ### The read side -/

/-- R146, no bit held and a byte to pull. -/
theorem readBit_of_byte {s : State} {v : Byte} (h0 : s.rCnt.val = 0) (hv : s.source[s.pos]? = some v) :
    readBit s = some (v.getLsbD 7, { s with pos := s.pos + 1, rAcc := v, rCnt := 7 }) := by
  unfold readBit refill
  rw [if_pos (Fin.ext h0), srcNext_of_byte hv]
  rfl

/-- R146, no bit held at the end of the source. -/
theorem readBit_of_exhausted {s : State} (h0 : s.rCnt.val = 0) (hend : s.source.length ≤ s.pos) : readBit s = none := by
  unfold readBit refill
  rw [if_pos (Fin.ext h0), srcNext_of_exhausted hend]

/-- R147, a bit read. -/
theorem exec_rdbit_of_bit {s s1 : State} {b : Bool} (hf : s.fault = false) (h : readBit s = some (b, s1)) :
    exec .rdbit s = .next { s1 with rsp := if b then 0x0001 else 0x0000, busy := false } := by
  rw [exec_rdbit hf, runRdbit, h]
  cases b <;> rfl

/-- R147, no bit to read. -/
theorem exec_rdbit_of_none {s : State} (hf : s.fault = false) (h : readBit s = none) :
    exec .rdbit s = .next { s with rsp := 0x1000, busy := false } := by
  rw [exec_rdbit hf, runRdbit, h]
  rfl

/-- Settles O33, by the three cases of `readBit`. -/
theorem rdbitResult : Obligations.RdbitResult := fun _ hf =>
  ⟨fun _ hk => exec_rdbit_of_bit hf (readBit_held hk.symm), fun _ h0 hv => exec_rdbit_of_bit hf (readBit_of_byte h0 hv),
    fun h0 hend => exec_rdbit_of_none hf (readBit_of_exhausted h0 hend)⟩

/-- From an empty read side the bits to come are those of the source. -/
theorem bitsIn_of_none_held {s : State} (h0 : s.rCnt.val = 0) : bitsIn s = (s.source.drop s.pos).flatMap byteBits := by
  rw [bitsIn, h0, lowBits_zero, List.nil_append]

/-- Settles O34: `readBit` takes the first of the bits to come (`readBit_bit`) or finds none (`readBit_eoi`). -/
theorem readSideBits : Obligations.ReadSideBits := by
  intro s hf
  refine ⟨bitsIn_of_none_held, fun hnil => exec_rdbit_of_none hf (readBit_eoi hnil), fun b rest hcons => ?_⟩
  obtain ⟨s1, hread, hrest, hsame, -⟩ := readBit_bit hcons
  refine ⟨_, exec_rdbit_of_bit hf hread, hrest, rfl, ?_⟩
  conv_lhs => rw [hsame]

end Sys2Proof.Machine
end

section
/-! PROOFS. The Codec (42_codec.md): one `encode` (O35, O36, and O15 where its update faults), ENCSTREAM (O37 to O39), DECSTREAM (O41
to O44), both on an exhausted source (O40), and which command raises which fault (O13). Of DECSTREAM it is said once what the state is
when the decoder has read some units and stops (`Decoded`). -/

namespace Sys2Proof.Machine

open Sys2Proof

variable {c : Config} {t : CodeTree}

/-! ### ENCODE -/

theorem TreeShape.descend_of_pathOf (h : TreeShape c t) (hc : c.Valid) {i : Nat} {bits : List Bool} (hi : i < t.nLive)
    (hp : pathOf c t i = .ok bits) : descend t t.root bits = some i := by
  obtain ⟨bits', hp', -, hd⟩ := h.pathOf_spec hc hi
  cases hp.symm.trans hp'
  rw [h.root_zero]
  exact hd

/-- R164: a completed encode. -/
theorem exec_encode_of_ok {s : State} {a : Arg} {sym : Symbol} {unit : List Bool} (hf : s.fault = false)
    (ha : a.toNat = sym.val) (hcode : codeBits Config.ahte s.tree sym = .ok unit)
    (hu : update Config.ahte s.tree sym = .ok t) :
    exec (.encode a) s = .next (respond .ok 0 (setTree t (writeBits unit s))) := by
  have htree := (writeBits_same unit s).tree
  rw [exec_encode hf ha, runEncode, encodeSymbol_eq hcode, updateTree_ok (htree ▸ hu)]
  rfl

/-- R164, R228: a fault of the hardware raised by the encode's update. -/
theorem exec_encode_of_raise {s : State} {a : Arg} {sym : Symbol} {unit : List Bool} {code : FaultCode}
    (hf : s.fault = false) (ha : a.toNat = sym.val) (hcode : codeBits Config.ahte s.tree sym = .ok unit)
    (hu : update Config.ahte s.tree sym = .error (.raise code)) :
    exec (.encode a) s = .next (raiseFault code (writeBits unit s)) := by
  rw [exec_encode hf ha, runEncode, encodeSymbol_eq hcode, updateTree, (writeBits_same unit s).tree, hu]
  rfl

/-- Settles O35: the code bits are the way down to the leaf, or to the NYT node with the literal behind it. -/
theorem encodeResult : Obligations.EncodeResult := by
  intro s a sym hf inv ha hroom
  have h := inv.toTreeShape
  obtain ⟨t, hu, -⟩ := update_ok ahteValid inv sym hroom
  obtain ⟨unit, hcode, -, hbound, hnew⟩ := codeBits_spec ahteValid h sym
  refine ⟨unit, t, _, hu, exec_encode_of_ok hf ha hcode hu, fun leaf hs => ?_, fun hs => ?_, writeBits_bitsOut unit s,
    congrArg (fun w => respond .ok 0 (setTree t w)) (writeBits_same unit s)⟩
  · obtain ⟨hlive, -, -⟩ := (h.sym2leaf_iff sym leaf).1 hs
    obtain ⟨hpath, -⟩ := hbound leaf hs
    exact h.descend_of_pathOf ahteValid hlive hpath
  · obtain ⟨path, hpath, -, rfl⟩ := hnew hs
    exact ⟨path, h.descend_of_pathOf ahteValid h.nyt_live hpath, rfl⟩

/-- R107, R221: where `update` has no room it raises the fault of the first test that fails. -/
theorem update_of_no_room (inv : TreeInv c t) {sym : Symbol}
    (h : (t.N t.root).weight = c.weightMax ∨ (t.sym2leaf[sym.val] = none ∧ t.nextOrder < 1)) :
    update c t sym =
      .error (.raise (if (t.N t.root).weight = c.weightMax then .weightOverflow else .nodeTableOverflow)) := by
  split
  · next hw => exact update_weightOverflow inv sym hw
  · next hw =>
    obtain ⟨hs, hno⟩ := h.resolve_left hw
    exact update_nodeTableOverflow inv sym hw hs hno

/-- Settles O15: the code is defined on every tree that meets the invariants, and the fault is that of the first test that fails
(`update_of_no_room`). -/
theorem encodeFaultsAfterItsBits : Obligations.EncodeFaultsAfterItsBits := by
  intro s a sym hf inv ha hno
  obtain ⟨unit, hcode, -⟩ := codeBits_spec ahteValid inv.toTreeShape sym
  exact ⟨unit, _, hcode, exec_encode_of_raise hf ha hcode (update_of_no_room inv hno), writeBits_bitsOut unit s, rfl,
    congrArg (raiseFault _) (writeBits_same unit s)⟩

/-- Settles O36: a unit has at least one bit (`TreeShape.unit_pos`), and the NYT node's path is empty exactly when that node is the
root. -/
theorem costOfAUnit : Obligations.CostOfAUnit := by
  intro c t sym hc inv
  have h := inv.toTreeShape
  obtain ⟨unit, hcode, hunit, hbound, hnew⟩ := codeBits_spec hc h sym
  refine ⟨unit, hcode, fun leaf hs => ?_, fun hs => ?_⟩
  · obtain ⟨hpath, hlen⟩ := hbound leaf hs
    exact ⟨hpath, h.unit_pos hc hunit, hlen⟩
  · obtain ⟨path, hpath, hlen, rfl⟩ := hnew hs
    have hroot : path.length = 0 ↔ t.nyt = 0 := by
      rw [List.length_eq_zero_iff]
      exact h.path_nil_iff (h.root_zero ▸ h.descend_of_pathOf hc h.nyt_live hpath)
    have hnyt := h.nyt_last
    have hunitLen : (path ++ literalBits sym).length = path.length + 9 := by simp
    exact ⟨⟨path, hpath, rfl, hunitLen⟩, by omega, by omega, by omega⟩

/-! ### ENCSTREAM -/

section
variable {syms : List Symbol} {bits : List Bool}

/-- R191: from the one-node tree exactly the symbols of the units have leaves. -/
theorem Reads.bound_iff_of_fresh (hc : c.Valid) (hr : Reads c (CodeTree.fresh c) syms bits t) (s : Symbol) :
    t.Bound s ↔ s ∈ syms := by
  have hfresh : ¬ (CodeTree.fresh c).Bound s := by
    rw [← mem_boundSet, boundSet_fresh]
    exact Finset.notMem_empty s
  rw [hr.bound_iff hc (fresh_inv hc), or_iff_right hfresh]

/-- R196: from the one-node tree the root's weight is the number of the units. -/
theorem Reads.root_weight_of_fresh (hc : c.Valid) (hr : Reads c (CodeTree.fresh c) syms bits t) :
    (t.N 0).weight = syms.length := by
  rw [hr.root_weight hc (fresh_inv hc), fresh_N_zero, Nat.zero_add]

end

/-- R205: after symbols of a set that fits, fewer than the largest weight, a symbol of the set can be updated. -/
theorem Writes.update_ok_of_fits (hc : c.Valid) {syms : List Symbol} {bits : List Bool}
    (hw : Writes c (CodeTree.fresh c) syms bits t) {B : Finset Symbol} (hB : ∀ s ∈ syms, s ∈ B)
    (hfit : 2 * B.card + 1 ≤ c.nodeCap) (hlen : syms.length < c.weightMax) {sym : Symbol} (hsym : sym ∈ B) :
    ∃ t', update c t sym = .ok t' := by
  have hr := hw.reads hc (fresh_inv hc)
  have inv := hr.inv hc (fresh_inv hc)
  have hsub : boundSet t ⊆ B := fun s hs => hB s ((hr.bound_iff_of_fresh hc s).1 (mem_boundSet.1 hs))
  have hweight := hr.root_weight_of_fresh hc
  obtain ⟨t', hu, -⟩ := update_ok hc inv sym (inv.hasRoom_of_fits hc hsub hsym hfit (by omega))
  exact ⟨t', hu⟩

/-- R191, R196: a sequence of bytes with EOT behind it that can be written fits in the arena, and its length is in the range of a
weight. -/
theorem Writes.fits (hc : c.Valid) {l : List Byte} {bits : List Bool}
    (hw : Writes c (CodeTree.fresh c) (l.map Symbol.ofByte ++ [Symbol.eot]) bits t) :
    2 * (distinctBytes l + 1) + 1 ≤ c.nodeCap ∧ l.length < c.weightMax := by
  have hr := hw.reads hc (fresh_inv hc)
  have inv := hr.inv hc (fresh_inv hc)
  constructor
  · have hbound : boundSet t = insert Symbol.eot (symSet l) := by
      ext s
      rw [mem_boundSet, hr.bound_iff_of_fresh hc, symSet]
      simp [or_comm]
    have hcount := inv.toTreeShape.nextOrder_eq
    rw [hbound, fullSet_card] at hcount
    have hnext := inv.next
    have hcap := inv.cap
    omega
  · have hroot := inv.weight_range 0 inv.toTreeShape.root_live
    rw [hr.root_weight_of_fresh hc, List.length_append, List.length_map] at hroot
    exact hroot

/-- R167, R169: where the bytes left fit in the arena `ENCSTREAM` gets as far as EOT's unit, whose update completes or faults. -/
theorem encstream_reaches_eot (hc : c.Valid) {s : State} (hfit : 2 * distinctBytes (s.source.drop s.pos) + 1 ≤ c.nodeCap)
    (hlen : (s.source.drop s.pos).length ≤ c.weightMax) :
    (∃ bits t, Writes c (CodeTree.fresh c) ((s.source.drop s.pos).map Symbol.ofByte ++ [Symbol.eot]) bits t ∧
      runEncstream c () s = .ended (respond .ok 0 (flush { writeBits bits (clearWrite s) with
        tree := t, pos := s.pos + (s.source.drop s.pos).length }))) ∨
    (∃ bits unit t code, Writes c (CodeTree.fresh c) ((s.source.drop s.pos).map Symbol.ofByte) bits t ∧
      codeBits c t Symbol.eot = .ok unit ∧ update c t Symbol.eot = .error (.raise code) ∧
      runEncstream c () s = .ended (raiseFault code { writeBits (bits ++ unit) (clearWrite s) with
        tree := t, pos := s.pos + (s.source.drop s.pos).length })) := by
  rcases encstream_run hc s with hdone | ⟨l1, v, l2, bits, unit, t1, code, hl, hw, -, hup, -, -⟩ |
    ⟨bits, unit, t1, code, hw, hcode, hup, -, he⟩
  · exact .inl hdone
  · rw [hl] at hfit hlen
    have hmem : ∀ x ∈ l1 ++ v :: l2, Symbol.ofByte x ∈ symSet (l1 ++ v :: l2) := fun x hx =>
      List.mem_toFinset.2 (List.mem_map_of_mem hx)
    have hshort : (l1.map Symbol.ofByte).length < c.weightMax := by
      rw [List.length_append, List.length_cons] at hlen
      rw [List.length_map]
      omega
    obtain ⟨t', hok⟩ := hw.update_ok_of_fits hc (List.forall_mem_map.2 fun x hx => hmem x (List.mem_append_left _ hx))
      (symSet_card _ ▸ hfit) hshort (hmem v (by simp))
    cases hup.symm.trans hok
  · exact .inr ⟨bits, unit, t1, code, hw, hcode, hup, he⟩

theorem exec_encstream_of_ended {s e : State} (hf : s.fault = false) (h : runEncstream Config.ahte () s = .ended e) :
    exec .encstream s = .next e := by
  rw [exec_encstream hf, h]
  rfl

/-- Settles O37: all symbols and EOT can be written (`writes_all`), so that EOT's update does not fault. -/
theorem encstreamResult : Obligations.EncstreamResult := by
  intro s hf hd hlen
  have hlen : (s.source.drop s.pos).length < Config.ahte.weightMax := hlen
  have hcap : Config.ahte.nodeCap = 513 := rfl
  rcases encstream_reaches_eot ahteValid (s := s) (by omega) (by omega) with
    ⟨bits, t, hw, he⟩ | ⟨bits, unit, t, code, hw, -, hup, -⟩
  · obtain ⟨bytes, hbytes, hflush⟩ := flush_shape (bits := bits) (s := s) (t := t) (p := s.pos + (s.source.drop s.pos).length)
    refine ⟨bits, t, bytes, hw, hbytes, ?_⟩
    rw [exec_encstream_of_ended hf he, hflush]
    rfl
  · obtain ⟨all, t', hall⟩ := writes_all ahteValid (s.source.drop s.pos) (by omega) hlen
    obtain ⟨_, _, t1, hw1, ⟨_, _, _, -, hok, -⟩, -⟩ := hall.split
    obtain ⟨-, rfl⟩ := hw1.unique hw
    cases hup.symm.trans hok

/-- Settles O38: what has been written fits (`Writes.fits`), and what fits is written (O37). -/
theorem whereEncstreamCompletes : Obligations.WhereEncstreamCompletes := by
  intro s hf
  constructor
  · rintro ⟨s', hrun, hok⟩
    rw [exec_encstream hf] at hrun
    obtain ⟨bits, unit, pad, t, bytes, hw, hcode, hup, -⟩ := encstream_completed ahteValid hrun hok
    obtain ⟨hfit, hlen⟩ := (hw.snoc hcode hup).fits ahteValid
    have hcap : Config.ahte.nodeCap = 513 := rfl
    exact ⟨by omega, hlen⟩
  · rintro ⟨hd, hlen⟩
    obtain ⟨bits, t, bytes, -, -, hrun⟩ := encstreamResult s hf hd hlen
    exact ⟨_, hrun, rfl⟩

/-- R107: where the weight test passes, a fault of the update is that of the full arena. -/
theorem update_fault_of_weight_below (hc : c.Valid) (inv : TreeInv c t) {sym : Symbol} {code : FaultCode}
    (hw : (t.N t.root).weight ≠ c.weightMax) (hup : update c t sym = .error (.raise code)) : code = .nodeTableOverflow := by
  rcases update_cases hc inv sym with ⟨-, t', h, -⟩ | ⟨hmax, -⟩ | ⟨-, -, -, h⟩
  · cases hup.symm.trans h
  · exact absurd hmax hw
  · cases hup.symm.trans h
    rfl

/-- Settles O39: the 256 byte values fit and EOT beside them does not; the root's weight being below its maximum, the fault of EOT's
update is that of the full arena. -/
theorem fullAlphabetFaultsAtEot : Obligations.FullAlphabetFaultsAtEot := by
  intro s hf hd hlen
  have inv := fresh_inv ahteValid
  have hlen : (s.source.drop s.pos).length < Config.ahte.weightMax := hlen
  have hcap : Config.ahte.nodeCap = 513 := rfl
  rcases encstream_reaches_eot ahteValid (s := s) (by omega) (by omega) with
    ⟨bits, t, hw, -⟩ | ⟨bits, unit, t, code, hw, hcode, hup, he⟩
  · obtain ⟨hfit, -⟩ := hw.fits ahteValid
    omega
  · have hr := hw.reads ahteValid inv
    have inv' := hr.inv ahteValid inv
    have hweight : (t.N t.root).weight = (s.source.drop s.pos).length := by
      rw [inv'.root_zero, hr.root_weight_of_fresh ahteValid, List.length_map]
    obtain rfl := update_fault_of_weight_below ahteValid inv' (by omega) hup
    have hbits : bitsOut (writeBits (bits ++ unit) (clearWrite s)) = s.sink.flatMap byteBits ++ bits ++ unit := by
      rw [writeBits_bitsOut, List.append_assoc]
      simp [bitsOut]
    have hframe := writeBits_same (bits ++ unit) (clearWrite s)
    exact ⟨bits, unit, t, _, hw, hcode, exec_encstream_of_ended hf he, hbits, congrArg (fun w : State =>
      raiseFault .nodeTableOverflow { w with tree := t, pos := s.pos + (s.source.drop s.pos).length }) hframe⟩

/-! ### DECSTREAM after some units -/

/-- `s2` is where the decoder stands when it has read units for `syms` on its way from `s`, and perhaps bits of another: the symbols
put, the tree `t` after their updates (R172 to R178). -/
def Decoded (s : State) (syms : List Symbol) (t : CodeTree) (s2 : State) : Prop :=
  s2 = { s with tree := t, rAcc := s2.rAcc, rCnt := s2.rCnt, pos := s2.pos, sink := s.sink ++ syms.map symByte,
                stopReason := .none }

section
variable {s s2 : State} {syms : List Symbol} {bits rest : List Bool}

theorem Decoded.sink (h : Decoded s syms t s2) : s2.sink = s.sink ++ syms.map symByte := congrArg State.sink h

theorem Decoded.stopReason (h : Decoded s syms t s2) : s2.stopReason = .none := congrArg State.stopReason h

theorem Decoded.fault (h : Decoded s syms t s2) : s2.fault = s.fault := (congrArg State.fault h :)

theorem Decoded.faultCode (h : Decoded s syms t s2) : s2.faultCode = s.faultCode := (congrArg State.faultCode h :)

/-- R172: a normal end of the command. -/
theorem Decoded.stop (h : Decoded s syms t s2) (r : StopReason) : stopDecoding r s2 =
    { s with tree := t, rAcc := s2.rAcc, rCnt := s2.rCnt, pos := s2.pos, sink := s.sink ++ syms.map symByte,
             stopReason := r, rsp := response .ok r.code, busy := false } :=
  congrArg (stopDecoding r) h

/-- R228: a fault ends the command. -/
theorem Decoded.raise (h : Decoded s syms t s2) (code : FaultCode) : raiseFault code s2 =
    { s with tree := t, rAcc := s2.rAcc, rCnt := s2.rCnt, pos := s2.pos, sink := s.sink ++ syms.map symByte,
             stopReason := .none, fault := true, faultCode := code, rsp := response .fault code.code, busy := false } :=
  congrArg (raiseFault code) h

/-- R177: the byte of one more symbol. -/
theorem Decoded.put (h : Decoded s syms t s2) (sym : Symbol) : Decoded s (syms ++ [sym]) t (sinkPut (symByte sym) s2) := by
  rw [Decoded, List.map_append, ← List.append_assoc]
  exact congrArg (sinkPut (symByte sym)) h

/-- R171 to R178: `DECSTREAM` reads the units in front and goes on at the root of the tree after their updates. -/
theorem runDecstream_units (hc : c.Valid) (hne : Symbol.eot ∉ syms) (hreads : Reads c (CodeTree.fresh c) syms bits t)
    (hb : (s.source.drop s.pos).flatMap byteBits = bits ++ rest) :
    ∃ s1 fuel, s1.tree = t ∧ bitsIn s1 = rest ∧ rest.length < fuel ∧
      runDecstream c () s = decodeLoop c fuel s1.tree.root s1 ∧ ∀ s2, ReadOk s1 s2 → Decoded s syms t s2 := by
  obtain ⟨s1, fuel, hb1, ht, hsink, hok, hfuel, hloop⟩ :=
    decodeLoop_reads (s := decodeStart c s) hc syms (fresh_inv hc) hreads hne hb (Nat.le_refl _)
  exact ⟨s1, fuel, ht, hb1, by omega, by rw [runDecstream_eq, hloop], fun s2 hr => decoded_state hok hr ht hsink⟩

/-- R174, R179: the bits to come end at an internal node. -/
theorem decodeLoop_ends_inside {fuel j : Nat} (h : TreeShape c s.tree)
    (hd : descend s.tree s.tree.root (bitsIn s) = some j) (hj : (s.tree.N j).left ≠ none) (hf : (bitsIn s).length < fuel) :
    ∃ s2, bitsIn s2 = [] ∧ ReadOk s s2 ∧ decodeLoop c fuel s.tree.root s = .ended (stopDecoding .eoiDescent s2) := by
  obtain ⟨k, rfl⟩ := Nat.exists_eq_add_of_lt hf
  have hroot : s.tree.root < s.tree.nLive := h.root_zero ▸ h.root_live
  obtain ⟨s2, hb2, hok, hloop⟩ := decodeLoop_path (bitsIn s) [] (k + 1) h hroot hd (List.append_nil _).symm
  refine ⟨s2, hb2, hok, hloop.trans (decodeLoop_eoi k ?_ (hok.tree.symm ▸ hj) hb2)⟩
  rw [hok.tree]
  exact h.descend_live hroot hd

/-- R174, R175: the bits to come lead to the NYT node; where its literal ends the command, the decoder ends there. -/
theorem decodeLoop_to_nyt {fuel : Nat} {path : List Bool} (h : TreeShape c s.tree)
    (hd : descend s.tree s.tree.root path = some s.tree.nyt) (hb : bitsIn s = path ++ rest) (hf : (bitsIn s).length < fuel) :
    ∃ s1, bitsIn s1 = rest ∧ ReadOk s s1 ∧
      ∀ e, resolveLeaf s1.tree.nyt (s1.tree.N s1.tree.nyt) s1 = .ended e → decodeLoop c fuel s.tree.root s = .ended e := by
  obtain ⟨k, rfl⟩ : ∃ k, fuel = path.length + (k + 1) := by
    rw [hb, List.length_append] at hf
    exact Nat.exists_eq_add_of_lt (Nat.lt_of_le_of_lt (Nat.le_add_right _ _) hf)
  obtain ⟨s1, hb1, hok, hloop⟩ := decodeLoop_path path rest (k + 1) h (h.root_zero ▸ h.root_live) hd hb
  refine ⟨s1, hb1, hok, fun e he => ?_⟩
  rw [hok.tree] at he
  rw [hloop, decodeLoop_leaf k (hok.tree.symm ▸ h.nyt_live) (hok.tree.symm ▸ h.nyt_leaf), hok.tree, he]

/-- R175, R179: fewer than nine bits at the NYT node. -/
theorem resolveLeaf_of_short (n : Node) (hlen : (bitsIn s).length < 9) :
    ∃ s', bitsIn s' = [] ∧ ReadOk s s' ∧ resolveLeaf s.tree.nyt n s = .ended (stopDecoding .eoiLiteral s') := by
  rcases resolveLeaf_nyt n s with ⟨sym, _, _, hb, -⟩ | ⟨s', -, hshort⟩ | ⟨lit, _, _, h9, -, hb, -⟩
  · rw [hb, List.length_append, literalBits_length] at hlen
    omega
  · exact ⟨s', hshort⟩
  · rw [hb, List.length_append, h9] at hlen
    omega

/-- R175, R176: nine bits at the NYT node that spell no symbol. -/
theorem resolveLeaf_of_bad_literal (n : Node) {lit more : List Bool} (hb : bitsIn s = lit ++ more) (h9 : lit.length = 9)
    (hbad : ∀ sym : Symbol, lit ≠ literalBits sym) :
    ∃ s', bitsIn s' = more ∧ ReadOk s s' ∧ resolveLeaf s.tree.nyt n s = .ended (raiseFault .badLiteral s') := by
  rcases resolveLeaf_nyt n s with ⟨sym, _, _, hb', -⟩ | ⟨_, hlen, -⟩ | ⟨lit', _, s', h9', -, hb', hmore, hok, hres⟩
  · obtain ⟨hlit, -⟩ := List.append_inj (hb.symm.trans hb') h9
    exact absurd hlit (hbad sym)
  · rw [hb, List.length_append] at hlen
    omega
  · obtain ⟨-, rfl⟩ := List.append_inj (hb.symm.trans hb') (h9.trans h9'.symm)
    exact ⟨s', hmore, hok, hres⟩

end

theorem exec_decstream_of_ended {s e : State} (hf : s.fault = false) (h : runDecstream Config.ahte () s = .ended e) :
    exec .decstream s = .next e := by
  rw [exec_decstream hf, h]
  rfl

/-- Settles O41 (`runDecstream_eot`). -/
theorem decstreamStopsAtEot : Obligations.DecstreamStopsAtEot := by
  intro s syms bits unit more t hf hne hreads hunit hb
  obtain ⟨s', hrun, hmore, -, -, hs'⟩ := runDecstream_eot ahteValid hne hreads hunit hb
  exact ⟨s', exec_decstream_of_ended hf hrun, hmore, hs'⟩

/-- Settles O42: after the units, the way down that the bits left describe, to its end (`decodeLoop_ends_inside`) or to the NYT node
(`decodeLoop_to_nyt`) and the literal cut short there. -/
theorem decstreamStopsAtTheEndOfInput : Obligations.DecstreamStopsAtTheEndOfInput := by
  intro s syms bits rest t hf hne hreads hb
  have h := (hreads.inv ahteValid (fresh_inv ahteValid)).toTreeShape
  obtain ⟨s1, fuel, rfl, rfl, hfuel, hrun, hdecoded⟩ := runDecstream_units ahteValid hne hreads hb
  constructor
  · rintro ⟨j, hd, hj⟩
    obtain ⟨s2, hnil, hok, hend⟩ := decodeLoop_ends_inside h hd hj hfuel
    exact ⟨_, exec_decstream_of_ended hf (hrun.trans hend), hnil, (hdecoded s2 hok).stop .eoiDescent⟩
  · rintro ⟨path, part, hd, hrest, hpart⟩
    obtain ⟨s2, hb2, hok2, hend⟩ := decodeLoop_to_nyt h hd hrest hfuel
    obtain ⟨s3, hnil, hok3, hres⟩ := resolveLeaf_of_short (s2.tree.N s2.tree.nyt) (hb2.symm ▸ hpart)
    exact ⟨_, exec_decstream_of_ended hf (hrun.trans (hend _ hres)), hnil,
      (hdecoded s3 (hok2.trans hok3)).stop .eoiLiteral⟩

/-- Settles O43: after the units the way down to the NYT node (`decodeLoop_to_nyt`), and the literal refused there. -/
theorem decstreamFaultsOnABadLiteral : Obligations.DecstreamFaultsOnABadLiteral := by
  intro s syms bits path lit more t hf hne hreads hd h9 hbad hb
  rw [List.append_assoc, List.append_assoc] at hb
  have h := (hreads.inv ahteValid (fresh_inv ahteValid)).toTreeShape
  obtain ⟨s1, fuel, rfl, hb1, hfuel, hrun, hdecoded⟩ := runDecstream_units ahteValid hne hreads hb
  obtain ⟨s2, hb2, hok2, hend⟩ := decodeLoop_to_nyt h hd hb1 (hb1 ▸ hfuel)
  obtain ⟨s3, hmore, hok3, hres⟩ := resolveLeaf_of_bad_literal (s2.tree.N s2.tree.nyt) hb2 h9 hbad
  exact ⟨_, exec_decstream_of_ended hf (hrun.trans (hend _ hres)), hmore,
    (hdecoded s3 (hok2.trans hok3)).raise .badLiteral⟩

/-! ### DECSTREAM on any input -/

/-- R180 (f): while EOT has no leaf, the update of another symbol finds room in the arena of this hardware: the only fault it can
raise is that of the root's weight. -/
theorem update_fault_of_unbound_eot {sym : Symbol} {code : FaultCode} (inv : TreeInv Config.ahte t) (hsym : sym ≠ Symbol.eot)
    (heot : t.sym2leaf[Symbol.eot.val] = none) (hup : update Config.ahte t sym = .error (.raise code)) :
    code = .weightOverflow ∧ (t.N t.root).weight = 2 ^ 64 - 1 := by
  rcases update_cases ahteValid inv sym with ⟨-, t', h, -⟩ | ⟨hw, h⟩ | ⟨-, hs, hno, -⟩
  · cases hup.symm.trans h
  · cases hup.symm.trans h
    exact ⟨rfl, hw⟩
  · have hcount := boundCount_lt_of_two_unbound t hsym hs heot
    have hlive := inv.toTreeShape.nLive_eq
    have hnext : t.nextOrder = (512 : Int) - t.nLive := inv.next
    omega

/-- R178: EOT gains no leaf from units for other symbols. -/
theorem Reads.eot_unbound (hc : c.Valid) {syms : List Symbol} {bits : List Bool}
    (hreads : Reads c (CodeTree.fresh c) syms bits t) (hne : Symbol.eot ∉ syms) : t.sym2leaf[Symbol.eot.val] = none := by
  by_contra hbound
  exact hne ((hreads.bound_iff_of_fresh hc Symbol.eot).1 hbound)

/-- Settles O44, by the five ends of the decoder (`DecodeEnd`), in their order. -/
theorem decstreamOnAnyInput : Obligations.DecstreamOnAnyInput := by
  intro s hf
  have inv := fresh_inv ahteValid
  obtain ⟨syms, bits, s1, e, hne, hreads, hb, hsink, hok, hend, he⟩ :=
    decodeLoop_total ahteValid (s := decodeStart Config.ahte s) inv (Nat.le_refl _)
  have inv' := hreads.inv ahteValid inv
  have hrun : exec .decstream s = .next e := exec_decstream_of_ended hf ((runDecstream_eq ..).trans he)
  have hdecoded : ∀ {s2}, ReadOk s1 s2 → Decoded s syms s1.tree s2 := fun hr => decoded_state hok hr rfl hsink
  refine ⟨syms, bits, bitsIn s1, s1.tree, e, hne, hreads, hb, hrun, ?_⟩
  rw [inv'.root_zero]
  cases hend with
  | eot unit more s2 hunit hrest hmore hok2 =>
    have hd := hdecoded hok2
    exact ⟨by rw [hd.stop],
      .inl ⟨unit, more, hunit, hrest, hmore, hd.sink, rfl, rfl, hd.fault.trans hf, hd.faultCode⟩⟩
  | eoiDescent j s2 hj hinner hnil hok2 =>
    have hd := hdecoded hok2
    exact ⟨by rw [hd.stop],
      .inr (.inl ⟨j, hj, hinner, hnil, hd.sink, rfl, rfl, hd.fault.trans hf, hd.faultCode⟩)⟩
  | eoiLiteral path part s2 hpath hrest hpart hnil hok2 =>
    have hd := hdecoded hok2
    exact ⟨by rw [hd.stop], .inr (.inr (.inl
      ⟨path, part, hpath, hrest, hpart, hnil, hd.sink, rfl, rfl, hd.fault.trans hf, hd.faultCode⟩))⟩
  | badLiteral path lit more s2 hpath hrest h9 hbad hmore hok2 =>
    have hd := hdecoded hok2
    exact ⟨by rw [hd.raise], .inr (.inr (.inr (.inl
      ⟨path, lit, more, hpath, hrest, h9, (badLiteral_iff h9).2 hbad, hmore, hd.sink, hd.stopReason, rfl, rfl, rfl⟩)))⟩
  | updateFault sym unit more code s2 hsym hunit hrest hup _ hmore hok2 =>
    obtain ⟨rfl, hweight⟩ := update_fault_of_unbound_eot inv' hsym (hreads.eot_unbound ahteValid hne) hup
    have hd := (hdecoded hok2).put sym
    exact ⟨by rw [hd.raise], .inr (.inr (.inr (.inr
      ⟨sym, unit, more, hsym, hunit, hrest, inv'.root_zero ▸ hweight, hmore, hd.sink, hd.stopReason, rfl, rfl, rfl⟩)))⟩

/-! ### The stream commands on an exhausted source -/

/-- R68, R169: EOT's literal padded to whole bytes. -/
theorem padded_eot_literal : [0x80, 0x00].flatMap byteBits = literalBits Symbol.eot ++ List.replicate 7 false := by decide

theorem readLiteral_of_no_bit {s : State} (n lit : Nat) (h : bitsIn s = []) : readLiteral (n + 1) lit s = (none, s) := by
  rw [readLiteral, readBit_eoi h]

/-- R180 (a): no bit to read at the root of the one-node tree, which is its NYT node. -/
theorem runDecstream_of_no_bit (hc : c.Valid) {s : State} (h : bitsIn (decodeStart c s) = []) :
    runDecstream c () s = .ended (stopDecoding .eoiLiteral (decodeStart c s)) := by
  have hshape := (fresh_inv hc).toTreeShape
  have hnyt : (decodeStart c s).tree.root = (decodeStart c s).tree.nyt := rfl
  rw [runDecstream_eq, decodeLoop_leaf _ hshape.root_live hshape.nyt_leaf, resolveLeaf, if_pos hnyt,
    readLiteral_of_no_bit 8 0 h]

/-- Settles O40: `ENCSTREAM` writes EOT's unit alone (O37), which on the one-node tree is a literal. -/
theorem emptySource : Obligations.EmptySource := by
  intro s hf hend
  have hnil : s.source.drop s.pos = [] := List.drop_eq_nil_of_le hend
  constructor
  · obtain ⟨bits, t, bytes, hw, hbytes, hrun⟩ := encstreamResult s hf (by simp [hnil, distinctBytes]) (by simp [hnil])
    rw [hnil] at hw hrun
    obtain ⟨unit, _, _, hcode, -, ⟨rfl, -⟩, rfl⟩ := hw
    have hliteral := (fresh_inv ahteValid).toTreeShape.codeBits_of_nyt_eq_root ahteValid rfl Symbol.eot
    cases hcode.symm.trans hliteral
    rw [List.append_nil] at hbytes
    obtain rfl : bytes = [0x80, 0x00] := flatMap_byteBits_inj (hbytes.trans padded_eot_literal.symm)
    exact ⟨t, hrun⟩
  · have hbits : bitsIn (decodeStart Config.ahte s) = [] := by
      rw [decodeStart_bitsIn, hnil, List.flatMap_nil]
    exact exec_decstream_of_ended hf (runDecstream_of_no_bit ahteValid hbits)

/-! ### Which command raises which fault (R221) -/

/-- A step that sets `FAULT` has run a command word: no other move of the host sets it. -/
theorem command_of_step_fault {s s' : State} (hf : s.fault = false) (h : step s = .next s') (hf' : s'.fault = true) :
    ∃ w rest i, s.host = .command w :: rest ∧ decode w = .ok i ∧ exec i { s with host := rest, busy := true } = .next s' := by
  have hnot : s'.fault ≠ s.fault := by simp [hf, hf']
  unfold step serveMove at h
  split at h
  · cases h
    exact absurd rfl hnot
  · cases h
    cases hf'
  · next w rest hhost =>
    split at h
    · cases h
      exact absurd rfl hnot
    · cases hdec : decode w with
      | ok i => exact ⟨w, rest, i, hhost, hdec, runWord_of_decode_ok hdec _ ▸ h⟩
      | error r =>
        rw [runWord_of_decode_error (s := acceptWord (popMove rest s)) hdec hf] at h
        cases h
        exact absurd rfl hnot
  · split at h <;> cases h <;> exact absurd rfl hnot
  · split at h <;> cases h <;> exact absurd rfl hnot
  · split at h
    · cases h
      exact absurd rfl hnot
    · unfold runCut at h
      split at h <;> cases h
      cases hf'

/-- The fault latched, if there is one, is of the codes that `P` admits, and it is the answer (R228). -/
def Raised (P : FaultCode → Prop) (s : State) : Prop :=
  s.fault = true → P s.faultCode ∧ s.rsp = response .fault s.faultCode.code

theorem raised_of_no_fault {P : FaultCode → Prop} {s : State} (hf : s.fault = false) : Raised P s := by
  intro h
  rw [hf] at h
  cases h

/-- The two faults of `update` (R107, R109). -/
def IsUpdateFault (code : FaultCode) : Prop := code = .nodeTableOverflow ∨ code = .weightOverflow

theorem orStuck_ne_raise {α : Type} {x : Except Fault α} {code : FaultCode} : orStuck x ≠ .error (.raise code) := by
  cases x <;> simp

/-- A fault of the hardware in a sequence is not raised by its part without meaning. -/
theorem orStuck_bind_raises {α β : Type} {x : Except Fault α} {f : α → Except Halt β} {code : FaultCode}
    (h : (orStuck x >>= f) = .error (.raise code)) : ∃ a, f a = .error (.raise code) := by
  cases x with
  | ok a => exact ⟨a, h⟩
  | error e => cases h

/-- R109: on any tree. -/
theorem split_raises {sym : Symbol} {code : FaultCode} (h : split t sym = .error (.raise code)) :
    code = .nodeTableOverflow := by
  unfold split at h
  split at h
  · cases h
    rfl
  · obtain ⟨n, h⟩ := orStuck_bind_raises h
    cases h

/-- R110: a bound symbol's leaf is there, a new symbol's node is split. -/
theorem walkStart_raises {sym : Symbol} {code : FaultCode} (h : walkStart t sym = .error (.raise code)) :
    code = .nodeTableOverflow := by
  unfold walkStart at h
  split at h
  · exact split_raises h
  · cases h

/-- R107: on any tree, whether or not it meets the invariants. -/
theorem update_raises {sym : Symbol} {code : FaultCode} (h : update c t sym = .error (.raise code)) : IsUpdateFault code := by
  obtain ⟨r, h⟩ := orStuck_bind_raises h
  split at h
  · cases h
    exact .inr rfl
  · cases hw : walkStart t sym with
    | ok x =>
      rw [hw] at h
      exact absurd h orStuck_ne_raise
    | error e =>
      rw [hw] at h
      cases h
      exact .inl (walkStart_raises hw)

section
variable {s : State} (hf : s.fault = false)
include hf

theorem updateTree_raised (c : Config) (sym : Symbol) :
    (updateTree c sym s).Post (fun s => s.fault = false) (Raised IsUpdateFault) := by
  unfold updateTree
  split
  · exact hf
  · next hu => exact fun _ => ⟨update_raises hu, rfl⟩
  · trivial

theorem encodeSymbol_raised (c : Config) (sym : Symbol) :
    (encodeSymbol c sym s).Post (fun s => s.fault = false) (Raised IsUpdateFault) := by
  unfold encodeSymbol
  split
  · trivial
  · next bits _ => exact updateTree_raised ((congrArg State.fault (writeBits_same bits s)).trans hf) c sym

theorem complete_raised (v : BitVec 10) : (complete v s).Post (fun _ => False) (Raised IsUpdateFault) :=
  raised_of_no_fault hf

theorem encodeBytes_raised (c : Config) (n : Nat) :
    (encodeBytes c n s).Post (fun s => s.fault = false) (Raised IsUpdateFault) := by
  induction n generalizing s with
  | zero => exact hf
  | succ n ih =>
    unfold encodeBytes
    rcases srcNext_cases s with ⟨-, h⟩ | ⟨v, -, -, h⟩ <;> rw [h]
    · exact hf
    · exact (encodeSymbol_raised (s := { s with pos := s.pos + 1 }) hf c _).andThen fun _ hs => ih hs

theorem runUpdate_raised (c : Config) (sym : Symbol) : (runUpdate c sym s).Post (fun _ => False) (Raised IsUpdateFault) :=
  (updateTree_raised hf c sym).andThen fun _ hs => complete_raised hs 0

theorem runEncode_raised (c : Config) (sym : Symbol) : (runEncode c sym s).Post (fun _ => False) (Raised IsUpdateFault) :=
  (encodeSymbol_raised hf c sym).andThen fun _ hs => complete_raised hs 0

theorem runEncstream_raised (c : Config) : (runEncstream c () s).Post (fun _ => False) (Raised IsUpdateFault) :=
  ((encodeBytes_raised (s := clearWrite (setTree (treeReset c) s)) hf c _).andThen
    fun _ hs => encodeSymbol_raised hs c Symbol.eot).andThen
    fun s hs => complete_raised ((congrArg State.fault (flush_same s)).trans hs) 0

end

/-- R221: the commands that can set `FAULT`, and what they then record and answer. -/
theorem exec_raises {i : Instr} {s s' : State} (hf : s.fault = false) (h : exec i s = .next s') (hf' : s'.fault = true) :
    (((∃ a, i = .update a) ∨ (∃ a, i = .encode a) ∨ i = .encstream) ∧ IsUpdateFault s'.faultCode ∧
      s'.rsp = response .fault s'.faultCode.code) ∨
    (i = .decstream ∧ (s'.faultCode = .badLiteral ∨ s'.faultCode = .weightOverflow) ∧
      s'.rsp = response .fault s'.faultCode.code) := by
  have hset : s'.fault ≠ s.fault := by simp [hf, hf']
  obtain ⟨-, -, -, -, -, -, -, -, -, -, -, -, -, hkeeps⟩ := frameOfEveryCommand i s s' h
  have hquiet := fun hi => hset (hkeeps hi).1
  rcases exec_cases h with ⟨r, rfl⟩ | ⟨-, ⟨rfl, -⟩ | ⟨n, bits, rfl, -⟩ | ⟨a, sym, rfl, hrun⟩ | ⟨a, b, rfl, -⟩ | ⟨rfl, -⟩ |
    ⟨rfl, -⟩ | ⟨a, sym, rfl, hrun⟩ | ⟨rfl, hrun⟩ | ⟨rfl, -⟩⟩
  · exact absurd rfl hset
  · exact absurd (by simp) hquiet
  · exact absurd (by simp) hquiet
  · exact .inl ⟨.inl ⟨a, rfl⟩, (runUpdate_raised hf Config.ahte sym).outcome hrun hf'⟩
  · exact absurd (by simp) hquiet
  · exact absurd (by simp) hquiet
  · exact absurd (by simp) hquiet
  · exact .inl ⟨.inr (.inl ⟨a, rfl⟩), (runEncode_raised hf Config.ahte sym).outcome hrun hf'⟩
  · exact .inl ⟨.inr (.inr rfl), (runEncstream_raised hf Config.ahte).outcome hrun hf'⟩
  · obtain ⟨_, _, _, _, e, -, -, -, he, -, hend⟩ := decstreamOnAnyInput s hf
    cases h.symm.trans he
    rcases hend with ⟨_, _, -, -, -, -, -, -, hno, -⟩ | ⟨_, -, -, -, -, -, -, hno, -⟩ | ⟨_, _, -, -, -, -, -, -, -, hno, -⟩ |
      ⟨_, _, _, -, -, -, -, -, -, -, hrsp, -, hcode⟩ | ⟨_, _, _, -, -, -, -, -, -, -, hrsp, -, hcode⟩
    · cases hno.symm.trans hf'
    · cases hno.symm.trans hf'
    · cases hno.symm.trans hf'
    · exact .inr ⟨rfl, .inl hcode, by rw [hcode]; exact hrsp⟩
    · exact .inr ⟨rfl, .inr hcode, by rw [hcode]; exact hrsp⟩

/-- Settles O13: the step ran a command word, and of the commands those that update the tree or decode can have set `FAULT`. -/
theorem whoRaisesWhichFault : Obligations.WhoRaisesWhichFault := by
  intro s s' hf h hf'
  obtain ⟨w, rest, i, hhost, hdec, hexec⟩ := command_of_step_fault hf h hf'
  obtain ⟨hhost', -, -, hidle, -⟩ := frameOfEveryCommand i _ s' hexec
  refine ⟨w, rest, i, hhost, hdec, hhost', hidle, ?_⟩
  rcases exec_raises (s := { s with host := rest, busy := true }) hf hexec hf' with
    ⟨hi, hcode | hcode, hrsp⟩ | ⟨hi, hcode | hcode, hrsp⟩ <;> rw [hcode] at hrsp
  · exact .inl ⟨hcode, hrsp, hi⟩
  · exact .inr (.inr ⟨hcode, hrsp, hi.imp_right (Or.imp_right .inl)⟩)
  · exact .inr (.inl ⟨hcode, hrsp, hi⟩)
  · exact .inr (.inr ⟨hcode, hrsp, .inr (.inr (.inr hi))⟩)

end Sys2Proof.Machine
end

section
/-! PROOFS. The invariants and properties (44_invariants_and_properties.md): the reset state meets the invariants (O53) and every step
keeps them and is defined (O51, O52); what a tree says of the symbols it was made of (O26, O27); that absolute orders are not
observable (O28); the round trip in an arena large enough for every symbol (O46). -/

namespace Sys2Proof.Machine

open Sys2Proof

variable {c c' : Config} {t t' : CodeTree}

/-! ### The reset state and the host's moves -/

/-- R190, R250, R49. -/
theorem resetOf_inv (hc : c.Valid) : MachineInv c (State.resetOf c) where
  tree := fresh_inv hc
  bits := ⟨Nat.one_pos, Nat.zero_le _⟩
  status :=
    { idle := rfl
      fault_code := by simp [State.resetOf]
      rsp_reserved := (by decide : rspReserved 0x0000 = 0)
      rsp_status := (by decide : (rspStatus 0x0000).toNat ≤ 3)
      path_width := List.length_replicate
      path_len := Nat.zero_le _
      path_zero := fun k _ hk => by simp [State.resetOf, hk] }
  source := Nat.zero_le _

/-- Settles O53. -/
theorem resetMeetsTheInvariants : Obligations.ResetMeetsTheInvariants := resetOf_inv ahteValid

/-- The invariants bind nothing of the environment (R61, R64) but the position to its source. -/
theorem MachineInv.withEnvironment {s : State} (h : MachineInv c s) {source : List Byte} {pos : Nat} (sink : List Byte)
    (host : List HostMove) (cuts : Nat) (hpos : pos ≤ source.length) :
    MachineInv c { s with source, pos, sink, host, cuts } where
  tree := h.tree
  bits := ⟨h.bits.wAcc_low, h.bits.rCnt_le⟩
  status := ⟨h.status.idle, h.status.fault_code, h.status.rsp_reserved, h.status.rsp_status, h.status.path_width,
    h.status.path_len, h.status.path_zero⟩
  source := hpos

theorem hardReset_inv {s : State} (hs : SourceInv s) : MachineInv Config.ahte (hardReset Config.ahte s) := by
  rw [hardReset_eq]
  exact resetMeetsTheInvariants.withEnvironment s.sink s.host s.cuts hs

/-- R251: a command cut short has pulled no more than the whole command would have. -/
theorem cutShort_inv {s e : State} (hs : SourceInv s) (he : SourceInv e) (hsrc : e.source = s.source) :
    MachineInv Config.ahte (cutShort s e) := by
  have hcut : Config.freeCut (2 * s.cuts) % (e.pos - s.pos + 1) ≤ e.pos - s.pos :=
    Nat.le_of_lt_succ (Nat.mod_lt _ (Nat.succ_pos _))
  have hpos : (cutShort s e).pos ≤ s.source.length := by
    unfold SourceInv at hs he
    rw [hsrc] at he
    rw [cutShort_pos]
    omega
  exact (hardReset_inv hs).withEnvironment (cutShort s e).sink s.host (s.cuts + 1) hpos

/-! ### A step -/

/-- R81: a word accepted sets `BUSY`, of which `Running` says nothing. -/
theorem Running.accept {s : State} (h : Running s) : Running (acceptWord s) :=
  ⟨h.tree, ⟨h.bits.wAcc_low, h.bits.rCnt_le⟩, h.fault, h.width, h.len, h.zero, h.source⟩

/-- R87: a word is refused, or its command runs to an end that meets the invariants. -/
theorem runWord_good (w : Word) {s : State} (h : Running s) : Good (runWord w s) := by
  unfold runWord
  cases decode w with
  | ok i => exact exec_good i h
  | error r => exact ⟨_, rfl, h.respond _ _⟩

theorem runWord_source {w : Word} {s e : State} (h : runWord w s = .next e) : e.source = s.source := by
  unfold runWord at h
  cases hdec : decode w with
  | ok i =>
    rw [hdec] at h
    obtain ⟨-, hsource, -⟩ := frameOfEveryCommand i s e h
    exact hsource
  | error r =>
    rw [hdec] at h
    cases h
    rfl

theorem runCut_good (w : Word) {s : State} (h : Running s) : Good (runCut w s) := by
  obtain ⟨e, hrun, he⟩ := runWord_good w h.accept
  refine ⟨cutShort s e, ?_, cutShort_inv h.source he.source ((runWord_source hrun).trans (acceptWord_source s))⟩
  unfold runCut
  rw [hrun]

theorem step_cutCommand {s : State} {w : Word} {rest : List HostMove} (h : s.host = .cutCommand w :: rest)
    (idle : s.busy = false) : step s = runCut w (popMove rest s) := by
  unfold step serveMove
  rw [h]
  exact if_neg (by rw [idle]; exact Bool.false_ne_true)

/-- R190: whatever the host's next move, the step answers a next state that meets the invariants. -/
theorem step_good {s : State} (h : MachineInv Config.ahte s) : Good (step s) := by
  have idle := h.status.idle
  have popped (rest : List HostMove) : MachineInv Config.ahte (popMove rest s) :=
    h.withEnvironment s.sink rest s.cuts h.source
  cases hhost : s.host with
  | nil => exact ⟨s, step_of_no_move hhost, h⟩
  | cons move rest =>
    cases move with
    | command w =>
      rw [step_command hhost idle]
      exact runWord_good w (popped rest).running.accept
    | source bytes =>
      exact ⟨_, step_source hhost idle, (popped rest).withEnvironment s.sink rest s.cuts (Nat.zero_le bytes.length)⟩
    | sink => exact ⟨_, step_sink hhost idle, (popped rest).withEnvironment [] rest s.cuts h.source⟩
    | hardReset => exact ⟨_, step_hardReset hhost, hardReset_inv (popped rest).source⟩
    | cutCommand w =>
      rw [step_cutCommand hhost idle]
      exact runCut_good w (popped rest).running

/-- Settles O51, by the host's moves (`step_good`). -/
theorem stepsKeepTheInvariants : Obligations.StepsKeepTheInvariants := by
  intro s s' h hstep
  obtain ⟨e, he, hinv⟩ := step_good h
  cases he.symm.trans hstep
  exact hinv

/-- Settles O52, by the host's moves (`step_good`). -/
theorem stepsAreNeverStuck : Obligations.StepsAreNeverStuck := by
  intro s h
  obtain ⟨e, he, -⟩ := step_good h
  exact ⟨e, he⟩

/-! ### Counting the nodes (R191) -/

/-- Settles O26: the lists of leaves and of internal nodes have the lengths of the sets `leaves` and `internals`. -/
theorem nodeCountFollowsTheBoundSymbols : Obligations.NodeCountFollowsTheBoundSymbols := by
  intro t inv
  have hlive := inv.nLive_eq
  have hleaves := inv.leaves_card
  have htotal := leaves_add_internals t
  have hcap : t.nLive ≤ 513 := inv.cap
  have hnext : t.nextOrder = 512 - (t.nLive : Int) := inv.next
  have hnyt := inv.nyt_last
  refine ⟨hlive, by omega, by omega, by omega, hleaves, ?_⟩
  show (internals t).card = _
  omega

/-! ### What updates count (R195, R196) -/

/-- The weight a symbol has in the tree: its leaf's, and 0 while it has none. -/
def symbolWeight (t : CodeTree) (sym : Symbol) : Nat := (t.sym2leaf[sym.val]).elim 0 fun leaf => (t.N leaf).weight

theorem symbolWeight_of_leaf {sym : Symbol} {leaf : Nat} (h : t.sym2leaf[sym.val] = some leaf) :
    symbolWeight t sym = (t.N leaf).weight := by
  unfold symbolWeight
  rw [h]
  rfl

theorem symbolWeight_of_unbound {sym : Symbol} (h : t.sym2leaf[sym.val] = none) : symbolWeight t sym = 0 := by
  unfold symbolWeight
  rw [h]
  rfl

theorem Updated.symbolWeight_same {sym : Symbol} (U : Updated c sym t t') :
    symbolWeight t' sym = symbolWeight t sym + 1 := by
  cases hleaf : t.sym2leaf[sym.val] with
  | none =>
    obtain ⟨-, -, -, hnew, hone⟩ := U.new hleaf
    rw [symbolWeight_of_leaf hnew, symbolWeight_of_unbound hleaf, hone]
  | some leaf =>
    obtain ⟨-, -, -, hsame, hweight⟩ := U.bound leaf hleaf
    rw [symbolWeight_of_leaf (hsame ▸ hleaf), symbolWeight_of_leaf hleaf, hweight]

theorem Updated.symbolWeight_other {sym other : Symbol} (U : Updated c sym t t') (hne : other ≠ sym) :
    symbolWeight t' other = symbolWeight t other := by
  have hsame := U.sym2leaf other hne
  cases hleaf : t.sym2leaf[other.val] with
  | none => rw [symbolWeight_of_unbound (hsame.trans hleaf), symbolWeight_of_unbound hleaf]
  | some leaf =>
    rw [symbolWeight_of_leaf (hsame.trans hleaf), symbolWeight_of_leaf hleaf, U.other_weight other hne leaf hleaf]

/-- R196: a symbol's weight counts its updates. -/
theorem Reads.symbolWeight_eq (hc : c.Valid) {syms : List Symbol} {bits : List Bool} (inv : TreeInv c t)
    (hr : Reads c t syms bits t') (sym : Symbol) :
    symbolWeight t' sym = symbolWeight t sym + syms.count sym := by
  induction syms generalizing t bits with
  | nil =>
    obtain ⟨-, rfl⟩ := hr
    rfl
  | cons s syms ih =>
    obtain ⟨unit, more, t1, -, hu, hrest, -⟩ := hr
    have U := update_inv hc inv hu
    rw [ih U.inv hrest]
    by_cases h : sym = s
    · subst h
      rw [U.symbolWeight_same, List.count_cons_self]
      omega
    · rw [U.symbolWeight_other h, List.count_cons_of_ne (Ne.symm h)]

/-- Symbols whose updates complete are symbols that can be written: no code of theirs is missing (R161). -/
theorem writes_of_foldlM_update (hc : c.Valid) (syms : List Symbol) (inv : TreeInv c t)
    (h : syms.foldlM (fun t sym => update c t sym) t = .ok t') : ∃ bits, Writes c t syms bits t' := by
  induction syms generalizing t with
  | nil =>
    cases h
    exact ⟨[], rfl, rfl⟩
  | cons sym syms ih =>
    rw [List.foldlM_cons] at h
    obtain ⟨t1, hu, h⟩ := bind_eq_ok.1 h
    obtain ⟨unit, hcode, -⟩ := codeBits_spec hc inv.toTreeShape sym
    obtain ⟨more, hrest⟩ := ih (update_inv hc inv hu).inv h
    exact ⟨unit ++ more, unit, more, t1, hcode, hu, hrest, rfl⟩

/-- Settles O27: the updates are those of a sequence of units, which keep the invariants and count. -/
theorem treesThatUpdatesMake : Obligations.TreesThatUpdatesMake := by
  intro c syms t hc h
  have fresh := fresh_inv hc
  obtain ⟨bits, hw⟩ := writes_of_foldlM_update hc syms fresh h
  have hr := hw.reads hc fresh
  have inv := hr.inv hc fresh
  refine ⟨inv, ?_, fun sym leaf hleaf => ?_, hr.bound_iff_of_fresh hc⟩
  · rw [inv.root_zero, hr.root_weight_of_fresh hc]
  · have hunbound : (CodeTree.fresh c).sym2leaf[sym.val] = none := Vector.getElem_replicate sym.isLt
    rw [← symbolWeight_of_leaf hleaf, hr.symbolWeight_eq hc fresh, symbolWeight_of_unbound hunbound, Nat.zero_add]

/-! ### Absolute orders (R203) -/

/-- R203: on trees that differ by a shift of the orders the same symbols get the same bits, and the trees after them differ by the
same shift. -/
theorem Shifted.writes {d : Nat} {syms : List Symbol} {bits bits' : List Bool} {t1 t1' : CodeTree} (S : Shifted d t t')
    (h : Writes c t syms bits t1) (h' : Writes c' t' syms bits' t1') : bits' = bits ∧ Shifted d t1 t1' := by
  induction syms generalizing t t' bits bits' with
  | nil =>
    obtain ⟨rfl, rfl⟩ := h
    obtain ⟨rfl, rfl⟩ := h'
    exact ⟨rfl, S⟩
  | cons sym syms ih =>
    obtain ⟨unit, more, t2, hcode, hu, hrest, rfl⟩ := h
    obtain ⟨unit', more', t2', hcode', hu', hrest', rfl⟩ := h'
    obtain ⟨hmore, S1⟩ := ih (S.update hu hu') hrest hrest'
    exact ⟨congrArg₂ _ (S.codeBits hcode hcode') hmore, S1⟩

/-- Settles O28: the two reset trees differ by a shift of the orders (`shifted_fresh`), and writing keeps it. -/
theorem absoluteOrdersAreNotObservable : Obligations.AbsoluteOrdersAreNotObservable := by
  intro c c' d syms bits bits' t t' hc hc' _ hmax h h'
  have hcap : c'.nodeCap = c.nodeCap + d := by
    obtain ⟨-, hge, -⟩ := hc
    obtain ⟨-, hge', -⟩ := hc'
    unfold Config.orderMax at hmax
    omega
  obtain ⟨hbits, S⟩ := (shifted_fresh hc hmax hcap).writes h h'
  exact ⟨hbits, S.nodes, S.root, S.nyt, S.sym2leaf, S.nextOrder, fun o _ => S.ord2node o⟩

/-! ### The round trip in a large arena (R205) -/

theorem distinctBytes_le (l : List Byte) : distinctBytes l ≤ 256 := by
  have hcard := Finset.card_le_univ (insert Symbol.eot (symSet l))
  rw [fullSet_card, Fintype.card_fin] at hcard
  omega

/-- R166, R205: where the bytes left and EOT fit in the arena `ENCSTREAM` completes, for every configuration. -/
theorem encstream_completes_of_fits (hc : c.Valid) {s : State}
    (hfit : 2 * (distinctBytes (s.source.drop s.pos) + 1) + 1 ≤ c.nodeCap)
    (hlen : (s.source.drop s.pos).length < c.weightMax) :
    ∃ bits t, runEncstream c () s = .ended (respond .ok 0 (flush { writeBits bits (clearWrite s) with
      tree := t, pos := s.pos + (s.source.drop s.pos).length })) := by
  rcases encstream_reaches_eot hc (s := s) (by omega) hlen.le with ⟨bits, t, -, he⟩ | ⟨bits, unit, t, code, hw, -, hup, -⟩
  · exact ⟨bits, t, he⟩
  · have hmem : ∀ sym ∈ (s.source.drop s.pos).map Symbol.ofByte, sym ∈ insert Symbol.eot (symSet (s.source.drop s.pos)) :=
      fun sym h => Finset.mem_insert_of_mem (List.mem_toFinset.2 h)
    obtain ⟨t', hok⟩ := hw.update_ok_of_fits hc hmem (by rwa [fullSet_card]) (by rwa [List.length_map])
      (Finset.mem_insert_self _ _)
    cases hup.symm.trans hok

/-- Settles O46: 256 byte values and EOT always fit in 515 entries; the rest is the round trip for every configuration. -/
theorem roundTripInALargeArena : Obligations.RoundTripInALargeArena := by
  intro c s u extra hc hcap hlen
  have hdistinct := distinctBytes_le (s.source.drop s.pos)
  obtain ⟨bits, t, hrun⟩ := encstream_completes_of_fits hc (by omega) hlen
  obtain ⟨bytes, -, hflush⟩ := flush_shape (bits := bits) (s := s) (t := t) (p := s.pos + (s.source.drop s.pos).length)
  rw [hflush] at hrun
  refine ⟨bytes, _, hrun, rfl, rfl, fun hsrc hpos => ?_⟩
  obtain ⟨u', hdec, -, hu'⟩ := runDecstream_of_encstream hc (congrArg Flow.outcome hrun) rfl rfl hsrc hpos
  exact ⟨u', hdec, congrArg State.sink hu', congrArg State.stopReason hu', congrArg State.rsp hu'⟩

end Sys2Proof.Machine
end

section
/-! PROOFS. The latched fault (60_exceptions.md R231): which moves of the host leave it latched, and that hard reset alone leaves it
(O9). -/

namespace Sys2Proof.Machine

open Sys2Proof

/-- R81, R238: while `BUSY = 1` the host holds every move but hard reset. -/
theorem step_busy {s : State} (hbusy : s.busy = true) (hno : ∀ rest, s.host ≠ .hardReset :: rest) : step s = .next s := by
  unfold step serveMove
  cases hhost : s.host with
  | nil => rfl
  | cons move rest =>
    cases move with
    | hardReset => exact absurd hhost (hno rest)
    | command w => exact if_pos hbusy
    | source bytes => exact if_pos hbusy
    | sink => exact if_pos hbusy
    | cutCommand w => exact if_pos hbusy

/-- R87, R231: a word accepted while a fault is latched is refused, legal or not. -/
theorem step_command_fault {s : State} {w : Word} {rest : List HostMove} (hf : s.fault = true)
    (hhost : s.host = .command w :: rest) (idle : s.busy = false) :
    step s = .next (refuse .faultLatched (acceptWord (popMove rest s))) :=
  (step_command hhost idle).trans (runWord_fault w (s := acceptWord (popMove rest s)) hf)

/-- R231: a step in which the host does not reset the engine keeps a latched fault. -/
theorem fault_of_step {s s' : State} (hf : s.fault = true) (hno : ∀ rest, s.host ≠ .hardReset :: rest)
    (hnocut : ∀ w rest, s.host ≠ .cutCommand w :: rest) (h : step s = .next s') : s'.fault = true := by
  cases hbusy : s.busy with
  | true =>
    cases (step_busy hbusy hno).symm.trans h
    exact hf
  | false =>
    cases hhost : s.host with
    | nil =>
      cases (step_of_no_move hhost).symm.trans h
      exact hf
    | cons move rest =>
      cases move with
      | command w =>
        cases (step_command_fault hf hhost hbusy).symm.trans h
        exact hf
      | source bytes =>
        cases (step_source hhost hbusy).symm.trans h
        exact hf
      | sink =>
        cases (step_sink hhost hbusy).symm.trans h
        exact hf
      | hardReset => exact absurd hhost (hno rest)
      | cutCommand w => exact absurd hhost (hnocut w rest)

/-- Settles O9: the refusals of `exec` and of a word (`exec_fault`, `step_command_fault`), the steps that keep the fault
(`fault_of_step`), and what hard reset makes of the state (O10). -/
theorem onlyHardResetLeavesAFault : Obligations.OnlyHardResetLeavesAFault := by
  intro s hf
  refine ⟨fun i => ?_, fun w rest hhost idle => ?_, fun s' h hf' => ?_, fun rest hhost => hardResetResult s rest hhost, rfl, rfl⟩
  · rw [exec_fault i hf, refuse_eq]
    rfl
  · rw [step_command_fault hf hhost idle, refuse_eq]
    rfl
  · by_contra hno
    push Not at hno
    have hlatched := fault_of_step hf (fun rest => (hno rest).1) (fun w rest => (hno rest).2 w) h
    cases hlatched.symm.trans hf'

end Sys2Proof.Machine
end

section
/-! PROOFS. A command cut short by hard reset (70_reset_and_hazards.md R251): a word never moves the position back or takes a byte off
the sink, so the streams stop between where the command found them and where it would have left them (O11). -/

namespace Sys2Proof.Machine

open Sys2Proof

/-- R62, R65: a word, refused or run to its end, only pulls bytes and only puts bytes. -/
theorem runWord_advances {w : Word} {s e : State} (h : runWord w s = .next e) : s.pos ≤ e.pos ∧ s.sink <+: e.sink := by
  unfold runWord at h
  cases hdec : decode w with
  | ok i =>
    rw [hdec] at h
    obtain ⟨-, -, -, -, hpos, hsink, -⟩ := frameOfEveryCommand i s e h
    exact ⟨hpos, hsink⟩
  | error r =>
    rw [hdec] at h
    cases h
    exact ⟨Nat.le_refl _, List.prefix_rfl⟩

/-- R250, R251: the registers are those of hard reset, whatever the command had done. -/
theorem cutShort_eq (s t : State) : cutShort s t =
    { State.reset with source := s.source, pos := (cutShort s t).pos, sink := (cutShort s t).sink, host := s.host,
                       cuts := s.cuts + 1 } := by
  unfold cutShort
  rw [hardReset_eq]

theorem cutShort_pos_between {s t : State} (h : s.pos ≤ t.pos) :
    s.pos ≤ (cutShort s t).pos ∧ (cutShort s t).pos ≤ t.pos := by
  have hcut : Config.freeCut (2 * s.cuts) % (t.pos - s.pos + 1) < t.pos - s.pos + 1 := Nat.mod_lt _ (Nat.succ_pos _)
  rw [cutShort_pos]
  omega

theorem cutShort_sink_between {s t : State} (h : s.sink <+: t.sink) :
    ∃ bytes, (cutShort s t).sink = s.sink ++ bytes ∧ s.sink ++ bytes <+: t.sink := by
  obtain ⟨put, hput⟩ := h
  refine ⟨_, cutShort_sink s t, ?_⟩
  rw [← hput, List.drop_left, List.prefix_append_right_inj]
  exact List.take_prefix _ put

theorem runCut_of_runWord {w : Word} {s t : State} (h : runWord w (acceptWord s) = .next t) :
    runCut w s = .next (cutShort s t) := by
  unfold runCut
  rw [h]

/-- Settles O11: the word, run to its end, answers `t` and advances the streams (`runWord_advances`); cut short it leaves them on the
way there, and every register at its reset value (`cutShort_eq`). -/
theorem cutCommandResult : Obligations.CutCommandResult := by
  intro s t w rest hhost idle hwhole
  have hrun : runWord w (acceptWord (popMove rest s)) = .next t :=
    (step_command (s := { s with host := .command w :: rest }) rfl idle).symm.trans hwhole
  obtain ⟨hpos, hsink⟩ := runWord_advances hrun
  obtain ⟨hge, hle⟩ := cutShort_pos_between (s := popMove rest s) hpos
  obtain ⟨bytes, hbytes, hprefix⟩ := cutShort_sink_between (s := popMove rest s) hsink
  refine ⟨(cutShort (popMove rest s) t).pos, bytes, hge, hle, hprefix, ?_⟩
  rw [step_cutCommand hhost idle, runCut_of_runWord hrun, cutShort_eq, hbytes]
  rfl

end Sys2Proof.Machine
end
